-- ==== Sys2Proof/Word.lean ====
section
/-! DEFINITION. The data types of RC6SPEC §3 as spec/00_scope.md rules R7 and R9 fix them: the 32-bit
Word, the byte, and the 16-byte Block as four words. The arithmetic on words is in
Machine/WordArith.lean. -/

namespace Sys2Proof

/-- A word: 32 bits, unsigned (R7 "W (word width) | 32 bits", R9). -/
abbrev Word := BitVec 32

/-- A byte, the unit of every memory access (R63). -/
abbrev Byte := BitVec 8

/-- A block as the words (A, B, C, D) = (word 0, word 1, word 2, word 3) (R61). -/
structure Block where
  a : Word
  b : Word
  c : Word
  d : Word
  deriving DecidableEq, Repr, Inhabited

end Sys2Proof
end

