-- ==== Sys2Proof/Machine/Working.lean ====
section
/-! DEFINITION. The block's hidden registers (spec/10_state.md R50 to R53): the latched operands, and the
working registers of the three units. They are plain data; what they hold while no command runs is
unspecified (R53, R241), see notes/assumptions/3.md. -/

namespace Sys2Proof.Machine

/-- The latched operands of the running command, copied at acceptance (R44, R53). -/
structure Latches where
  /-- Lk_CMD, the accepted command word. -/
  cmd : Word
  /-- Lk_ROUNDS. -/
  rounds : Word
  /-- Lk_KEYADDR. -/
  keyaddr : Word
  /-- Lk_KEYLEN. -/
  keylen : Word
  /-- Lk_SRC. -/
  src : Word
  /-- Lk_DST. -/
  dst : Word
  /-- Lk_LEN. -/
  len : Word
  /-- Lk_DIN0 to Lk_DIN3. -/
  din : Block
  deriving DecidableEq, Repr, Inhabited

/-- The KSE's working registers (R50, R51). -/
structure Kse where
  /-- The key bytes K[0..m-1] fetched so far, in ascending order (R131, FETCH phase). -/
  key : List Byte
  /-- The key-word array L (R50). -/
  l : List Word
  /-- The accumulator A. -/
  a : Word
  /-- The accumulator B. -/
  b : Word
  /-- The table index i, 0 ≤ i < t. -/
  i : Nat
  /-- The key-word index j, 0 ≤ j < c. -/
  j : Nat
  /-- The step counter s, 0 ≤ s ≤ v. -/
  s : Nat
  deriving DecidableEq, Repr, Inhabited

/-- The RTE's working registers (R52). -/
structure Rte where
  /-- The four block words A, B, C and D. -/
  blk : Block
  /-- The temporary t1. -/
  t1 : Word
  /-- The temporary u1. -/
  u1 : Word
  /-- The round counter i, 1 ≤ i ≤ r. -/
  i : Nat
  deriving DecidableEq, Repr, Inhabited

/-- The BSP's working registers (R53 and the loop variables of R170). -/
structure Bsp where
  /-- The block counter k, 0 ≤ k ≤ Lk_LEN/16. -/
  k : Nat
  /-- The index m of the next result byte to write (R170). -/
  m : Nat
  /-- The source bytes b[0..m-1] of block k read so far (R170). -/
  inp : List Byte
  /-- The result bytes o[0..15] of block k (R170). -/
  out : List Byte
  deriving DecidableEq, Repr, Inhabited

/-- All hidden registers that are unspecified while BUSY = 0 (R241 "unspecified, and no rule reads them
while BUSY = 0"). -/
structure Hidden where
  lk : Latches
  kse : Kse
  rte : Rte
  bsp : Bsp
  deriving DecidableEq, Repr, Inhabited

end Sys2Proof.Machine
end

