-- ==== Sys2Proof/Config.lean ====
section
/-! DEFINITION. What an implementation fixes (spec/00_scope.md R7 and R8), the constants of the algorithm,
and the three free values of the model. -/

namespace Sys2Proof

/-- The implementation parameters of rule R8. "A model takes each as a named argument with this default":
they are a field of State that no step changes, so every statement is about every choice of them.
T_MAX is `Params.tMax`. -/
structure Params where
  /-- R_MAX, the largest accepted round count. -/
  rMax : Nat := 255
  /-- KEY_MAX_BYTES, the largest accepted secret length in bytes. -/
  keyMaxBytes : Nat := 256
  /-- ADDR_W, the width of a memory-port byte address. -/
  addrW : Nat := 32
  /-- BASE, the base address of the register aperture. The spec leaves it OPEN; the default here is a
  DESIGN CHOICE (notes/assumptions/5.md). -/
  base : Nat := 0
  /-- BUS_ERR: true is `possible`, false is `never`. -/
  busErr : Bool := true
  deriving DecidableEq, Repr, Inhabited

namespace Config

/-- P (R7). -/
def magicP : Word := 0xB7E15163#32

/-- Q (R7). -/
def magicQ : Word := 0x9E3779B9#32

/-- BLOCK_BYTES (R7). -/
def blockBytes : Nat := 16

/-- R_DEFAULT (R7), the reset value of ROUNDS (R30). -/
def defaultRounds : Word := 20#32

/-- The contents of ID (R24): 'R', 'C', '6', command-set version 1. -/
def idWord : Word := 0x01364352#32

/-- The size of the register aperture in bytes (R23). -/
def apertureBytes : Nat := 4096

/-- FREE VALUE. What the hidden registers hold once a command has ended: "While BUSY = 0 these values are
unspecified and no rule reads them" (R53). It has no body, so nothing can be proved of it. The machine
applies it to the counter State.freeIdx, which it then advances (notes/assumptions/3.md). -/
opaque freeHidden : Nat → Machine.Hidden

/-- FREE VALUE. Word k of the table storage above the table: "The words from S[t] up to S[T_MAX-1] are never
read by any rule. Their contents are unspecified and unobservable" (R45). It has no body. The machine
applies it to State.freeIdx and k when an EXPAND gives up the old table (notes/assumptions/4.md). -/
opaque freeTableWord : Nat → Nat → Word

/-- FREE VALUE. Which of the bytes that R74 allows a racing access takes: "A model must admit every such
outcome or refuse programs that race. It must never pick one." It has no body. The machine applies it to
State.freeIdx at each racing access and then advances the counter (notes/assumptions/23.md). -/
opaque freePick : Nat → Nat

end Config

end Sys2Proof
end

