-- ==== Sys2Proof/Machine/WordArith.lean ====
section
/-! DEFINITION. The word operations of spec/41_word_arith.md R110 to R115, the packing primitives of
spec/00_scope.md R11, and the byte order of a block (spec/20_memory.md R61). "Word arithmetic sets no
flag, raises no error and never saturates" (R116). -/

namespace Sys2Proof.Machine

/-- R110: `add(a, b) = (N(a) + N(b)) mod 2^32`. -/
def add (a b : Word) : Word := BitVec.ofNat 32 (a.toNat + b.toNat)

/-- R111: `sub(a, b) = (N(a) - N(b) + 2^32) mod 2^32`, with 2^32 - N(b) taken first so that no natural
subtraction is cut off. -/
def sub (a b : Word) : Word := BitVec.ofNat 32 ((2 ^ 32 - b.toNat) + a.toNat)

/-- R112: `mul(a, b) = (N(a) · N(b)) mod 2^32`. -/
def mul (a b : Word) : Word := BitVec.ofNat 32 (a.toNat * b.toNat)

/-- R113: bitwise exclusive or. -/
def xor (a b : Word) : Word := a ^^^ b

/-- R114: rotate left by `n mod 32`. -/
def rotl (x : Word) (n : Nat) : Word :=
  if n % 32 = 0 then x else (x <<< (n % 32)) ||| (x >>> (32 - n % 32))

/-- R115: rotate right by `n mod 32`. -/
def rotr (x : Word) (n : Nat) : Word :=
  if n % 32 = 0 then x else (x >>> (n % 32)) ||| (x <<< (32 - n % 32))

/-- `pack_le(b0,b1,b2,b3) = b3 ++ b2 ++ b1 ++ b0` (R11). -/
def packLe (b0 b1 b2 b3 : Byte) : Word := b3 ++ b2 ++ b1 ++ b0

/-- `unpack_le(w) = (w[7:0], w[15:8], w[23:16], w[31:24])` (R11). -/
def unpackLe (w : Word) : List Byte :=
  [w.extractLsb 7 0, w.extractLsb 15 8, w.extractLsb 23 16, w.extractLsb 31 24]

/-- Byte `m` of a byte string, 0x00 beyond its end (R62 "K'[m] = 0 for n ≤ m"). -/
def byteAt (bs : List Byte) (m : Nat) : Byte := bs.getD m 0

/-- Word `i` of a byte string: `pack_le(b[4i], b[4i+1], b[4i+2], b[4i+3])` (R61, R62). -/
def wordAt (bs : List Byte) (i : Nat) : Word :=
  packLe (byteAt bs (4 * i)) (byteAt bs (4 * i + 1)) (byteAt bs (4 * i + 2)) (byteAt bs (4 * i + 3))

/-- The block built from 16 bytes (R61). -/
def blockOfBytes (bs : List Byte) : Block := ⟨wordAt bs 0, wordAt bs 1, wordAt bs 2, wordAt bs 3⟩

/-- The 16 bytes of a block, byte 0 the low byte of A (R61, R170). -/
def bytesOfBlock (x : Block) : List Byte := unpackLe x.a ++ unpackLe x.b ++ unpackLe x.c ++ unpackLe x.d

/-- The number a byte string stands for, its first byte the least significant. -/
def natOfBytes : List Byte → Nat
  | [] => 0
  | b :: bs => b.toNat + 256 * natOfBytes bs

/-- sink_data: byte m of the chunk is on bits [8m+7 : 8m] (R75). -/
def sinkBits (chunk : List Byte) : BitVec 128 := BitVec.ofNat 128 (natOfBytes chunk)

end Sys2Proof.Machine
end

