-- ==== Sys2Proof/Machine/Cipher.lean ====
section
/-! DEFINITION. RC6 as pure functions: the key schedule (spec/42_key_schedule.md R130, R132, R133, R134) and
the round transform (spec/43_round_transform.md R150, R151, R152). The engine's units make the same
steps one at a time. -/

namespace Sys2Proof.Machine

/-- `c = ceil(n/4)`, the number of key-words of an n-byte secret (R7, R130). -/
def keyWords (n : Nat) : Nat := (n + 3) / 4

/-- `t = 2r+4`, the number of words of a table for r rounds (R7). -/
def tableWords (r : Nat) : Nat := 2 * r + 4

/-- `v = 3·max(c, t)`, the number of mixing steps (R7, R133). -/
def mixSteps (c t : Nat) : Nat := 3 * max c t

/-- `KeyPack(K)`: the key-words L; their number is `keyWords K.length` (R130). -/
def keyPack (key : List Byte) : List Word := (List.range (keyWords key.length)).map (wordAt key)

/-- The words w, w+Q, w+2Q, ... -/
def keyRamp : Nat → Word → List Word
  | 0, _ => []
  | n + 1, w => w :: keyRamp n (add w Config.magicQ)

/-- `KeyInit(r)`: S[0] = P and S[i] = add(S[i-1], Q) (R132). -/
def keyInit (r : Nat) : List Word := keyRamp (tableWords r) Config.magicP

/-- What one mixing step changes: the table, the key-words, the accumulators and the indices (R133). -/
structure Mix where
  table : List Word
  l : List Word
  a : Word
  b : Word
  i : Nat
  j : Nat
  deriving DecidableEq, Repr

/-- The new A of a mixing step: `rotl(add(add(S[i], A), B), 3)` (R133). -/
def mixA (x : Mix) : Word := rotl (add (add (x.table.getD x.i 0) x.a) x.b) 3

/-- The new B of a mixing step, from the new A and the old B:
`rotl(add(add(L[j], A), B), add(A, B) mod 32)` (R133). -/
def mixB (x : Mix) (a : Word) : Word := rotl (add (add (x.l.getD x.j 0) a) x.b) ((add a x.b).toNat % 32)

/-- One mixing step on a table of t words and c key-words (R133). -/
def mixStep (t c : Nat) (x : Mix) : Mix :=
  { table := x.table.set x.i (mixA x)
    l := x.l.set x.j (mixB x (mixA x))
    a := mixA x
    b := mixB x (mixA x)
    i := (x.i + 1) % t
    j := (x.j + 1) % c }

/-- `n` mixing steps. -/
def mixTimes (t c : Nat) : Nat → Mix → Mix
  | 0, x => x
  | n + 1, x => mixTimes t c n (mixStep t c x)

/-- Where mixing starts: A = B = i = j = 0 (R133). -/
def mixStart (table l : List Word) : Mix := ⟨table, l, 0, 0, 0, 0⟩

/-- `KeyMix(S, L, c, r)` with c the length of L (R133). -/
def keyMix (table l : List Word) (r : Nat) : List Word :=
  (mixTimes (tableWords r) l.length (mixSteps l.length (tableWords r)) (mixStart table l)).table

/-- `KeySchedule(K, r) = KeyMix(KeyInit(r), L, c, r)` (R134). -/
def keySchedule (key : List Byte) (r : Nat) : List Word := keyMix (keyInit r) (keyPack key) r

/-- `f(x) = rotl(mul(x, add(mul(x, 2), 1)), 5)` (R150). -/
def quad (x : Word) : Word := rotl (mul x (add (mul x 2) 1)) 5

/-- S[k]. -/
def roundKey (table : List Word) (k : Nat) : Word := table.getD k 0

/-- The first whitening of encryption (R151). -/
def encWhiten (table : List Word) (x : Block) : Block :=
  { x with b := add x.b (roundKey table 0), d := add x.d (roundKey table 1) }

/-- Round i of encryption (R151). -/
def encRound (table : List Word) (i : Nat) (x : Block) : Block :=
  let t1 := quad x.b
  let u1 := quad x.d
  let a := add (rotl (xor x.a t1) (u1.toNat % 32)) (roundKey table (2 * i))
  let c := add (rotl (xor x.c u1) (t1.toNat % 32)) (roundKey table (2 * i + 1))
  ⟨x.b, c, x.d, a⟩

/-- Rounds i, i+1, ..., i+n-1 of encryption. -/
def encRounds (table : List Word) : Nat → Nat → Block → Block
  | 0, _, x => x
  | n + 1, i, x => encRounds table n (i + 1) (encRound table i x)

/-- The last whitening of encryption (R151). -/
def encFinal (table : List Word) (r : Nat) (x : Block) : Block :=
  { x with a := add x.a (roundKey table (2 * r + 2)), c := add x.c (roundKey table (2 * r + 3)) }

/-- `RC6Enc(S, r, (A, B, C, D))` (R151). -/
def rc6Enc (table : List Word) (r : Nat) (x : Block) : Block :=
  encFinal table r (encRounds table r 1 (encWhiten table x))

/-- Undoing the last whitening (R152). -/
def decWhiten (table : List Word) (r : Nat) (x : Block) : Block :=
  { x with c := sub x.c (roundKey table (2 * r + 3)), a := sub x.a (roundKey table (2 * r + 2)) }

/-- Undoing the role rotation: (A, B, C, D) = (D, A, B, C) (R152). -/
def unrotate (x : Block) : Block := ⟨x.d, x.a, x.b, x.c⟩

/-- Round i of decryption (R152). -/
def decRound (table : List Word) (i : Nat) (x : Block) : Block :=
  let y := unrotate x
  let u1 := quad y.d
  let t1 := quad y.b
  let c := xor (rotr (sub y.c (roundKey table (2 * i + 1))) (t1.toNat % 32)) u1
  let a := xor (rotr (sub y.a (roundKey table (2 * i))) (u1.toNat % 32)) t1
  { y with a := a, c := c }

/-- Rounds i, i-1, ..., 1 of decryption. -/
def decRounds (table : List Word) : Nat → Block → Block
  | 0, x => x
  | i + 1, x => decRounds table i (decRound table (i + 1) x)

/-- Undoing the first whitening (R152). -/
def decFinal (table : List Word) (x : Block) : Block :=
  { x with d := sub x.d (roundKey table 1), b := sub x.b (roundKey table 0) }

/-- `RC6Dec(S, r, (A, B, C, D))` (R152). -/
def rc6Dec (table : List Word) (r : Nat) (x : Block) : Block :=
  decFinal table (decRounds table r (decWhiten table r x))

/-- The transform of a command with direction bit D: 0 encrypts, 1 decrypts (R91, R170). -/
def transform (decrypt : Bool) (table : List Word) (r : Nat) (x : Block) : Block :=
  if decrypt then rc6Dec table r x else rc6Enc table r x

end Sys2Proof.Machine
end

