-- ==== Sys2Proof/Syntax.lean ====
section
/-! DEFINITION. The command set (spec/30_encoding.md R94, spec/opcode_table.json): one constructor for
each of the eleven rows. No command has an operand field (R92): every operand is a register, latched
when the command is accepted. -/

namespace Sys2Proof

/-- The eleven commands of rule R94. A command plays the role an instruction plays in a processor. -/
inductive Instr where
  /-- OP 0x01: expand the secret into the round-key table (R131). -/
  | expand
  /-- OP 0x02: encrypt DIN0..3 into DOUT0..3 (R154). -/
  | encblk
  /-- OP 0x03: decrypt DIN0..3 into DOUT0..3 (R155). -/
  | decblk
  /-- OP 0x10: encrypt the buffer at SRC into the buffer at DST (R171). -/
  | enc
  /-- OP 0x11: decrypt the buffer at SRC into the buffer at DST (R172). -/
  | dec
  /-- OP 0x12: encrypt the buffer at SRC in place (R173). -/
  | enci
  /-- OP 0x13: decrypt the buffer at SRC in place (R174). -/
  | deci
  /-- OP 0x14: encrypt the buffer at SRC to the sink, writing no memory (R175). -/
  | encs
  /-- OP 0x15: decrypt the buffer at SRC to the sink, writing no memory (R176). -/
  | decs
  /-- OP 0x16: encrypt the buffer at SRC in place and stream each block (R177). -/
  | encis
  /-- OP 0x17: decrypt the buffer at SRC in place and stream each block (R178). -/
  | decis
  deriving DecidableEq, Repr

end Sys2Proof
end

