-- ==== Sys2Proof/WellFormed.lean ====
section
/-! DEFINITION. What is well formed: a command, a command word (spec/30_encoding.md R95) and a choice of the
implementation parameters (spec/00_scope.md R8). -/

namespace Sys2Proof

/-- Every command is well formed: "No command has an immediate field" (R92), so there is nothing to check
in one. What can be ill formed is the word that should encode it, `legalWord`. -/
def Instr.wellFormed (_ : Instr) : Bool := true

/-- The legal opcodes, the table of R94. -/
def legalOpcodes : List (BitVec 8) :=
  [0x01#8, 0x02#8, 0x03#8, 0x10#8, 0x11#8, 0x12#8, 0x13#8, 0x14#8, 0x15#8, 0x16#8, 0x17#8]

/-- A command word is legal when W[31:8] = 0 and W[7:0] is in the table of R94 (R95). -/
def legalWord (w : Word) : Bool :=
  w.extractLsb 31 8 == 0#24 && legalOpcodes.contains (w.extractLsb 7 0)

/-- The parameters an implementation may have (R8): R_MAX fits PARAM[7:0] and KEY_MAX_BYTES fits PARAM[23:8]
(R25), and an address fits the 32-bit KEYADDR, SRC, DST and ERRINFO. The spec gives no bounds of its own
(DEDUCED, notes/assumptions/5.md). -/
def Params.wellFormed (p : Params) : Bool :=
  decide (1 ≤ p.rMax) && decide (p.rMax ≤ 255)
    && decide (1 ≤ p.keyMaxBytes) && decide (p.keyMaxBytes < 65536)
    && decide (p.addrW ≤ 32)

/-- T_MAX = 2·R_MAX+4, the size of the round-key storage in words (R8). -/
def Params.tMax (p : Params) : Nat := 2 * p.rMax + 4

end Sys2Proof
end

