-- ==== Sys2Proof/Decode.lean ====
section
/-! DEFINITION. Command words: the decoder of spec/30_encoding.md R96, total on all 2^32 words, and the
encoder of R91 and R94. -/

namespace Sys2Proof

/-- Why a word is illegal (R95). -/
inductive IllegalWord where
  /-- W[31:8] ≠ 0. -/
  | rsvNotZero
  /-- W[31:8] = 0 and W[7:0] is not in the table of R94. -/
  | reservedOpcode (op : BitVec 8)
  deriving DecidableEq, Repr

/-- BLOCK(D) of R96. -/
def blockCommand (d : Bool) : Instr :=
  if d then .decblk else .encblk

/-- BUFFER(S, I, D) of R96, with the modes of R91. -/
def bufferCommand (s i d : Bool) : Instr :=
  match s, i, d with
  | false, false, false => .enc
  | false, false, true => .dec
  | false, true, false => .enci
  | false, true, true => .deci
  | true, false, false => .encs
  | true, false, true => .decs
  | true, true, false => .encis
  | true, true, true => .decis

/-- The opcode field OP = W[7:0] (R91). -/
def opField (w : Word) : BitVec 8 := w.extractLsb 7 0

/-- The reserved field RSV = W[31:8] (R91). -/
def rsvField (w : Word) : BitVec 24 := w.extractLsb 31 8

/-- The decoder of R96. -/
def decode (w : Word) : Except IllegalWord Instr :=
  if rsvField w ≠ 0 then .error .rsvNotZero
  else if opField w = 0x01#8 then .ok .expand
  else if opField w = 0x02#8 ∨ opField w = 0x03#8 then .ok (blockCommand (w.getLsbD 0))
  else if 0x10#8 ≤ opField w ∧ opField w ≤ 0x17#8 then
    .ok (bufferCommand (w.getLsbD 2) (w.getLsbD 1) (w.getLsbD 0))
  else .error (.reservedOpcode (opField w))

/-- One bit of an opcode. -/
def flagBit (b : Bool) : BitVec 1 := BitVec.ofBool b

/-- The opcode of a buffer command: OP[7:3] = 0b00010, then S, I and D (R91). -/
def bufferOpcode (s i d : Bool) : BitVec 8 := 0b00010#5 ++ flagBit s ++ flagBit i ++ flagBit d

/-- The opcode of a block command: OP[7:1] = 0b0000001, then D (R91). -/
def blockOpcode (d : Bool) : BitVec 8 := 0b0000001#7 ++ flagBit d

/-- The opcode of a command (R91). -/
def opcode : Instr → BitVec 8
  | .expand => 0x01#8
  | .encblk => blockOpcode false
  | .decblk => blockOpcode true
  | .enc => bufferOpcode false false false
  | .dec => bufferOpcode false false true
  | .enci => bufferOpcode false true false
  | .deci => bufferOpcode false true true
  | .encs => bufferOpcode true false false
  | .decs => bufferOpcode true false true
  | .encis => bufferOpcode true true false
  | .decis => bufferOpcode true true true

/-- The command word of a command: RSV = 0 above OP (R91). -/
def encode (i : Instr) : Word := 0#24 ++ opcode i

/-- The command the decoder reads from a table word: the one 32-bit word of R90, bit 0 its least
significant bit, with every bit from `nbits` up equal to 0. -/
def decodeTableWord (nbits w : Nat) : Option Instr :=
  match decode (BitVec.ofNat 32 (w % 2 ^ nbits)) with
  | .ok i => some i
  | .error _ => none

end Sys2Proof
end

