-- ==== Sys2Proof/Machine/Memory.lean ====
section
/-! DEFINITION. The memory space (spec/20_memory.md R60, item 2): bytes by address, held as a list of cells
in one canonical form. Every access is one byte wide (R63). The bound 2^ADDR_W and the error responses
of the memory port are in Ops.lean. -/

namespace Sys2Proof.Machine

/-- Memory: addresses strictly rising, and no cell equal to what an unlisted address reads as. -/
abbrev Memory := List Host.Cell

/-- What an address with no cell reads as. DESIGN CHOICE, unsafe: the spec gives memory no power-on contents
(notes/assumptions/6.md). -/
def Memory.unlisted : Byte := 0#8

/-- The canonical form. -/
def Memory.wf (m : Memory) : Bool :=
  decide (m.Pairwise fun x y => x.1 < y.1) && m.all fun c => c.2 != Memory.unlisted

/-- The byte at an address. -/
def Memory.read : Memory → Nat → Byte
  | [], _ => Memory.unlisted
  | (a, b) :: rest, x => if x = a then b else Memory.read rest x

/-- Put a byte at an address, keeping the canonical form. -/
def Memory.write : Memory → Nat → Byte → Memory
  | [], x, v => if v = Memory.unlisted then [] else [(x, v)]
  | (a, b) :: rest, x, v =>
    if x < a then
      if v = Memory.unlisted then (a, b) :: rest else (x, v) :: (a, b) :: rest
    else if x = a then
      if v = Memory.unlisted then rest else (a, v) :: rest
    else (a, b) :: Memory.write rest x v

/-- Put bytes at ascending addresses, one at a time (R64). -/
def Memory.writeBytes (m : Memory) (x : Nat) : List Byte → Memory
  | [] => m
  | v :: vs => Memory.writeBytes (Memory.write m x v) (x + 1) vs

/-- The `n` bytes at ascending addresses from `x`. -/
def Memory.readBytes (m : Memory) (x n : Nat) : List Byte :=
  (List.range n).map fun k => Memory.read m (x + k)

end Sys2Proof.Machine
end

