-- ==== Sys2Proof/Machine/State.lean ====
section
/-! DEFINITION. The state of the RC6 cipher core and of what surrounds it: the host-visible registers
(spec/10_state.md R23 to R40), the round-key table (R45), the hidden registers (R50 to R53), the sink
port (R75), the memory space (R60), and the outside world's coming actions as plain data. -/

namespace Sys2Proof.Machine

/-- Where the engine stands in the running command (R21 "The sequencing position inside a running command is
hidden state"). `check` to `commit` are the EXPAND phases of R51; `check` is every command's. -/
inductive Phase where
  /-- No command runs. -/
  | idle
  /-- The command's checks of R215 come next. -/
  | check
  /-- EXPAND reads its next key byte (R131). -/
  | fetch
  /-- EXPAND gives up the old table and initialises the new one (R131, R132). -/
  | init
  /-- EXPAND makes its next mixing step (R133). -/
  | mix
  /-- EXPAND commits the new table (R135). -/
  | commit
  /-- A buffer command reads its next source byte (R170). -/
  | read
  /-- The RTE takes its block and makes the first whitening (R151, R152). -/
  | whiten
  /-- The RTE makes its next round (R151, R152). -/
  | round
  /-- The RTE makes the last whitening and delivers its block (R151, R152). -/
  | deliver
  /-- A buffer command writes its next result byte (R170). -/
  | write
  /-- A stream command raises sink_valid with its chunk (R75). -/
  | offer
  /-- A chunk is offered and not yet accepted: the sink holding state of R53. -/
  | hold
  /-- Everything is done but the completion itself (R213). -/
  | finish
  deriving DecidableEq, Repr, Inhabited

/-- The values of STATUS.ERRCODE (R202). "No other value is ever written". -/
inductive ErrCode where
  /-- 0: no error. -/
  | noError
  /-- 1: E_INVALID_KEY (R203). -/
  | invalidKey
  /-- 2: E_INVALID_LENGTH (R204). -/
  | invalidLength
  /-- 3: E_KEY_TOO_LONG (R205). -/
  | keyTooLong
  /-- 4: E_ROUNDS (R206). -/
  | rounds
  /-- 5: E_NO_KEY (R207). -/
  | noKey
  /-- 6: E_RANGE (R208). -/
  | range
  /-- 7: E_OVERLAP (R209). -/
  | overlap
  /-- 8: E_BUS (R210). -/
  | bus
  /-- 9: E_BADCMD (R211). -/
  | badcmd
  deriving DecidableEq, Repr, Inhabited

/-- The fields of STATUS (R27). Its reserved bits hold nothing: they read 0. -/
structure Status where
  busy : Bool
  done : Bool
  err : Bool
  keyvalid : Bool
  cmdlost : Bool
  errcode : ErrCode
  deriving DecidableEq, Repr, Inhabited

/-- The registers of the aperture (R23), by name. -/
inductive Reg where
  | id | param | ctrl | status | cmd | errinfo | rounds | rlatch
  | keyaddr | keylen | src | dst | len | blkdone
  | din0 | din1 | din2 | din3
  | dout0 | dout1 | dout2 | dout3
  /-- STAB[k], the table readout window (R40). -/
  | stab (k : Nat)
  /-- A reserved offset (R41). -/
  | reserved
  deriving DecidableEq, Repr

/-- One event on the memory port or on the sink port, in the order they happen (R64, R76). -/
inductive PortEvent where
  /-- `MemRead(addr, 1)` with the memory's answer; `none` is an error response (R11). -/
  | read (addr : Nat) (answer : Option Byte)
  /-- `MemWrite(addr, 1, data)`; `ok = false` is an error response (R11). -/
  | write (addr : Nat) (data : Byte) (ok : Bool)
  /-- The sink accepted a chunk (R75 "A model records each accepted chunk as one sink event, in order"). -/
  | emit (chunk : List Byte)
  deriving DecidableEq, Repr

/-- A range of memory addresses whose accesses the memory answers with an error response (R210, D31). -/
structure ErrorRegion where
  base : Nat
  size : Nat
  onRead : Bool
  onWrite : Bool
  deriving DecidableEq, Repr

/-- What the outside world does next: the host (R20), other bus masters, the sink, the platform's memory,
and rst. An access is a bus address, the four byte lanes it uses, and for a write its data (R42). -/
inductive Event where
  /-- The host writes on the register port. -/
  | regWrite (addr : Nat) (lanes : BitVec 4) (data : Word)
  /-- The host reads on the register port. -/
  | regRead (addr : Nat) (lanes : BitVec 4)
  /-- An agent other than the engine writes one byte of memory (R60, R74). -/
  | memWrite (addr : Nat) (data : Byte)
  /-- An agent other than the engine reads one byte of memory (R60, R73, R74). -/
  | memRead (addr : Nat)
  /-- The sink drives sink_ready (R75). -/
  | sinkReady (level : Bool)
  /-- The platform's memory changes which accesses it answers with an error (R210). -/
  | busErrors (regions : List ErrorRegion)
  /-- From now on the engine makes `steps` of its steps between two events; `none`: all it can (R249). -/
  | pace (steps : Option Nat)
  /-- The reset input is driven (R240). -/
  | rst (level : Bool)
  deriving DecidableEq, Repr

/-- Why the machine stops. -/
inductive Fault where
  /-- An access to a memory address outside the 2^ADDR_W bytes of R60. Raised by a memory access of another
  agent (Event.memRead, Event.memWrite), and by the engine's own port in a state no run reaches: the checks of R208 keep
  every engine access inside. Safe: the spec gives such an access no effect. -/
  | outsideMemory (addr : Nat)
  deriving DecidableEq, Repr

/-- Why the machine gives no meaning. -/
inductive Refusal where
  /-- The instruction has no meaning yet. Raised by no arm of this model. Safe. -/
  | notModelled (mnemonic : String)
  deriving DecidableEq, Repr

/-- MODEL. What the races of R74 need to know of the running command: what its ranges held at acceptance, where
its own events begin, and what other agents have written to its ranges since. -/
structure Span where
  /-- Memory when the command was accepted. -/
  before : Memory
  /-- How many events there were then: the command's own events are the ones after them. -/
  begun : Nat
  /-- The bytes other agents have written to the command's ranges since, newest first. -/
  hostWrites : List Host.Cell
  deriving DecidableEq, Repr, Inhabited

/-- No command runs. -/
def Span.none : Span := ⟨[], 0, []⟩

/-- The whole machine. Fields marked MODEL are the model's own, not the spec's (INVENTORY.md, State). -/
structure State where
  /-- The implementation parameters (R8); no step changes them. -/
  params : Params
  /-- The level of the reset input rst (R240). -/
  rst : Bool
  /-- CTRL.IE (R26). -/
  ie : Bool
  /-- STATUS (R27). -/
  status : Status
  /-- ERRINFO (R29). -/
  errinfo : Word
  /-- ROUNDS (R30). -/
  rounds : Word
  /-- RLATCH as stored; it reads 0 while KEYVALID = 0 (R31). -/
  rlatch : Word
  /-- KEYADDR (R32). -/
  keyaddr : Word
  /-- KEYLEN (R33). -/
  keylen : Word
  /-- SRC (R34). -/
  src : Word
  /-- DST (R35). -/
  dst : Word
  /-- LEN (R36). -/
  len : Word
  /-- BLKDONE (R37). -/
  blkdone : Word
  /-- DIN0 to DIN3 as (A, B, C, D) (R38). -/
  din : Block
  /-- DOUT0 to DOUT3 as (A, B, C, D) (R39). -/
  dout : Block
  /-- The round-key table storage S[0..T_MAX-1] (R45). -/
  table : List Word
  /-- The engine's position (R21, R51). -/
  phase : Phase
  /-- The hidden registers (R50 to R53). -/
  hidden : Hidden
  /-- The chunk on offer: `some` is sink_valid = 1 with these 16 bytes on sink_data (R75). -/
  sinkOut : Option (List Byte)
  /-- The level of the input sink_ready (R75). -/
  sinkReady : Bool
  /-- The memory space (R60). -/
  mem : Memory
  /-- The accesses the platform's memory answers with an error (R210). -/
  errRegions : List ErrorRegion
  /-- MODEL. The memory and sink events so far, oldest first (R64, R75). -/
  events : List PortEvent
  /-- MODEL. What the last read on the register port (R42), or of a memory byte by an agent other than the
  engine (R74), returned; a byte stands in bits 7:0. -/
  readData : Word
  /-- MODEL. What the outside world does next, first first. -/
  inbox : List Event
  /-- MODEL. How many engine steps pass between two outside events; `none`: all the engine can make. -/
  pace : Option Nat
  /-- MODEL. The running command's part in the races of R74 (notes/assumptions/23.md). -/
  span : Span
  /-- MODEL. The counter of the free values Config.freeHidden, Config.freeTableWord and Config.freePick. -/
  freeIdx : Nat
  deriving DecidableEq, Repr

/-- Zero in every hidden register. The spec gives them no reset value (R241): DESIGN CHOICE
(notes/assumptions/2.md). -/
def Hidden.zero : Hidden where
  lk := ⟨0, 0, 0, 0, 0, 0, 0, ⟨0, 0, 0, 0⟩⟩
  kse := ⟨[], [], 0, 0, 0, 0, 0⟩
  rte := ⟨⟨0, 0, 0, 0⟩, 0, 0, 0⟩
  bsp := ⟨0, 0, [], []⟩

/-- STATUS after reset (R241). -/
def Status.reset : Status := ⟨false, false, false, false, false, .noError⟩

/-- The machine right after reset, with the default parameters (R241). The table and the hidden registers
have no reset value in the spec and hold zero here (DESIGN CHOICE, notes/assumptions/2.md). -/
def State.reset : State where
  params := {}
  rst := false
  ie := false
  status := Status.reset
  errinfo := 0
  rounds := Config.defaultRounds
  rlatch := 0
  keyaddr := 0
  keylen := 0
  src := 0
  dst := 0
  len := 0
  blkdone := 0
  din := ⟨0, 0, 0, 0⟩
  dout := ⟨0, 0, 0, 0⟩
  table := List.replicate 514 0
  phase := .idle
  hidden := Hidden.zero
  sinkOut := none
  sinkReady := true
  mem := []
  errRegions := []
  events := []
  readData := 0
  inbox := []
  pace := none
  span := Span.none
  freeIdx := 0

end Sys2Proof.Machine
end

