-- ==== Sys2Proof/Machine/Flags.lean ====
section
/-! DEFINITION. The flags: STATUS, CTRL and PARAM as words (spec/10_state.md R25, R26, R27), what a write to
STATUS clears, the error codes as numbers (spec/60_exceptions.md R202), and the outputs irq and
sink_valid/sink_data. No arithmetic sets a flag (R56, R116). -/

namespace Sys2Proof.Machine

/-- The number of an error code (R202). -/
def ErrCode.toByte : ErrCode → Byte
  | .noError => 0#8
  | .invalidKey => 1#8
  | .invalidLength => 2#8
  | .keyTooLong => 3#8
  | .rounds => 4#8
  | .noKey => 5#8
  | .range => 6#8
  | .overlap => 7#8
  | .bus => 8#8
  | .badcmd => 9#8

/-- STATUS as read: ERRCODE in bits 15:8, CMDLOST, KEYVALID, ERR, DONE and BUSY in bits 4 to 0, every
reserved bit 0 (R27). -/
def Status.toWord (x : Status) : Word :=
  0#16 ++ x.errcode.toByte ++ 0#3 ++ BitVec.ofBool x.cmdlost ++ BitVec.ofBool x.keyvalid
    ++ BitVec.ofBool x.err ++ BitVec.ofBool x.done ++ BitVec.ofBool x.busy

/-- A write v to STATUS: v[1] = 1 clears DONE, v[4] = 1 clears CMDLOST, "Every other bit of v is ignored"
(R27). -/
def Status.written (v : Word) (x : Status) : Status :=
  { x with done := x.done && !v.getLsbD 1, cmdlost := x.cmdlost && !v.getLsbD 4 }

/-- STATUS once a command is accepted (R200). -/
def Status.accepted (x : Status) : Status :=
  { x with busy := true, done := false, err := false, errcode := .noError }

/-- STATUS once a command has completed without error (R213). -/
def Status.succeeded (x : Status) : Status :=
  { x with busy := false, done := true, err := false, errcode := .noError }

/-- STATUS once a command has ended with an error (R212). -/
def Status.failed (code : ErrCode) (x : Status) : Status :=
  { x with busy := false, done := true, err := true, errcode := code }

/-- CTRL as read: IE in bit 0, bits 31:1 reserved (R26). -/
def ctrlWord (ie : Bool) : Word := 0#31 ++ BitVec.ofBool ie

/-- PARAM as read: RMAX in 7:0, KEYMAX in 23:8, 31:24 reserved (R25). -/
def paramWord (p : Params) : Word := 0#8 ++ BitVec.ofNat 16 p.keyMaxBytes ++ BitVec.ofNat 8 p.rMax

/-- The interrupt output: irq = CTRL.IE ∧ STATUS.DONE (R54, R217). -/
def State.irq (s : State) : Bool := s.ie && s.status.done

/-- The output sink_valid (R75). -/
def State.sinkValid (s : State) : Bool := s.sinkOut.isSome

/-- The output sink_data while sink_valid = 1 (R75). -/
def State.sinkData (s : State) : Option (BitVec 128) := s.sinkOut.map sinkBits

/-- The chunks the sink has accepted, in order (R75). -/
def State.sunk (s : State) : List (List Byte) :=
  s.events.filterMap fun
    | .emit chunk => some chunk
    | _ => none

end Sys2Proof.Machine
end

