-- ==== Sys2Proof/Machine/Operands.lean ====
section
/-! DEFINITION. The operands of the commands (spec/30_encoding.md R92, R93): what is latched at acceptance
(spec/60_exceptions.md R200), and how the running command reads its latched copies. -/

namespace Sys2Proof.Machine

/-- The copies made at acceptance of the command word w (R44, R200). -/
def State.latches (w : Word) (s : State) : Latches :=
  { cmd := w, rounds := s.rounds, keyaddr := s.keyaddr, keylen := s.keylen
    src := s.src, dst := s.dst, len := s.len, din := s.din }

/-- Dir = OP[0]: true decrypts (R91, R170). -/
def Latches.decrypts (lk : Latches) : Bool := lk.cmd.getLsbD 0

/-- Inpl = OP[1]: true writes the result over the source (R91, R170). -/
def Latches.inPlace (lk : Latches) : Bool := lk.cmd.getLsbD 1

/-- Strm = OP[2]: true emits every block on the sink port (R91, R170). -/
def Latches.streams (lk : Latches) : Bool := lk.cmd.getLsbD 2

/-- A buffer command has OP[7:3] = 0b00010 (R91). -/
def Latches.isBuffer (lk : Latches) : Bool := lk.cmd.extractLsb 7 3 == 0b00010#5

/-- EXPAND has OP = 0x01 (R91, R94). -/
def Latches.isExpand (lk : Latches) : Bool := lk.cmd.extractLsb 7 0 == 0x01#8

/-- `writes = (Inpl = 1) or (Strm = 0)` (R170). -/
def Latches.writesMem (lk : Latches) : Bool := lk.inPlace || !lk.streams

/-- `out = if Inpl = 1 then src else dst` (R170), as a byte address. -/
def Latches.outAddr (lk : Latches) : Nat := if lk.inPlace then lk.src.toNat else lk.dst.toNat

/-- The number of blocks, len/16 (R170). -/
def Latches.blocks (lk : Latches) : Nat := lk.len.toNat / Config.blockBytes

/-- r of an EXPAND (R131). -/
def Latches.r (lk : Latches) : Nat := lk.rounds.toNat

/-- r of a transform: RLATCH, never ROUNDS (R31). -/
def State.r (s : State) : Nat := s.rlatch.toNat

/-- The block the RTE takes: DIN's latched copy for ENCBLK and DECBLK, and the 16 bytes read for a buffer
command (R93). -/
def State.blockOperand (s : State) : Block :=
  if s.hidden.lk.isBuffer then blockOfBytes s.hidden.bsp.inp else s.hidden.lk.din

/-- The range [a, a+n) lies inside the memory space: a + n ≤ 2^ADDR_W, "with the sum computed without
truncation" (R67, R208). It is the same for an empty range: R180's "A zero-length range is always legal" follows
from it with ADDR_W = 32, and below that R67 decides (DEDUCED, notes/assumptions/21.md). -/
def rangeLegal (p : Params) (a n : Word) : Bool :=
  decide (a.toNat + n.toNat ≤ 2 ^ p.addrW)

/-- The byte x lies in the range [a, a+n). -/
def inRange (x a n : Nat) : Bool := decide (a ≤ x) && decide (x < a + n)

/-- The byte lies in a range the command reads: the key range of an EXPAND, the source range of a buffer
command (R64, R74). -/
def Latches.reads (x : Nat) (lk : Latches) : Bool :=
  (lk.isExpand && inRange x lk.keyaddr.toNat lk.keylen.toNat)
    || (lk.isBuffer && inRange x lk.src.toNat lk.len.toNat)

/-- The byte lies in the range the command writes: the destination of a copy, the source of an in-place
command (R64, R74). -/
def Latches.targets (x : Nat) (lk : Latches) : Bool :=
  lk.isBuffer && lk.writesMem && inRange x lk.outAddr lk.len.toNat

/-- "While BUSY = 1, the key range of an EXPAND and the source and destination ranges of a buffer command belong
to the engine" (R74). -/
def State.ownsByte (x : Nat) (s : State) : Bool :=
  s.status.busy && (s.hidden.lk.reads x || s.hidden.lk.targets x)

/-- A destination byte of the running command (R74). -/
def State.targetsByte (x : Nat) (s : State) : Bool := s.status.busy && s.hidden.lk.targets x

/-- The ranges [a, a+n) and [b, b+n) share a byte (R209). -/
def rangesOverlap (a b n : Word) : Bool :=
  decide (0 < n.toNat) && decide (a.toNat < b.toNat + n.toNat) && decide (b.toNat < a.toNat + n.toNat)

/-- The length is a whole number of blocks (R204). -/
def wholeBlocks (n : Word) : Bool := decide (n.toNat % Config.blockBytes = 0)

end Sys2Proof.Machine
end

