-- ==== Sys2Proof/Machine/Ops.lean ====
section
/-! DEFINITION. The operations every unit shares: the memory port (spec/00_scope.md R11, spec/20_memory.md R63
to R67), completion with and without an error (spec/60_exceptions.md R212, R213), acceptance and its
refusal while busy (R200, R201), the host's "return" (R219, in Flags.lean's Status.written), and the
finish of a block (spec/10_state.md R37). -/

namespace Sys2Proof.Machine

/-- What one step of anything answers. -/
abbrev Result := Host.Outcome State Fault Refusal

/-- Go on with `k` from a next state; a fault or a refusal stays. -/
def Result.andThen (x : Result) (k : State → Result) : Result :=
  match x with
  | .next s => k s
  | .fault f => .fault f
  | .refused q => .refused q

/-- The hidden registers of a machine whose command has ended: unspecified (R53), so a fresh free value. Its
ranges are its own no longer, and its writes are complete (R73). -/
def State.release (s : State) : State :=
  { s with
    phase := .idle, hidden := Config.freeHidden s.freeIdx, span := Span.none, freeIdx := s.freeIdx + 1 }

/-- `raise Error(code, info)` (R212): the block's only trap entry. ERRCODE and ERRINFO take the code and the
information word, ERR and DONE are set and BUSY is cleared; "It saves no return address and changes no
mode or mask, and it does not vector anywhere". -/
def State.raiseError (code : ErrCode) (info : Word) (s : State) : State :=
  { s.release with status := s.status.failed code, errinfo := info }

/-- `complete successfully` (R213). -/
def State.complete (s : State) : State :=
  { s.release with status := s.status.succeeded, errinfo := 0 }

/-- Acceptance of the command word w (R200), up to the decoding. -/
def State.accept (w : Word) (s : State) : State :=
  { s with
    hidden := { s.hidden with lk := s.latches w }
    status := s.status.accepted
    errinfo := 0
    blkdone := 0
    phase := .check
    span := ⟨s.mem, s.events.length, []⟩ }

/-- A CMD write that arrives while BUSY = 1 is dropped: CMDLOST is set and nothing else changes (R201). -/
def State.dropCommand (s : State) : State := { s with status := { s.status with cmdlost := true } }

/-- A CMD write with value w (R28, R200, R201). An illegal word completes at once with E_BADCMD and the whole
word in ERRINFO (R211). -/
def State.writeCmd (w : Word) (s : State) : State :=
  if s.status.busy then s.dropCommand
  else
    match decode w with
    | .ok _ => s.accept w
    | .error _ => (s.accept w).raiseError .badcmd w

/-- Record one event of the memory port or of the sink port. -/
def State.note (e : PortEvent) (s : State) : State := { s with events := s.events ++ [e] }

/-- Which kind of access the memory port makes. -/
inductive Access where
  | read
  | write
  deriving DecidableEq, Repr

/-- The region answers this access with an error response. -/
def ErrorRegion.hits (kind : Access) (addr : Nat) (g : ErrorRegion) : Bool :=
  decide (g.base ≤ addr) && decide (addr < g.base + g.size)
    && match kind with
      | .read => g.onRead
      | .write => g.onWrite

/-- The memory answers this access with an error response. With BUS_ERR = never it answers none so (R210). -/
def State.answersError (kind : Access) (addr : Nat) (s : State) : Bool :=
  s.params.busErr && s.errRegions.any (ErrorRegion.hits kind addr)

/-- A byte address of the memory space: addr < 2^ADDR_W (R11, R60). -/
def State.inMemory (addr : Nat) (s : State) : Bool := decide (addr < 2 ^ s.params.addrW)

/-! Races (R74). -/

/-- The bytes that other agents have written at this address of the running command's ranges since
acceptance, newest first. -/
def State.hostBytes (addr : Nat) (s : State) : List Byte :=
  (s.span.hostWrites.filter fun c => c.1 == addr).map Prod.snd

/-- The bytes the running command has written at this address. -/
def State.engineBytes (addr : Nat) (s : State) : List Byte :=
  (s.events.drop s.span.begun).filterMap fun
    | .write a b ok => if ok && a == addr then some b else none
    | _ => none

/-- One of these bytes, by a free number. -/
def pickByte (n : Nat) (bs : List Byte) : Byte := byteAt bs (n % bs.length)

/-- Go on with one of these bytes, the free value of this access (notes/assumptions/23.md). -/
def State.anyOf (bs : List Byte) (k : Byte → State → State) (s : State) : State :=
  k (pickByte (Config.freePick s.freeIdx) bs) { s with freeIdx := s.freeIdx + 1 }

/-- What a read of a byte sees that has been written so since acceptance: one of these, or the byte before them
("either the old or the new value", R74). With none it is the byte in memory. -/
def State.seeByte (written : List Byte) (addr : Nat) (k : Byte → State → State) (s : State) : State :=
  match written with
  | [] => k (s.mem.read addr) s
  | b :: bs => s.anyOf (b :: bs ++ [s.span.before.read addr]) k

/-- A write of a byte for which other agents' bytes contend: it "may be overwritten or may overwrite" theirs
(R74). With none it is the byte in memory from now on. -/
def State.putByte (rivals : List Byte) (addr : Nat) (v : Byte) (s : State) : State :=
  match rivals with
  | [] => { s with mem := s.mem.write addr v }
  | b :: bs => s.anyOf (v :: b :: bs) fun x t => { t with mem := t.mem.write addr x }

/-! The engine's accesses. -/

/-- `MemRead(addr, 1)`, then `k` with the byte; an error response is `raise Error(E_BUS, addr)` (R11, R210). A
byte that another agent has written since acceptance is a race (R74). -/
def State.memRead (addr : Nat) (k : Byte → State → State) (s : State) : Result :=
  if !s.inMemory addr then .fault (.outsideMemory addr)
  else if s.answersError .read addr then
    .next ((s.note (.read addr none)).raiseError .bus (BitVec.ofNat 32 addr))
  else .next (s.seeByte (s.hostBytes addr) addr fun b t => k b (t.note (.read addr (some b))))

/-- `MemWrite(addr, 1, v)`, then `k`; an error response is `raise Error(E_BUS, addr)` (R11, R210). The last byte
another agent has written there since acceptance contends with it (R74). -/
def State.memWrite (addr : Nat) (v : Byte) (k : State → State) (s : State) : Result :=
  if !s.inMemory addr then .fault (.outsideMemory addr)
  else if s.answersError .write addr then
    .next ((s.note (.write addr v false)).raiseError .bus (BitVec.ofNat 32 addr))
  else .next (k ((s.putByte ((s.hostBytes addr).take 1) addr v).note (.write addr v true)))

/-! The accesses of other agents, at the moment they are complete at the memory (R72). -/

/-- Another agent's write. To a byte that belongs to the engine it is a race: the running command's byte there
contends with it, and the command's own accesses to come will (R74). -/
def State.hostWrite (addr : Nat) (v : Byte) (s : State) : State :=
  if s.ownsByte addr then
    let t := s.putByte (s.engineBytes addr) addr v
    { t with span := { t.span with hostWrites := (addr, v) :: t.span.hostWrites } }
  else { s with mem := s.mem.write addr v }

/-- Another agent's read. A destination byte "may return either the old or the new value" until the command has
ended (R73, R74), whatever BLKDONE says (R77). -/
def State.hostRead (addr : Nat) (s : State) : State :=
  s.seeByte (if s.targetsByte addr then s.engineBytes addr ++ s.hostBytes addr else []) addr
    fun b t => { t with readData := b.setWidth 32 }

end Sys2Proof.Machine
end

