-- ==== Sys2Proof/Machine/Rte.lean ====
section
/-! DEFINITION. The round-transform engine's steps (spec/43_round_transform.md R151, R152), the same for a
block command and for each block of a buffer command. -/

namespace Sys2Proof.Machine

/-- The ENCBLK and DECBLK check: E_NO_KEY when KEYVALID = 0 (R207, R215). -/
def blockChecks (s : State) : Option (ErrCode × Word) :=
  if s.status.keyvalid then none else some (.noKey, 0)

/-- The RTE's registers as a step leaves them. -/
def State.setRte (x : Rte) (s : State) : State := { s with hidden := { s.hidden with rte := x } }

/-- The RTE takes the block operand (R93) and makes the first whitening. Round 1 comes first in encryption,
round r in decryption. -/
def whitenStep (s : State) : State :=
  let next := if s.r = 0 then Phase.deliver else Phase.round
  if s.hidden.lk.decrypts then
    { s.setRte { s.hidden.rte with blk := decWhiten s.table s.r s.blockOperand, i := s.r } with phase := next }
  else
    { s.setRte { s.hidden.rte with blk := encWhiten s.table s.blockOperand, i := 1 } with phase := next }

/-- One round: t1 and u1 are f of the round's B and D (R151, R152). -/
def roundStep (s : State) : State :=
  let x := s.hidden.rte
  if s.hidden.lk.decrypts then
    { s.setRte
        { blk := decRound s.table x.i x.blk
          t1 := quad (unrotate x.blk).b
          u1 := quad (unrotate x.blk).d
          i := if 1 < x.i then x.i - 1 else x.i } with
      phase := if 1 < x.i then .round else .deliver }
  else
    { s.setRte
        { blk := encRound s.table x.i x.blk
          t1 := quad x.blk.b
          u1 := quad x.blk.d
          i := if x.i < s.r then x.i + 1 else x.i } with
      phase := if x.i < s.r then .round else .deliver }

/-- The block after the last whitening: the result (A, B, C, D). -/
def State.rteResult (s : State) : Block :=
  if s.hidden.lk.decrypts then decFinal s.table s.hidden.rte.blk else encFinal s.table s.r s.hidden.rte.blk

end Sys2Proof.Machine
end

