-- ==== Sys2Proof/Machine/Bsp.lean ====
section
/-! DEFINITION. The block streaming processor's steps (spec/44_block_processor.md R170) and the delivery of the
RTE's result, to DOUT for a block command (spec/43_round_transform.md R154, R155) and to the result bytes
o[0..15] for a buffer command. -/

namespace Sys2Proof.Machine

/-- The checks of ENC and DEC in the order of R215: E_INVALID_LENGTH, E_RANGE of the source, E_RANGE of the
destination, E_OVERLAP, E_NO_KEY (R204, R208, R209, R207). -/
def copyChecks (s : State) : Option (ErrCode × Word) :=
  if !wholeBlocks s.hidden.lk.len then some (.invalidLength, s.hidden.lk.len)
  else if !rangeLegal s.params s.hidden.lk.src s.hidden.lk.len then some (.range, s.hidden.lk.src)
  else if !rangeLegal s.params s.hidden.lk.dst s.hidden.lk.len then some (.range, s.hidden.lk.dst)
  else if rangesOverlap s.hidden.lk.src s.hidden.lk.dst s.hidden.lk.len then some (.overlap, s.hidden.lk.dst)
  else if !s.status.keyvalid then some (.noKey, 0)
  else none

/-- The checks of the in-place and stream-only commands in the order of R215: E_INVALID_LENGTH, E_RANGE of
the source, E_NO_KEY. -/
def sourceChecks (s : State) : Option (ErrCode × Word) :=
  if !wholeBlocks s.hidden.lk.len then some (.invalidLength, s.hidden.lk.len)
  else if !rangeLegal s.params s.hidden.lk.src s.hidden.lk.len then some (.range, s.hidden.lk.src)
  else if !s.status.keyvalid then some (.noKey, 0)
  else none

/-- The BSP's registers as a step leaves them. -/
def State.setBsp (x : Bsp) (s : State) : State := { s with hidden := { s.hidden with bsp := x } }

/-- Go to block k, or to the completion when there is no block k (R170). -/
def State.toBlock (k : Nat) (s : State) : State :=
  { s.setBsp { s.hidden.bsp with k := k, inp := [] } with
    phase := if k < s.hidden.lk.blocks then .read else .finish }

/-- Block k is finished: BLKDONE <- k + 1, then the next block (R37, R170). -/
def State.blockDone (s : State) : State :=
  { s.toBlock (s.hidden.bsp.k + 1) with blkdone := BitVec.ofNat 32 (s.hidden.bsp.k + 1) }

/-- The byte b[m] has been read; after b[15] the RTE takes the block. -/
def takeSourceByte (b : Byte) (s : State) : State :=
  { s.setBsp { s.hidden.bsp with inp := s.hidden.bsp.inp ++ [b] } with
    phase := if s.hidden.bsp.inp.length + 1 < Config.blockBytes then .read else .whiten }

/-- `b[m] = MemRead(src + 16k + m, 1)` (R170). -/
def readStep (s : State) : Result :=
  s.memRead (s.hidden.lk.src.toNat + Config.blockBytes * s.hidden.bsp.k + s.hidden.bsp.inp.length) takeSourceByte

/-- What follows the transform of a buffer command's block: its writes, or its chunk for a stream-only
command (R170). -/
def State.deliverBytes (out : List Byte) (s : State) : State :=
  { s.setBsp { s.hidden.bsp with out := out, m := 0 } with
    phase := if s.hidden.lk.writesMem then .write else .offer }

/-- The result of a block command: DOUT0..3, at the completion itself, so that "They are written only when
such a command completes without error" (R39, R154, R155). -/
def State.deliverDout (y : Block) (s : State) : State := { s.complete with dout := y }

/-- The last whitening and the delivery of the result (R93). -/
def deliverStep (s : State) : State :=
  if s.hidden.lk.isBuffer then s.deliverBytes (bytesOfBlock s.rteResult) else s.deliverDout s.rteResult

/-- The byte o[m] has been written; after o[15] the chunk follows in a stream command, else the block is
finished (R170). -/
def wroteByte (s : State) : State :=
  if s.hidden.bsp.m + 1 < Config.blockBytes then s.setBsp { s.hidden.bsp with m := s.hidden.bsp.m + 1 }
  else if s.hidden.lk.streams then { s with phase := .offer }
  else s.blockDone

/-- `MemWrite(out + 16k + m, 1, o[m])` (R170). -/
def writeStep (s : State) : Result :=
  s.memWrite (s.hidden.lk.outAddr + Config.blockBytes * s.hidden.bsp.k + s.hidden.bsp.m)
    (byteAt s.hidden.bsp.out s.hidden.bsp.m) wroteByte

/-- `Emit(o[0..15])` raises sink_valid with the chunk on sink_data (R75). -/
def offerStep (s : State) : State := { s with phase := .hold, sinkOut := some s.hidden.bsp.out }

/-- The chunk stays on offer until sink_valid ∧ sink_ready; then it is transferred and the block is finished
(R75, R246). -/
def holdStep (s : State) : State :=
  match s.sinkOut with
  | some chunk =>
    if s.sinkReady then { (s.note (.emit chunk)).blockDone with sinkOut := none } else s
  | none => s

end Sys2Proof.Machine
end

