-- ==== Sys2Proof/Machine/Kse.lean ====
section
/-! DEFINITION. The key-schedule expander's steps, phase by phase (spec/42_key_schedule.md R131). -/

namespace Sys2Proof.Machine

/-- The EXPAND checks in the order of R215: E_INVALID_KEY, E_KEY_TOO_LONG, E_ROUNDS, E_RANGE (R203, R205,
R206, R208). -/
def expandChecks (s : State) : Option (ErrCode × Word) :=
  if s.hidden.lk.keylen = 0 then some (.invalidKey, 0)
  else if s.params.keyMaxBytes < s.hidden.lk.keylen.toNat then some (.keyTooLong, s.hidden.lk.keylen)
  else if s.hidden.lk.rounds = 0 ∨ s.params.rMax < s.hidden.lk.r then some (.rounds, s.hidden.lk.rounds)
  else if !rangeLegal s.params s.hidden.lk.keyaddr s.hidden.lk.keylen then some (.range, s.hidden.lk.keyaddr)
  else none

/-- Enter the FETCH phase with no key byte read. -/
def startExpand (s : State) : State :=
  { s with phase := .fetch, hidden := { s.hidden with kse := { s.hidden.kse with key := [] } } }

/-- The byte K[m] has been read, m the number of bytes before it; after the last one INIT follows. -/
def takeKeyByte (b : Byte) (s : State) : State :=
  { s with
    phase := if s.hidden.kse.key.length + 1 < s.hidden.lk.keylen.toNat then .fetch else .init
    hidden := { s.hidden with kse := { s.hidden.kse with key := s.hidden.kse.key ++ [b] } } }

/-- One step of the FETCH phase: `K[m] = MemRead(a + m, 1)`. On an error response S, RLATCH and KEYVALID
are untouched. -/
def fetchStep (s : State) : Result :=
  s.memRead (s.hidden.lk.keyaddr.toNat + s.hidden.kse.key.length) takeKeyByte

/-- The words from S[t] up, unspecified from INIT on (R45): fresh free values. -/
def State.freeTail (t : Nat) (s : State) : List Word :=
  (List.range (s.params.tMax - t)).map fun k => Config.freeTableWord s.freeIdx (t + k)

/-- The INIT phase: KEYVALID is cleared, L is the packed key, and KeyInit(r) is in S[0..t-1]. -/
def initStep (s : State) : State :=
  { s with
    phase := .mix
    status := { s.status with keyvalid := false }
    table := keyInit s.hidden.lk.r ++ s.freeTail (tableWords s.hidden.lk.r)
    hidden := { s.hidden with kse := ⟨[], keyPack s.hidden.kse.key, 0, 0, 0, 0, 0⟩ } }

/-- The KSE's registers and the table as the state of the mixing loop. -/
def State.mixing (s : State) : Mix :=
  ⟨s.table, s.hidden.kse.l, s.hidden.kse.a, s.hidden.kse.b, s.hidden.kse.i, s.hidden.kse.j⟩

/-- One step of the MIX phase (R133); after v of them COMMIT follows. -/
def mixPhaseStep (s : State) : State :=
  let t := tableWords s.hidden.lk.r
  let c := s.hidden.kse.l.length
  let x := mixStep t c s.mixing
  { s with
    phase := if s.hidden.kse.s + 1 < mixSteps c t then .mix else .commit
    table := x.table
    hidden := { s.hidden with
      kse := { s.hidden.kse with l := x.l, a := x.a, b := x.b, i := x.i, j := x.j, s := s.hidden.kse.s + 1 } } }

/-- The COMMIT phase: RLATCH <- r and KEYVALID <- 1 (R135). -/
def commitStep (s : State) : State :=
  { s with phase := .finish, rlatch := s.hidden.lk.rounds, status := { s.status with keyvalid := true } }

end Sys2Proof.Machine
end

