-- ==== Sys2Proof/Machine/Engine.lean ====
section
/-! DEFINITION. The engine: the one sequencer shared by the three units (spec/10_state.md R20, R21). One engine
step is one phase step of the running command, with at most one memory or sink event. `resume` lets the
engine go on until the next outside event; `issue` is a CMD write followed by that. -/

namespace Sys2Proof.Machine

/-- The table of R215: the checks of each command. -/
def checksOf : Instr → State → Option (ErrCode × Word)
  | .expand => expandChecks
  | .encblk => blockChecks
  | .decblk => blockChecks
  | .enc => copyChecks
  | .dec => copyChecks
  | .enci => sourceChecks
  | .deci => sourceChecks
  | .encs => sourceChecks
  | .decs => sourceChecks
  | .encis => sourceChecks
  | .decis => sourceChecks

/-- What a command does first once its checks have passed: EXPAND's FETCH phase (R131), the transform of the
DIN block (R154, R155), or block 0 of the buffer (R170). -/
def startOf : Instr → State → State
  | .expand => startExpand
  | .encblk => fun s => { s with phase := .whiten }
  | .decblk => fun s => { s with phase := .whiten }
  | .enc => State.toBlock 0
  | .dec => State.toBlock 0
  | .enci => State.toBlock 0
  | .deci => State.toBlock 0
  | .encs => State.toBlock 0
  | .decs => State.toBlock 0
  | .encis => State.toBlock 0
  | .decis => State.toBlock 0

/-- The CHECK phase: "The first that fails is the one raised" (R215). An illegal Lk_CMD cannot stand here,
since acceptance has already raised E_BADCMD for it (R200); E_BADCMD is R215's first check. -/
def checkStep (s : State) : State :=
  match decode s.hidden.lk.cmd with
  | .error _ => s.raiseError .badcmd s.hidden.lk.cmd
  | .ok i =>
    match checksOf i s with
    | some (code, info) => s.raiseError code info
    | none => startOf i s

/-- One step of the engine. -/
def engineStep (s : State) : Result :=
  match s.phase with
  | .idle => .next s
  | .check => .next (checkStep s)
  | .fetch => fetchStep s
  | .init => .next (initStep s)
  | .mix => .next (mixPhaseStep s)
  | .commit => .next (commitStep s)
  | .read => readStep s
  | .whiten => .next (whitenStep s)
  | .round => .next (roundStep s)
  | .deliver => .next (deliverStep s)
  | .write => writeStep s
  | .offer => .next (offerStep s)
  | .hold => .next (holdStep s)
  | .finish => .next s.complete

/-- The engine can make a step: a command runs, and it does not wait for the sink (R75). -/
def State.canMove (s : State) : Bool :=
  match s.phase with
  | .idle => false
  | .hold => s.sinkReady
  | _ => true

/-- Up to `n` engine steps; fewer when the command ends, the sink holds the engine, or a step stops. -/
def run : Nat → State → Result
  | 0, s => .next s
  | n + 1, s => if s.canMove then (engineStep s).andThen (run n) else .next s

/-- At least as many engine steps as the running command still has (R183 "Each loop has a bound fixed at
acceptance"): EXPAND's n fetches and v mixing steps, or r rounds and at most 36 more steps for each
block. The constant stands last, so that an idle engine's share is evaluated without its free latches. -/
def State.workBound (s : State) : Nat :=
  s.hidden.lk.keylen.toNat + mixSteps (keyWords s.hidden.lk.keylen.toNat) (tableWords s.hidden.lk.r) + s.r
    + s.hidden.lk.blocks * (s.r + 40) + 8

/-- The engine's share of time before the next outside event: all it can do, or `pace` steps. -/
def State.resume (s : State) : Result :=
  match s.pace with
  | none => run s.workBound s
  | some n => run n s

/-- A CMD write with value w, and then the engine's share (R28, R200). -/
def issue (w : Word) (s : State) : Result := (s.writeCmd w).resume

end Sys2Proof.Machine
end

