-- ==== Sys2Proof/Machine/BlockCommands.lean ====
section
/-! DEFINITION. The meanings of ENCBLK and DECBLK (spec/43_round_transform.md R154, R155). -/

namespace Sys2Proof.Machine

/-- ENCBLK (R154). Accepted, it latches DIN0..3, raises E_NO_KEY when KEYVALID = 0 (`blockChecks`), and else
writes RC6Enc of the block to DOUT0..3 and completes (`whitenStep`, `roundStep`, `deliverStep`). -/
def execEncblk (s : State) : Result := issue (encode .encblk) s

/-- DECBLK (R155). As ENCBLK, with RC6Dec: OP[0] = 1. -/
def execDecblk (s : State) : Result := issue (encode .decblk) s

end Sys2Proof.Machine
end

