-- ==== Sys2Proof/Machine/BufferCommands.lean ====
section
/-! DEFINITION. The meanings of the eight buffer commands (spec/44_block_processor.md R171 to R178). Each runs
the procedure BUFFER(Dir, Inpl, Strm) of R170 with the modes its own opcode holds (R91): for each block
`readStep` sixteen times, `whitenStep`, `roundStep` r times, `deliverStep`, then `writeStep` sixteen
times if it writes memory, then `offerStep` and `holdStep` if it streams. -/

namespace Sys2Proof.Machine

/-- ENC (R171) = BUFFER(0, 0, 0): SRC to DST, with the checks `copyChecks`. -/
def execEnc (s : State) : Result := issue (encode .enc) s

/-- DEC (R172) = BUFFER(1, 0, 0): SRC to DST, with the checks `copyChecks`. -/
def execDec (s : State) : Result := issue (encode .dec) s

/-- ENCI (R173) = BUFFER(0, 1, 0): over SRC, with the checks `sourceChecks`. -/
def execEnci (s : State) : Result := issue (encode .enci) s

/-- DECI (R174) = BUFFER(1, 1, 0): over SRC, with the checks `sourceChecks`. -/
def execDeci (s : State) : Result := issue (encode .deci) s

/-- ENCS (R175) = BUFFER(0, 0, 1): to the sink only, with the checks `sourceChecks`. -/
def execEncs (s : State) : Result := issue (encode .encs) s

/-- DECS (R176) = BUFFER(1, 0, 1): to the sink only, with the checks `sourceChecks`. -/
def execDecs (s : State) : Result := issue (encode .decs) s

/-- ENCIS (R177) = BUFFER(0, 1, 1): over SRC and then to the sink, with the checks `sourceChecks`. -/
def execEncis (s : State) : Result := issue (encode .encis) s

/-- DECIS (R178) = BUFFER(1, 1, 1): over SRC and then to the sink, with the checks `sourceChecks`. -/
def execDecis (s : State) : Result := issue (encode .decis) s

end Sys2Proof.Machine
end

