-- ==== Sys2Proof/Machine/KeyCommands.lean ====
section
/-! DEFINITION. The meaning of EXPAND (spec/42_key_schedule.md R131). -/

namespace Sys2Proof.Machine

/-- EXPAND (R131). Accepted, it latches ROUNDS, KEYADDR and KEYLEN and runs CHECK (`expandChecks`), FETCH
(`fetchStep`), INIT (`initStep`), MIX (`mixPhaseStep`) and COMMIT (`commitStep`), then completes. -/
def execExpand (s : State) : Result := issue (encode .expand) s

end Sys2Proof.Machine
end

