-- ==== Sys2Proof/Machine/RegPort.lean ====
section
/-! DEFINITION. The register port (spec/10_state.md R23 to R43), the reset input (spec/70_reset_and_hazards.md
R240, R241), and the other things the outside world does. A CMD write is recognised here and carried
out by Step.lean, which gives its word to exec. -/

namespace Sys2Proof.Machine

/-- The register at an offset (R23), with T_MAX words in the table window. -/
def regAt (p : Params) (off : Nat) : Reg :=
  if 0x400 ≤ off then
    if (off - 0x400) / 4 < p.tMax then .stab ((off - 0x400) / 4) else .reserved
  else
    match off with
    | 0x000 => .id
    | 0x004 => .param
    | 0x008 => .ctrl
    | 0x00C => .status
    | 0x010 => .cmd
    | 0x014 => .errinfo
    | 0x018 => .rounds
    | 0x01C => .rlatch
    | 0x020 => .keyaddr
    | 0x024 => .keylen
    | 0x028 => .src
    | 0x02C => .dst
    | 0x030 => .len
    | 0x034 => .blkdone
    | 0x040 => .din0
    | 0x044 => .din1
    | 0x048 => .din2
    | 0x04C => .din3
    | 0x050 => .dout0
    | 0x054 => .dout1
    | 0x058 => .dout2
    | 0x05C => .dout3
    | _ => .reserved

/-- RLATCH as read: "It reads 0 while KEYVALID = 0" (R31). -/
def State.readRlatch (s : State) : Word := if s.status.keyvalid then s.rlatch else 0

/-- STAB[k] as read: S[k] when KEYVALID = 1 and k < 2·RLATCH + 4, otherwise 0 (R40). -/
def State.readStab (k : Nat) (s : State) : Word :=
  if s.status.keyvalid && decide (k < tableWords s.r) then s.table.getD k 0 else 0

/-- A register as read. CMD and the reserved offsets read 0 (R28, R41). -/
def State.readReg (s : State) : Reg → Word
  | .id => Config.idWord
  | .param => paramWord s.params
  | .ctrl => ctrlWord s.ie
  | .status => s.status.toWord
  | .cmd => 0
  | .errinfo => s.errinfo
  | .rounds => s.rounds
  | .rlatch => s.readRlatch
  | .keyaddr => s.keyaddr
  | .keylen => s.keylen
  | .src => s.src
  | .dst => s.dst
  | .len => s.len
  | .blkdone => s.blkdone
  | .din0 => s.din.a
  | .din1 => s.din.b
  | .din2 => s.din.c
  | .din3 => s.din.d
  | .dout0 => s.dout.a
  | .dout1 => s.dout.b
  | .dout2 => s.dout.c
  | .dout3 => s.dout.d
  | .stab k => s.readStab k
  | .reserved => 0

/-- A write of v to a register other than CMD. A write to an RO register or to a reserved offset changes no
state (R41, R43). The CMD arm is never reached: Step.lean gives a CMD write to exec. -/
def State.writeReg (s : State) (v : Word) : Reg → State
  | .ctrl => { s with ie := v.getLsbD 0 }
  | .status => { s with status := s.status.written v }
  | .rounds => { s with rounds := v }
  | .keyaddr => { s with keyaddr := v }
  | .keylen => { s with keylen := v }
  | .src => { s with src := v }
  | .dst => { s with dst := v }
  | .len => { s with len := v }
  | .din0 => { s with din := { s.din with a := v } }
  | .din1 => { s with din := { s.din with b := v } }
  | .din2 => { s with din := { s.din with c := v } }
  | .din3 => { s with din := { s.din with d := v } }
  | .id => s
  | .param => s
  | .cmd => s
  | .errinfo => s
  | .rlatch => s
  | .blkdone => s
  | .dout0 => s
  | .dout1 => s
  | .dout2 => s
  | .dout3 => s
  | .stab _ => s
  | .reserved => s

/-- The bus address lies in the aperture [BASE, BASE + 4096) (R23). -/
def inAperture (p : Params) (addr : Nat) : Bool :=
  decide (p.base ≤ addr) && decide (addr < p.base + Config.apertureBytes)

/-- The register an access reaches: only an aligned access with all four byte lanes reaches one (R42). -/
def reached (p : Params) (addr : Nat) (lanes : BitVec 4) : Option Reg :=
  if inAperture p addr && decide ((addr - p.base) % 4 = 0) && lanes == 0b1111#4 then
    some (regAt p (addr - p.base))
  else none

/-- A host write on the register port. While rst is asserted every register keeps its reset value (R240). -/
def State.portWrite (addr : Nat) (lanes : BitVec 4) (v : Word) (s : State) : State :=
  if s.rst then s
  else
    match reached s.params addr lanes with
    | some x => s.writeReg v x
    | none => s

/-- A host read on the register port. A read in the aperture that reaches no register returns 0 (R42); an
access outside the aperture is not the block's, and its answer is not modelled. -/
def State.portRead (addr : Nat) (lanes : BitVec 4) (s : State) : State :=
  match reached s.params addr lanes with
  | some x => { s with readData := s.readReg x }
  | none => if inAperture s.params addr then { s with readData := 0 } else s

/-- Every register takes its reset value, the running command is abandoned and an offered chunk is withdrawn;
memory and everything outside the block stay (R240, R241). The table and the hidden registers, which
have no reset value in the spec, take those of State.reset (notes/assumptions/2.md). -/
def State.resetBlock (s : State) : State :=
  { s with
    ie := false
    status := Status.reset
    errinfo := 0
    rounds := Config.defaultRounds
    rlatch := 0
    keyaddr := 0
    keylen := 0
    src := 0
    dst := 0
    len := 0
    blkdone := 0
    din := ⟨0, 0, 0, 0⟩
    dout := ⟨0, 0, 0, 0⟩
    table := List.replicate s.params.tMax 0
    phase := .idle
    hidden := Hidden.zero
    sinkOut := none
    span := Span.none }

/-- rst is driven to a level. The registers take their reset values when it rises and keep them until it
falls (R240). -/
def State.driveRst (level : Bool) (s : State) : State :=
  if level then { s.resetBlock with rst := true } else { s with rst := false }

/-- The word of an event that is a CMD write the block takes (R28). -/
def State.commandWord (e : Event) (s : State) : Option Word :=
  match e with
  | .regWrite addr lanes v =>
    if !s.rst && reached s.params addr lanes == some .cmd then some v else none
  | _ => none

/-- Any other event. A memory access of another agent stands where it is complete at the memory
(notes/assumptions/25.md), and names the byte by the address the engine uses for it
(notes/assumptions/24.md); both are DESIGN CHOICES. -/
def State.outside (e : Event) (s : State) : Result :=
  match e with
  | .regWrite addr lanes v => .next (s.portWrite addr lanes v)
  | .regRead addr lanes => .next (s.portRead addr lanes)
  | .memWrite addr v =>
    if s.inMemory addr then .next (s.hostWrite addr v) else .fault (.outsideMemory addr)
  | .memRead addr =>
    if s.inMemory addr then .next (s.hostRead addr) else .fault (.outsideMemory addr)
  | .sinkReady level => .next { s with sinkReady := level }
  | .busErrors regions => .next { s with errRegions := regions }
  | .pace steps => .next { s with pace := steps }
  | .rst level => .next (s.driveRst level)

/-- The next event is taken from the inbox. -/
def State.popInbox (rest : List Event) (s : State) : State := { s with inbox := rest }

/-- A bus write of a command word to CMD (R90: one aligned 32-bit write to offset 0x010). -/
def cmdWriteEvent (p : Params) (w : Word) : Event := .regWrite (p.base + 0x010) 0b1111#4 w

end Sys2Proof.Machine
end

