-- ==== Sys2Proof/Machine/Step.lean ====
section
/-! DEFINITION. One step of the whole machine: the outside world's next event, then the engine's share. The
block fetches no code (spec/10_state.md R21); an instruction comes as a CMD write. -/

namespace Sys2Proof.Machine

/-- One step. A CMD write runs its command; an illegal word ends with E_BADCMD (R95, R211). With nothing
coming, the engine goes on alone, and an idle block stays as it is (R227, R243). -/
def step (s : State) : Host.Outcome State Fault Refusal :=
  match s.inbox with
  | [] => s.resume
  | e :: rest =>
    match (s.popInbox rest).commandWord e with
    | some w =>
      match decode w with
      | .ok i => exec i (s.popInbox rest)
      | .error _ => issue w (s.popInbox rest)
    | none => Result.andThen ((s.popInbox rest).outside e) State.resume

/-- `s` with a CMD write of the table word as the next thing the host does. A program is the host's list of
accesses, placed from outside (notes/assumptions/9.md). -/
def State.withFetchWord (s : State) (nbits w : Nat) : State :=
  { s with inbox := cmdWriteEvent s.params (BitVec.ofNat 32 (w % 2 ^ nbits)) :: s.inbox }

end Sys2Proof.Machine
end

