-- ==== Sys2Proof/Safety.lean ====
section
/-! DEFINITION. The terms claims are stated in: the states a run can reach (`State.Inv`), the state a command
leaves when it ends (`State.ended`, `State.endedWith`), and the results of the buffer commands and of
EXPAND as functions of the state at acceptance (spec/70_reset_and_hazards.md R249: a command may be
looked at as one atomic step when no other agent acts while it runs and the sink accepts every chunk). -/

namespace Sys2Proof.Machine

/-- The state once a command accepted in `s` has completed without error, but for its own results (R200,
R213). The hidden registers are unspecified then (R53). -/
def State.ended (s : State) : State :=
  { s with
    status := s.status.succeeded
    errinfo := 0
    blkdone := 0
    phase := .idle
    hidden := Config.freeHidden s.freeIdx
    span := Span.none
    freeIdx := s.freeIdx + 1 }

/-- The state once a command accepted in `s` has ended with an error and no other effect (R200, R212,
R214). -/
def State.endedWith (code : ErrCode) (info : Word) (s : State) : State :=
  { s.ended with status := s.status.failed code, errinfo := info }

/-- The engine moves at the next opportunity: it is given all the time it can use, or some (R249 is the first
case). -/
def State.engineRuns (s : State) : Prop := s.pace ≠ some 0

/-- The memory answers no access of this kind to [a, a+n) with an error. -/
def State.answersAll (kind : Access) (a n : Nat) (s : State) : Prop :=
  ∀ x, a ≤ x → x < a + n → s.answersError kind x = false

/-- The read events of bytes at ascending addresses. -/
def readEvents : Nat → List Byte → List PortEvent
  | _, [] => []
  | a, b :: bs => .read a (some b) :: readEvents (a + 1) bs

/-- The write events of bytes at ascending addresses. -/
def writeEvents : Nat → List Byte → List PortEvent
  | _, [] => []
  | a, b :: bs => .write a b true :: writeEvents (a + 1) bs

/-- The secret EXPAND reads: KEYLEN bytes at KEYADDR (R131). -/
def State.secret (s : State) : List Byte := s.mem.readBytes s.keyaddr.toNat s.keylen.toNat

/-- The state a successful EXPAND leaves (R131, R135): the new table in S[0..t-1], RLATCH = ROUNDS,
KEYVALID = 1, and one read of each key byte in ascending order (R64, R65). -/
def State.expanded (s : State) : State :=
  { s.ended with
    status := { s.ended.status with keyvalid := true }
    rlatch := s.rounds
    table := keySchedule s.secret s.rounds.toNat ++ s.freeTail (tableWords s.rounds.toNat)
    events := s.events ++ readEvents s.keyaddr.toNat s.secret }

/-- The modes of a buffer command: Dir, Inpl and Strm of R170. -/
structure Modes where
  decrypt : Bool
  inPlace : Bool
  stream : Bool
  deriving DecidableEq, Repr

/-- `writes = (Inpl = 1) or (Strm = 0)` (R170). -/
def Modes.writes (x : Modes) : Bool := x.inPlace || !x.stream

/-- OUT of R64: SRC for in-place commands, DST for copy commands. -/
def Modes.out (x : Modes) (s : State) : Nat := if x.inPlace then s.src.toNat else s.dst.toNat

/-- The number of blocks of the buffer, LEN/16. -/
def State.bufferBlocks (s : State) : Nat := s.len.toNat / Config.blockBytes

/-- The 16 source bytes of block k. -/
def State.sourceBlock (s : State) (k : Nat) : List Byte :=
  s.mem.readBytes (s.src.toNat + Config.blockBytes * k) Config.blockBytes

/-- The 16 result bytes of block k (R170): "A block's output depends only on its own 16 input bytes, S and
r". -/
def State.resultBlock (decrypt : Bool) (s : State) (k : Nat) : List Byte :=
  bytesOfBlock (transform decrypt s.table s.r (blockOfBytes (s.sourceBlock k)))

/-- The result bytes of blocks 0 to n-1. -/
def State.resultBytes (decrypt : Bool) (s : State) (n : Nat) : List Byte :=
  (List.range n).flatMap (s.resultBlock decrypt)

/-- The events of block k in the order of R64: 16 reads, 16 writes if memory is written, and the chunk if
the command streams. -/
def State.blockEvents (x : Modes) (s : State) (k : Nat) : List PortEvent :=
  readEvents (s.src.toNat + Config.blockBytes * k) (s.sourceBlock k)
    ++ (if x.writes then writeEvents (x.out s + Config.blockBytes * k) (s.resultBlock x.decrypt k) else [])
    ++ (if x.stream then [.emit (s.resultBlock x.decrypt k)] else [])

/-- Memory after blocks 0 to n-1. -/
def State.bufferMem (x : Modes) (s : State) (n : Nat) : Memory :=
  if x.writes then s.mem.writeBytes (x.out s) (s.resultBytes x.decrypt n) else s.mem

/-- The events up to block n-1. -/
def State.bufferEvents (x : Modes) (s : State) (n : Nat) : List PortEvent :=
  s.events ++ (List.range n).flatMap (s.blockEvents x)

/-- The state a successful buffer command leaves (R170, R213). -/
def State.processed (x : Modes) (s : State) : State :=
  { s.ended with
    blkdone := BitVec.ofNat 32 s.bufferBlocks
    mem := s.bufferMem x s.bufferBlocks
    events := s.bufferEvents x s.bufferBlocks }

/-- The operands of a buffer command are ones its checks let pass, but for KEYVALID (R215): a whole number
of blocks, ranges inside memory (R67), and for a copy no overlap (R209). -/
structure State.BufferFits (x : Modes) (s : State) : Prop where
  whole : s.len.toNat % Config.blockBytes = 0
  source : s.src.toNat + s.len.toNat ≤ 2 ^ s.params.addrW
  target : x.writes = true → x.out s + s.len.toNat ≤ 2 ^ s.params.addrW
  apart : x.writes = true → x.inPlace = false → 0 < s.len.toNat →
    s.src.toNat + s.len.toNat ≤ s.dst.toNat ∨ s.dst.toNat + s.len.toNat ≤ s.src.toNat

/-- A buffer command of these modes, written to CMD now, runs to its successful end in one step: its checks
pass (R215), the memory answers every access (R210), the sink accepts every chunk and no other agent acts
while it runs (R249). -/
structure State.Ready (x : Modes) (s : State) : Prop extends State.BufferFits x s where
  idle : s.status.busy = false
  unpaced : s.pace = none
  key : s.status.keyvalid = true
  reads : s.answersAll .read s.src.toNat s.len.toNat
  writes : x.writes = true → s.answersAll .write (x.out s) s.len.toNat
  sink : x.stream = true → s.sinkReady = true ∧ s.sinkOut = none

/-- The EXPAND checks pass on the operand registers (R215). -/
structure State.KeyFits (s : State) : Prop where
  keylen : 1 ≤ s.keylen.toNat ∧ s.keylen.toNat ≤ s.params.keyMaxBytes
  rounds : 1 ≤ s.rounds.toNat ∧ s.rounds.toNat ≤ s.params.rMax
  range : s.keyaddr.toNat + s.keylen.toNat ≤ 2 ^ s.params.addrW

/-- Nobody has written this byte of the running command's ranges since acceptance, and it holds `old`. -/
structure State.Unwritten (addr : Nat) (old : Byte) (s : State) : Prop where
  canonical : s.mem.wf = true
  begun : s.span.begun ≤ s.events.length
  now : s.mem.read addr = old
  before : s.span.before.read addr = old
  host : s.hostBytes addr = []
  engine : s.engineBytes addr = []

/-- What a step answers, with every next state changed by `k`. -/
def Result.mapNext (x : Result) (k : State → State) : Result := x.andThen fun s => .next (k s)

/-- `n` steps of the whole machine. -/
def steps : Nat → State → Result
  | 0, s => .next s
  | n + 1, s => Result.andThen (step s) (steps n)

/-- The machine after these outside events, one step each, with nothing else coming. -/
def State.play (es : List Event) (s : State) : Result := steps es.length { s with inbox := es }

/-- The host reads the register at an offset with one aligned 32-bit access (R97 `rd`). -/
def State.rd (off : Nat) (s : State) : Word := (s.portRead (s.params.base + off) 0b1111#4).readData

/-- The host writes the register at an offset with one aligned 32-bit access (R97 `wr`), CMD apart. -/
def State.wr (off : Nat) (v : Word) (s : State) : State := s.portWrite (s.params.base + off) 0b1111#4 v

/-! The states a run can reach. -/

/-- An EXPAND whose checks have passed is running (R215). -/
structure State.Expanding (s : State) : Prop where
  cmd : decode s.hidden.lk.cmd = .ok .expand
  keylen : 1 ≤ s.hidden.lk.keylen.toNat ∧ s.hidden.lk.keylen.toNat ≤ s.params.keyMaxBytes
  rounds : 1 ≤ s.hidden.lk.r ∧ s.hidden.lk.r ≤ s.params.rMax
  range : s.hidden.lk.keyaddr.toNat + s.hidden.lk.keylen.toNat ≤ 2 ^ s.params.addrW

/-- A buffer command whose checks have passed is running, and BLKDONE counts its finished blocks (R37,
R215). -/
structure State.Buffering (s : State) : Prop where
  cmd : ∃ d i m, decode s.hidden.lk.cmd = .ok (bufferCommand m i d)
  key : s.status.keyvalid = true
  whole : s.hidden.lk.len.toNat % Config.blockBytes = 0
  source : 0 < s.hidden.lk.len.toNat → s.hidden.lk.src.toNat + s.hidden.lk.len.toNat ≤ 2 ^ s.params.addrW
  target : s.hidden.lk.inPlace = false → s.hidden.lk.streams = false → 0 < s.hidden.lk.len.toNat →
    s.hidden.lk.dst.toNat + s.hidden.lk.len.toNat ≤ 2 ^ s.params.addrW
  counted : s.blkdone = BitVec.ofNat 32 s.hidden.bsp.k

/-- A buffer command is at work on a block of its buffer. -/
structure State.InBlock (s : State) : Prop extends State.Buffering s where
  block : s.hidden.bsp.k < s.hidden.lk.blocks

/-- ENCBLK or DECBLK has passed its check and is running. -/
structure State.Blocking (s : State) : Prop where
  cmd : ∃ d, decode s.hidden.lk.cmd = .ok (blockCommand d)
  key : s.status.keyvalid = true

/-- The table holds the schedule of some secret for r rounds (R46). -/
def State.HoldsSchedule (r : Nat) (s : State) : Prop :=
  ∃ key : List Byte, 1 ≤ key.length ∧ key.length ≤ s.params.keyMaxBytes ∧
    s.table.take (tableWords r) = keySchedule key r

/-- Mixing is under way: the table, L and the accumulators are those of R133 after s steps, from the packed
key and KeyInit(r). -/
def State.Mixing (s : State) : Prop :=
  ∃ (key : List Byte) (rest : List Word),
    1 ≤ key.length ∧ key.length ≤ s.params.keyMaxBytes ∧
    s.hidden.kse.l.length = keyWords key.length ∧ key.length = s.hidden.lk.keylen.toNat ∧
    s.mixing =
      mixTimes (tableWords s.hidden.lk.r) (keyWords key.length) s.hidden.kse.s
        (mixStart (keyInit s.hidden.lk.r ++ rest) (keyPack key))

/-- What holds of the running command at the engine's position (R21, R51 to R53). -/
def State.Positioned (s : State) : Prop :=
  match s.phase with
  | .idle => True
  | .check => (∃ i, decode s.hidden.lk.cmd = .ok i) ∧ s.blkdone = 0
  | .fetch => s.Expanding ∧ s.hidden.kse.key.length < s.hidden.lk.keylen.toNat
  | .init => s.Expanding ∧ s.hidden.kse.key.length = s.hidden.lk.keylen.toNat
  | .mix =>
    s.Expanding ∧ s.status.keyvalid = false ∧ s.Mixing ∧
      s.hidden.kse.s < mixSteps s.hidden.kse.l.length (tableWords s.hidden.lk.r)
  | .commit => s.Expanding ∧ s.status.keyvalid = false ∧ s.HoldsSchedule s.hidden.lk.r
  | .read => s.InBlock ∧ s.hidden.bsp.inp.length < Config.blockBytes
  | .whiten => s.Blocking ∨ (s.InBlock ∧ s.hidden.bsp.inp.length = Config.blockBytes)
  | .round => (s.Blocking ∨ s.InBlock) ∧ 1 ≤ s.hidden.rte.i ∧ s.hidden.rte.i ≤ s.r
  | .deliver => s.Blocking ∨ s.InBlock
  | .write =>
    s.InBlock ∧ s.hidden.lk.writesMem = true ∧ s.hidden.bsp.out.length = Config.blockBytes ∧
      s.hidden.bsp.m < Config.blockBytes
  | .offer => s.InBlock ∧ s.hidden.lk.streams = true ∧ s.hidden.bsp.out.length = Config.blockBytes
  | .hold => s.InBlock ∧ s.hidden.lk.streams = true ∧ s.hidden.bsp.out.length = Config.blockBytes
  | .finish => decode s.hidden.lk.cmd = .ok .expand ∨ (s.Buffering ∧ s.hidden.bsp.k = s.hidden.lk.blocks)

/-- What every step keeps. -/
structure State.Inv (s : State) : Prop where
  /-- The parameters are ones an implementation may have (R8). -/
  params : s.params.wellFormed = true
  /-- Memory keeps its canonical form. -/
  memory : s.mem.wf = true
  /-- Memory has no byte outside the memory space (R60). -/
  inside : ∀ c ∈ s.mem, c.1 < 2 ^ s.params.addrW
  /-- The table storage has T_MAX words (R45). -/
  storage : s.table.length = s.params.tMax
  /-- BUSY = 1 exactly while a command runs (R27). -/
  busy : s.status.busy = true ↔ s.phase ≠ .idle
  /-- While a command runs, DONE and ERR are 0 (R200, R212, R213). -/
  running : s.status.busy = true → s.status.done = false ∧ s.status.err = false
  /-- ERR = 1 exactly when ERRCODE is not 0 (R27, R202). -/
  error : s.status.err = true ↔ s.status.errcode ≠ .noError
  /-- ERRINFO is 0 unless an error recorded it (R29). -/
  info : s.status.err = false → s.errinfo = 0
  /-- A chunk is on offer exactly in the sink holding state (R53, R75). -/
  sink : s.sinkOut = if s.phase = .hold then some s.hidden.bsp.out else none
  /-- What the races need to know of a command does not outlive it (R73, R74). -/
  quiet : s.phase = .idle → s.span = Span.none
  /-- While KEYVALID = 1 the table holds a schedule for RLATCH rounds (R46). -/
  context : s.status.keyvalid = true → 1 ≤ s.r ∧ s.r ≤ s.params.rMax ∧ s.HoldsSchedule s.r
  /-- The running command is where it can be. -/
  position : s.Positioned
  /-- While rst is asserted every register has its reset value (R240). -/
  reset : s.rst = true → s.resetBlock = s

end Sys2Proof.Machine
end

