-- ==== Sys2Proof/Certificates/Slice0/Obligations.lean ====
section
/-! DEFINITION. The statements about the model, for the provers. Each docstring names the rule of spec/ it
formalises. `exec i s` is the CMD write of i's word in state s with the engine's share after it;
`s.pace = none` gives the engine all the time it can use, which is the reading of R249 that no other
agent acts while the command runs; the pace is the model's own (DESIGN CHOICE, notes/assumptions/1.md).
The states named in conclusions (`ended`, `endedWith`, `expanded`, `processed`) are equalities on the
WHOLE state, so they say what changes and what does not; the hidden registers of an ended command are a
free value there (R53, notes/assumptions/3.md), and each equality holds whatever it is. -/

open Sys2Proof Sys2Proof.Machine

/-! Encoding and steps. -/

/-- R91, R94, R96. On all 2^32 words: a word decodes to a command exactly when it is that command's word. -/
def Obligations.DecodesExactlyTheEncodedWord : Prop :=
  ∀ (w : Word) (i : Instr), decode w = .ok i ↔ w = encode i

/-- R96. The decoder's table on all 2^32 words, by the number of the word. -/
def Obligations.DecoderIsTotalAsTabled : Prop :=
  ∀ w : Word,
    (256 ≤ w.toNat → decode w = .error .rsvNotZero) ∧
    (w.toNat = 0x01 → decode w = .ok .expand) ∧
    (w.toNat = 0x02 → decode w = .ok .encblk) ∧
    (w.toNat = 0x03 → decode w = .ok .decblk) ∧
    (w.toNat = 0x10 → decode w = .ok .enc) ∧
    (w.toNat = 0x11 → decode w = .ok .dec) ∧
    (w.toNat = 0x12 → decode w = .ok .enci) ∧
    (w.toNat = 0x13 → decode w = .ok .deci) ∧
    (w.toNat = 0x14 → decode w = .ok .encs) ∧
    (w.toNat = 0x15 → decode w = .ok .decs) ∧
    (w.toNat = 0x16 → decode w = .ok .encis) ∧
    (w.toNat = 0x17 → decode w = .ok .decis) ∧
    (w.toNat = 0 ∨ (0x04 ≤ w.toNat ∧ w.toNat ≤ 0x0F) ∨ (0x18 ≤ w.toNat ∧ w.toNat ≤ 0xFF) →
      decode w = .error (.reservedOpcode (BitVec.ofNat 8 w.toNat)))

/-- R94. A word of each unit, written out from the opcode table. -/
def Obligations.SampleWordsDecode : Prop :=
  decode 0x00000001#32 = .ok .expand ∧ decode 0x00000003#32 = .ok .decblk ∧
    decode 0x00000010#32 = .ok .enc ∧ decode 0x00000013#32 = .ok .deci ∧
    decode 0x00000014#32 = .ok .encs ∧ decode 0x00000017#32 = .ok .decis

/-- R28, R90, R200. When the next event is a CMD write of a word that decodes to i, the step is exec of i on
the state without that event. That is so for a word placed by withFetchWord; that a program is placed so is
the model's choice (DESIGN CHOICE, notes/assumptions/9.md). -/
def Obligations.StepRunsTheDecodedCommand : Prop :=
  (∀ (s : State) (w : Word) (rest : List Event) (i : Instr),
    s.rst = false → s.inbox = .regWrite (s.params.base + 0x010) 0b1111#4 w :: rest → decode w = .ok i →
    step s = exec i { s with inbox := rest }) ∧
  (∀ (s : State) (i : Instr), s.rst = false → step (s.withFetchWord 32 (encode i).toNat) = exec i s)

/-- R95, R211. An illegal word accepted as the next CMD write completes at once with E_BADCMD and the whole
word in ERRINFO, at any pace of the engine; nothing else changes but what acceptance changes. -/
def Obligations.IllegalWordEndsWithBadcmd : Prop :=
  ∀ (s : State) (w : Word) (rest : List Event) (e : IllegalWord),
    s.rst = false → s.inbox = .regWrite (s.params.base + 0x010) 0b1111#4 w :: rest →
    s.status.busy = false → decode w = .error e →
    step s = .next (State.endedWith .badcmd w { s with inbox := rest })

/-- R201. A CMD write while BUSY = 1, legal or not, only sets CMDLOST; the running command goes on unaffected;
CMDLOST stays 1 until a STATUS write with bit 4 = 1 or reset. -/
def Obligations.CommandWhileBusyIsDropped : Prop :=
  (∀ (i : Instr) (s : State), s.status.busy = true →
    exec i s = State.resume { s with status := { s.status with cmdlost := true } }) ∧
  (∀ (w : Word) (s : State), s.status.busy = true →
    issue w s = State.resume { s with status := { s.status with cmdlost := true } }) ∧
  (∀ (n : Nat) (s : State), run n { s with status := { s.status with cmdlost := true } } =
    (run n s).mapNext fun t => { t with status := { t.status with cmdlost := true } }) ∧
  (∀ s t : State, s.status.cmdlost = true → step s = .next t → t.status.cmdlost = true ∨
    (∃ addr lanes v rest, s.inbox = .regWrite addr lanes v :: rest ∧
      reached s.params addr lanes = some .status ∧ v.getLsbD 4 = true) ∨
    ∃ rest, s.inbox = .rst true :: rest)

/-- R200. Acceptance before any engine step (pace 0, the model's own, notes/assumptions/1.md): the eleven
copies, DONE, ERR, ERRCODE, ERRINFO and BLKDONE cleared, BUSY set, and nothing else; the model also notes what
the races of R74 need to know (`span`, notes/assumptions/23.md). -/
def Obligations.AcceptanceChangesOnlyThis : Prop :=
  ∀ (i : Instr) (s : State), s.status.busy = false → s.pace = some 0 →
    exec i s = .next { s with
      status := { s.status with busy := true, done := false, err := false, errcode := .noError }
      errinfo := 0
      blkdone := 0
      phase := .check
      hidden := { s.hidden with
        lk := { cmd := encode i, rounds := s.rounds, keyaddr := s.keyaddr, keylen := s.keylen
                src := s.src, dst := s.dst, len := s.len, din := s.din } }
      span := ⟨s.mem, s.events.length, []⟩ }

/-- R44. Operands are copied at acceptance, and a host write to an operand register while a command runs is
stored and reaches nothing else: running and then writing is writing and then running. -/
def Obligations.OperandWritesDoNotReachTheRunningCommand : Prop :=
  (∀ (w : Word) (s : State), (s.accept w).hidden.lk =
    { cmd := w, rounds := s.rounds, keyaddr := s.keyaddr, keylen := s.keylen
      src := s.src, dst := s.dst, len := s.len, din := s.din }) ∧
  ∀ (n : Nat) (s : State) (v : Word),
    ∀ x ∈ [Reg.rounds, .keyaddr, .keylen, .src, .dst, .len, .din0, .din1, .din2, .din3],
      run n (s.writeReg v x) = (run n s).mapNext fun t => t.writeReg v x

/-! Registers. -/

/-- R22, R23, R30 to R38, R77. Each RW register stores all 32 bits of an aligned 32-bit write and reads them back,
and no other offset of the aperture reads differently for it. A step on a register access that is no CMD
write is that access (`portWrite`, `portRead`) and then the engine's share; with an idle engine it is the
access and nothing else. -/
def Obligations.OperandRegistersHoldWhatIsWritten : Prop :=
  (∀ (s : State) (v : Word), s.rst = false →
    ∀ off ∈ [0x018, 0x020, 0x024, 0x028, 0x02C, 0x030, 0x040, 0x044, 0x048, 0x04C],
      (s.wr off v).rd off = v ∧
      ∀ other, other < 4096 → other % 4 = 0 → other ≠ off → (s.wr off v).rd other = s.rd other) ∧
  (∀ (s : State) (addr : Nat) (lanes : BitVec 4) (v : Word) (rest : List Event),
    s.inbox = .regWrite addr lanes v :: rest →
    (s.rst = false → reached s.params addr lanes ≠ some .cmd) →
    step s = State.resume (State.portWrite addr lanes v { s with inbox := rest }) ∧
    (s.phase = .idle → step s = .next (State.portWrite addr lanes v { s with inbox := rest }))) ∧
  ∀ (s : State) (addr : Nat) (lanes : BitVec 4) (rest : List Event),
    s.inbox = .regRead addr lanes :: rest →
    step s = State.resume (State.portRead addr lanes { s with inbox := rest }) ∧
    (s.phase = .idle → step s = .next (State.portRead addr lanes { s with inbox := rest }))

/-- R26. CTRL has one field: bit 0 is IE, reset to 0; bits 31:1 read 0 and ignore writes. -/
def Obligations.CtrlHoldsOnlyTheInterruptEnable : Prop :=
  (∀ (s : State) (v : Word), s.rst = false →
    s.wr 0x008 v = { s with ie := v.getLsbD 0 } ∧ (s.wr 0x008 v).rd 0x008 = v &&& 1) ∧
  State.reset.rd 0x008 = 0

/-- R27, R43. A STATUS write clears DONE where bit 1 is 1 and CMDLOST where bit 4 is 1, and has no other
effect. -/
def Obligations.StatusWriteClearsDoneAndCmdlostOnly : Prop :=
  ∀ (s : State) (v : Word), s.rst = false →
    s.wr 0x00C v = { s with status := { s.status with
      done := s.status.done && !v.getLsbD 1, cmdlost := s.status.cmdlost && !v.getLsbD 4 } }

/-- R27, R202. STATUS as read, by the number of its fields; every reserved bit is 0; and the numbers of the ten
values of ERRCODE. -/
def Obligations.StatusReadsItsFields : Prop :=
  (∀ s : State, (s.rd 0x00C).toNat =
    s.status.busy.toNat + 2 * s.status.done.toNat + 4 * s.status.err.toNat
      + 8 * s.status.keyvalid.toNat + 16 * s.status.cmdlost.toNat + 256 * s.status.errcode.toByte.toNat) ∧
  ErrCode.noError.toByte = 0 ∧ ErrCode.invalidKey.toByte = 1 ∧ ErrCode.invalidLength.toByte = 2 ∧
  ErrCode.keyTooLong.toByte = 3 ∧ ErrCode.rounds.toByte = 4 ∧ ErrCode.noKey.toByte = 5 ∧
  ErrCode.range.toByte = 6 ∧ ErrCode.overlap.toByte = 7 ∧ ErrCode.bus.toByte = 8 ∧ ErrCode.badcmd.toByte = 9

/-- R24, R25. ID and PARAM are hardwired: ID reads 0x01364352, PARAM reports R_MAX in 7:0 and KEY_MAX_BYTES in
23:8 with 31:24 zero, and neither changes by a write. -/
def Obligations.IdAndParamAreHardwired : Prop :=
  ∀ (s : State) (v : Word), s.params.wellFormed = true →
    s.rd 0x000 = 0x01364352#32 ∧
    (s.rd 0x004).toNat = s.params.rMax + 256 * s.params.keyMaxBytes ∧
    s.wr 0x000 v = s ∧ s.wr 0x004 v = s

/-- R29, R31, R37, R39, R43. The other RO registers ignore writes, and RLATCH reads 0 while KEYVALID = 0. -/
def Obligations.ReadOnlyRegistersIgnoreWrites : Prop :=
  ∀ (s : State) (v : Word),
    (∀ off ∈ [0x014, 0x01C, 0x034, 0x050, 0x054, 0x058, 0x05C], s.wr off v = s) ∧
    s.rd 0x014 = s.errinfo ∧ s.rd 0x034 = s.blkdone ∧
    s.rd 0x01C = (if s.status.keyvalid then s.rlatch else 0) ∧
    s.rd 0x050 = s.dout.a ∧ s.rd 0x054 = s.dout.b ∧ s.rd 0x058 = s.dout.c ∧ s.rd 0x05C = s.dout.d

/-- R41. With the default T_MAX the reserved offsets read 0 and ignore writes. -/
def Obligations.ReservedOffsetsReadZeroIgnoreWrites : Prop :=
  ∀ (s : State) (v : Word) (off : Nat), s.params.rMax = 255 → off % 4 = 0 →
    (0x038 ≤ off ∧ off ≤ 0x03C) ∨ (0x060 ≤ off ∧ off ≤ 0x3FC) ∨ (0xC08 ≤ off ∧ off ≤ 0xFFC) →
    s.rd off = 0 ∧ s.wr off v = s ∧
      s.portRead (s.params.base + off) 0b1111#4 = { s with readData := 0 }

/-- R42. An access in the aperture that is misaligned or uses fewer than four lanes changes no state, starts no
command, and as a read returns 0; and no read, of any form, changes any register. -/
def Obligations.OnlyAlignedWordAccessesReachARegister : Prop :=
  (∀ (s : State) (off : Nat) (lanes : BitVec 4) (v : Word), off < 4096 →
    off % 4 ≠ 0 ∨ lanes ≠ 0b1111#4 →
    s.portWrite (s.params.base + off) lanes v = s ∧
      s.commandWord (.regWrite (s.params.base + off) lanes v) = none ∧
      s.portRead (s.params.base + off) lanes = { s with readData := 0 }) ∧
  ∀ (s : State) (addr : Nat) (lanes : BitVec 4),
    s.portRead addr lanes = { s with readData := (s.portRead addr lanes).readData }

/-- R40. STAB[k] reads S[k] when KEYVALID = 1 and k < 2·RLATCH+4, otherwise 0, and ignores writes. -/
def Obligations.TableWindowReadsTheValidTable : Prop :=
  ∀ (s : State) (k : Nat) (v : Word), s.params.wellFormed = true → k < 2 * s.params.rMax + 4 →
    s.rd (0x400 + 4 * k) =
      (if s.status.keyvalid = true ∧ k < 2 * s.rlatch.toNat + 4 then s.table.getD k 0 else 0) ∧
    s.wr (0x400 + 4 * k) v = s

/-- R23, R241, R243. What every aligned offset of the aperture reads right after reset, and the outputs. -/
def Obligations.ResetValuesOfTheAperture : Prop :=
  (∀ off, off < 4096 → off % 4 = 0 → State.reset.rd off =
    if off = 0x000 then 0x01364352#32
    else if off = 0x004 then 0x000100FF#32
    else if off = 0x018 then 20#32
    else 0) ∧
  State.reset.irq = false ∧ State.reset.sinkValid = false

/-- R240. When rst rises, every aligned offset reads its reset value (PARAM apart, which the parameters fix),
the running command is abandoned without DONE, an offered chunk is withdrawn, and memory and the events
so far stay; while rst stays asserted a register write changes nothing (the model's reading,
notes/assumptions/10.md), and releasing it changes nothing else. -/
def Obligations.RstAbandonsTheRunningCommand : Prop :=
  (∀ (s : State) (rest : List Event), s.inbox = .rst true :: rest → ∃ t : State,
    step s = .next t ∧ t.rst = true ∧ t.phase = .idle ∧
    t.status = ⟨false, false, false, false, false, .noError⟩ ∧ t.sinkOut = none ∧
    t.mem = s.mem ∧ t.events = s.events ∧ t.params = s.params ∧ t.inbox = rest ∧
    t.sinkReady = s.sinkReady ∧ t.errRegions = s.errRegions ∧ t.pace = s.pace ∧
    ∀ off, off < 4096 → off % 4 = 0 → off ≠ 0x004 → t.rd off = State.reset.rd off) ∧
  (∀ (s : State) (addr : Nat) (lanes : BitVec 4) (v : Word) (rest : List Event),
    s.rst = true → s.phase = .idle → s.inbox = .regWrite addr lanes v :: rest →
    step s = .next { s with inbox := rest }) ∧
  (∀ (s : State) (rest : List Event), s.phase = .idle → s.inbox = .rst false :: rest →
    step s = .next { s with inbox := rest, rst := false })

/-- R217. irq = CTRL.IE ∧ STATUS.DONE; it rises with a completion, with or without error, while IE = 1, and
when IE is set while DONE = 1; it falls when the host clears DONE, when a command is accepted, when IE is
cleared, and at reset. -/
def Obligations.InterruptLineIsEnableAndDone : Prop :=
  ∀ s : State, s.irq = (s.ie && s.status.done) ∧ s.complete.irq = s.ie ∧
    (∀ code info, (s.raiseError code info).irq = s.ie) ∧ (∀ w, (s.accept w).irq = false) ∧
    (s.driveRst true).irq = false ∧
    (s.rst = false → ∀ v : Word,
      (s.wr 0x008 v).irq = (v.getLsbD 0 && s.status.done) ∧
      (v.getLsbD 1 = true → (s.wr 0x00C v).irq = false))

/-! Checks: which error ends which command, in the order of R215. `endedWith` is the whole state. -/

/-- R203, R205, R206. EXPAND ends with E_INVALID_KEY on an empty secret, then E_KEY_TOO_LONG above
KEY_MAX_BYTES, then E_ROUNDS on 0 or above R_MAX. -/
def Obligations.ExpandRejectsBadKeyLengthAndRounds : Prop :=
  ∀ s : State, s.status.busy = false → s.engineRuns →
    (s.keylen = 0 → exec .expand s = .next (s.endedWith .invalidKey 0)) ∧
    (s.keylen ≠ 0 → s.params.keyMaxBytes < s.keylen.toNat →
      exec .expand s = .next (s.endedWith .keyTooLong s.keylen)) ∧
    (s.keylen ≠ 0 → s.keylen.toNat ≤ s.params.keyMaxBytes →
      s.rounds = 0 ∨ s.params.rMax < s.rounds.toNat →
      exec .expand s = .next (s.endedWith .rounds s.rounds))

/-- R204. A buffer command whose LEN is no multiple of 16 ends with E_INVALID_LENGTH and ERRINFO = LEN,
whatever its other operands; no byte is read or written. -/
def Obligations.BadLengthIsRejectedByEveryBufferCommand : Prop :=
  ∀ s : State, s.status.busy = false → s.engineRuns → s.len.toNat % 16 ≠ 0 →
    ∀ i ∈ [Instr.enc, .dec, .enci, .deci, .encs, .decs, .encis, .decis],
      exec i s = .next (s.endedWith .invalidLength s.len)

/-- R67, R208. A range that passes the top of the memory space ends the command with E_RANGE and its first
address, once the checks before it have passed; an empty range among them. -/
def Obligations.RangePastMemoryIsRejected : Prop :=
  ∀ s : State, s.status.busy = false → s.engineRuns →
    (1 ≤ s.keylen.toNat → s.keylen.toNat ≤ s.params.keyMaxBytes → 1 ≤ s.rounds.toNat →
      s.rounds.toNat ≤ s.params.rMax → 2 ^ s.params.addrW < s.keyaddr.toNat + s.keylen.toNat →
      exec .expand s = .next (s.endedWith .range s.keyaddr)) ∧
    (s.len.toNat % 16 = 0 → 2 ^ s.params.addrW < s.src.toNat + s.len.toNat →
      ∀ i ∈ [Instr.enc, .dec, .enci, .deci, .encs, .decs, .encis, .decis],
        exec i s = .next (s.endedWith .range s.src)) ∧
    (s.len.toNat % 16 = 0 → s.src.toNat + s.len.toNat ≤ 2 ^ s.params.addrW →
      2 ^ s.params.addrW < s.dst.toNat + s.len.toNat →
      ∀ i ∈ [Instr.enc, .dec], exec i s = .next (s.endedWith .range s.dst))

/-- R209. ENC and DEC end with E_OVERLAP and ERRINFO = DST when the source and destination ranges share a byte,
once the checks before it have passed; the in-place and stream-only commands never end with E_OVERLAP. -/
def Obligations.OverlappingCopyIsRejected : Prop :=
  (∀ s : State, s.status.busy = false → s.engineRuns → s.len.toNat % 16 = 0 →
    s.src.toNat + s.len.toNat ≤ 2 ^ s.params.addrW → s.dst.toNat + s.len.toNat ≤ 2 ^ s.params.addrW →
    0 < s.len.toNat → s.src.toNat < s.dst.toNat + s.len.toNat → s.dst.toNat < s.src.toNat + s.len.toNat →
    ∀ i ∈ [Instr.enc, .dec], exec i s = .next (s.endedWith .overlap s.dst)) ∧
  ∀ s t : State, s.status.busy = false →
    ∀ i ∈ [Instr.enci, .deci, .encs, .decs, .encis, .decis], exec i s = .next t →
      t.status.errcode ≠ .overlap

/-- R180, R207, R215. Without a table, ENCBLK, DECBLK and the buffer commands whose other checks pass end with
E_NO_KEY, an empty buffer among them. -/
def Obligations.NoTableIsRejected : Prop :=
  ∀ s : State, s.status.busy = false → s.engineRuns → s.status.keyvalid = false →
    exec .encblk s = .next (s.endedWith .noKey 0) ∧ exec .decblk s = .next (s.endedWith .noKey 0) ∧
    (s.len.toNat % 16 = 0 →
      s.src.toNat + s.len.toNat ≤ 2 ^ s.params.addrW →
      ∀ i ∈ [Instr.enci, .deci, .encs, .decs, .encis, .decis],
        exec i s = .next (s.endedWith .noKey 0)) ∧
    (s.len.toNat % 16 = 0 →
      s.src.toNat + s.len.toNat ≤ 2 ^ s.params.addrW →
      s.dst.toNat + s.len.toNat ≤ 2 ^ s.params.addrW →
      (s.len.toNat = 0 ∨ s.dst.toNat + s.len.toNat ≤ s.src.toNat ∨
        s.src.toNat + s.len.toNat ≤ s.dst.toNat) →
      ∀ i ∈ [Instr.enc, .dec], exec i s = .next (s.endedWith .noKey 0))

/-! Completion: what each command leaves when nothing stops it. -/

/-- R131, R134, R135. EXPAND whose checks pass and whose key bytes the memory answers leaves the schedule of
the secret at KEYADDR for ROUNDS rounds in S[0..t-1], RLATCH = ROUNDS and KEYVALID = 1, having read each
key byte once in ascending order. The words of S from t up are free values (R45, notes/assumptions/4.md),
and so are the hidden registers (R53); DOUT, memory and everything else are unchanged. -/
def Obligations.ExpandLeavesTheKeySchedule : Prop :=
  ∀ s : State, s.status.busy = false → s.pace = none → s.KeyFits →
    s.answersAll .read s.keyaddr.toNat s.keylen.toNat →
    exec .expand s = .next s.expanded

/-- R154. ENCBLK with a table writes RC6Enc of DIN under S and RLATCH to DOUT and completes; without a table it
ends with E_NO_KEY and DOUT unchanged. -/
def Obligations.EncblkEncryptsDinIntoDout : Prop :=
  ∀ s : State, s.status.busy = false → s.pace = none →
    (s.status.keyvalid = true →
      exec .encblk s = .next { s.ended with dout := rc6Enc s.table s.rlatch.toNat s.din }) ∧
    (s.status.keyvalid = false → exec .encblk s = .next (s.endedWith .noKey 0))

/-- R155. DECBLK likewise with RC6Dec; DECBLK of ENCBLK's output gives back the DIN block. -/
def Obligations.DecblkDecryptsDinIntoDout : Prop :=
  ∀ s : State, s.status.busy = false → s.pace = none →
    (s.status.keyvalid = true →
      exec .decblk s = .next { s.ended with dout := rc6Dec s.table s.rlatch.toNat s.din } ∧
      ∀ t u : State, exec .encblk s = .next t → exec .decblk { t with din := t.dout } = .next u →
        u.dout = s.din) ∧
    (s.status.keyvalid = false → exec .decblk s = .next (s.endedWith .noKey 0))

/-- R170, R171, R172. ENC and DEC write the transformed blocks of [SRC, SRC+LEN) to [DST, DST+LEN), with the
memory events of R64, BLKDONE = LEN/16, and nothing else changed. -/
def Obligations.CopyCommandsTransformTheBuffer : Prop :=
  ∀ s : State,
    (s.Ready ⟨false, false, false⟩ → exec .enc s = .next (s.processed ⟨false, false, false⟩)) ∧
    (s.Ready ⟨true, false, false⟩ → exec .dec s = .next (s.processed ⟨true, false, false⟩))

/-- R170, R173, R174. ENCI and DECI overwrite [SRC, SRC+LEN) with its transformed blocks. -/
def Obligations.InPlaceCommandsTransformTheBuffer : Prop :=
  ∀ s : State,
    (s.Ready ⟨false, true, false⟩ → exec .enci s = .next (s.processed ⟨false, true, false⟩)) ∧
    (s.Ready ⟨true, true, false⟩ → exec .deci s = .next (s.processed ⟨true, true, false⟩))

/-- R170, R175, R176. ENCS and DECS emit the transformed blocks of [SRC, SRC+LEN) in order and write no
memory. -/
def Obligations.StreamCommandsEmitTheBuffer : Prop :=
  ∀ s : State,
    (s.Ready ⟨false, false, true⟩ → exec .encs s = .next (s.processed ⟨false, false, true⟩)) ∧
    (s.Ready ⟨true, false, true⟩ → exec .decs s = .next (s.processed ⟨true, false, true⟩))

/-- R170, R177, R178. ENCIS and DECIS overwrite each block and then emit it. -/
def Obligations.InPlaceStreamCommandsWriteThenEmit : Prop :=
  ∀ s : State,
    (s.Ready ⟨false, true, true⟩ → exec .encis s = .next (s.processed ⟨false, true, true⟩)) ∧
    (s.Ready ⟨true, true, true⟩ → exec .decis s = .next (s.processed ⟨true, true, true⟩))

/-- R180. A buffer command with LEN = 0 that has a table completes with BLKDONE = 0, no memory access and no sink
event, whatever memory and the sink would answer; without a table it ends with E_NO_KEY. With ADDR_W = 32 or
more that is so whatever SRC and DST are. In a smaller memory space it is so of the ranges that R67 makes legal;
of one that starts past the top RangePastMemoryIsRejected speaks, though R180 calls every empty range legal
(DEDUCED, notes/assumptions/21.md). -/
def Obligations.EmptyBufferCompletesWithNoAccess : Prop :=
  ∀ s : State, s.status.busy = false → s.pace = none → s.len = 0 →
    ∀ i ∈ [Instr.enc, .dec, .enci, .deci, .encs, .decs, .encis, .decis],
      32 ≤ s.params.addrW ∨
        (s.src.toNat ≤ 2 ^ s.params.addrW ∧ (i ∈ [Instr.enc, .dec] → s.dst.toNat ≤ 2 ^ s.params.addrW)) →
      (s.status.keyvalid = true → exec i s = .next s.ended) ∧
      (s.status.keyvalid = false → exec i s = .next (s.endedWith .noKey 0))

/-! Bus errors and the sink. -/

/-- R210, R131. When the memory answers the read of key byte m with an error, EXPAND ends with E_BUS and the
address; S, RLATCH, KEYVALID and everything else stay. -/
def Obligations.BusErrorWhileFetchingTheKey : Prop :=
  ∀ (s : State) (m : Nat), s.status.busy = false → s.pace = none → s.KeyFits →
    m < s.keylen.toNat → s.answersAll .read s.keyaddr.toNat m →
    s.answersError .read (s.keyaddr.toNat + m) = true →
    exec .expand s = .next
      { s.endedWith .bus (BitVec.ofNat 32 (s.keyaddr.toNat + m)) with
        events := s.events ++ readEvents s.keyaddr.toNat (s.secret.take m)
          ++ [.read (s.keyaddr.toNat + m) none] }

/-- R210, R181. When the memory answers the read of byte m of block k with an error, a buffer command ends with
E_BUS and the address; blocks 0 to k-1 are written and emitted, BLKDONE = k, and nothing of block k is
written or emitted. -/
def Obligations.BusErrorWhileReadingABlock : Prop :=
  ∀ (s : State) (d i st : Bool) (k m : Nat),
    s.BufferFits ⟨d, i, st⟩ → s.status.busy = false → s.pace = none → s.status.keyvalid = true →
    k < s.bufferBlocks → m < 16 →
    s.answersAll .read s.src.toNat (16 * k + m) →
    s.answersError .read (s.src.toNat + 16 * k + m) = true →
    (Modes.writes ⟨d, i, st⟩ = true → s.answersAll .write (Modes.out ⟨d, i, st⟩ s) (16 * k)) →
    (st = true → s.sinkReady = true ∧ s.sinkOut = none) →
    exec (bufferCommand st i d) s = .next
      { s.endedWith .bus (BitVec.ofNat 32 (s.src.toNat + 16 * k + m)) with
        blkdone := BitVec.ofNat 32 k
        mem := s.bufferMem ⟨d, i, st⟩ k
        events := s.bufferEvents ⟨d, i, st⟩ k
          ++ readEvents (s.src.toNat + 16 * k) ((s.sourceBlock k).take m)
          ++ [.read (s.src.toNat + 16 * k + m) none] }

/-- R210, R181. When the memory answers the write of byte m of block k with an error, the command ends with
E_BUS and the address; bytes 0 to m-1 of block k are written, the others are not, and block k is not
emitted. -/
def Obligations.BusErrorWhileWritingABlock : Prop :=
  ∀ (s : State) (d i st : Bool) (k m : Nat),
    s.BufferFits ⟨d, i, st⟩ → s.status.busy = false → s.pace = none → s.status.keyvalid = true →
    k < s.bufferBlocks → m < 16 → Modes.writes ⟨d, i, st⟩ = true →
    s.answersAll .read s.src.toNat (16 * k + 16) →
    s.answersAll .write (Modes.out ⟨d, i, st⟩ s) (16 * k + m) →
    s.answersError .write (Modes.out ⟨d, i, st⟩ s + 16 * k + m) = true →
    (st = true → s.sinkReady = true ∧ s.sinkOut = none) →
    exec (bufferCommand st i d) s = .next
      { s.endedWith .bus (BitVec.ofNat 32 (Modes.out ⟨d, i, st⟩ s + 16 * k + m)) with
        blkdone := BitVec.ofNat 32 k
        mem := (s.bufferMem ⟨d, i, st⟩ k).writeBytes (Modes.out ⟨d, i, st⟩ s + 16 * k)
          ((s.resultBlock d k).take m)
        events := s.bufferEvents ⟨d, i, st⟩ k
          ++ readEvents (s.src.toNat + 16 * k) (s.sourceBlock k)
          ++ writeEvents (Modes.out ⟨d, i, st⟩ s + 16 * k) ((s.resultBlock d k).take m)
          ++ [.write (Modes.out ⟨d, i, st⟩ s + 16 * k + m) ((s.resultBlock d k).getD m 0) false] }

/-- R210. With BUS_ERR = never, no command ends with E_BUS. -/
def Obligations.NoBusErrorWhenMemoryNeverAnswersOne : Prop :=
  ∀ s t : State, s.params.busErr = false → s.status.errcode ≠ .bus → step s = .next t →
    t.status.errcode ≠ .bus

/-- R75, R246. A stream command whose sink does not accept holds its chunk on offer with BUSY = 1 and DONE = 0,
however often the engine is given time, and goes on to the same end when the sink accepts. First for a sink
that is not ready from the start; then for a sink that stops accepting at any block k, when BLKDONE = k and
the chunks of blocks 0 to k-1 are accepted. While a chunk is on offer sink_valid = 1 and byte m of the chunk
is on bits 8m+7 to 8m of sink_data. The pace, by which the sink's change comes between two engine steps, is
the model's own (notes/assumptions/1.md). -/
def Obligations.StreamWaitsForTheSinkThenCompletes : Prop :=
  (∀ (s : State) (d i : Bool), State.Ready ⟨d, i, true⟩ { s with sinkReady := true } →
    s.sinkReady = false → 0 < s.bufferBlocks → ∃ t : State,
      exec (bufferCommand true i d) s = .next t ∧ t.status.busy = true ∧ t.status.done = false ∧
      t.blkdone = 0 ∧ t.sunk = s.sunk ∧ t.sinkOut = some (s.resultBlock d 0) ∧
      (∀ n, run n t = .next t) ∧
      step { t with inbox := [.sinkReady true] } =
        .next { State.processed ⟨d, i, true⟩ { s with sinkReady := true } with inbox := [] }) ∧
  (∀ (s : State) (d i : Bool) (k : Nat), s.Ready ⟨d, i, true⟩ → k < s.bufferBlocks →
    ∃ (n : Nat) (t u : State),
      exec (bufferCommand true i d) { s with pace := some n } = .next t ∧
      t.play [.sinkReady false, .pace none] = .next u ∧
      u = { t with sinkReady := false, pace := none, inbox := [] } ∧
      u.status.busy = true ∧ u.status.done = false ∧ u.blkdone = BitVec.ofNat 32 k ∧
      u.sunk = s.sunk ++ (List.range k).map (s.resultBlock d) ∧
      u.sinkOut = some (s.resultBlock d k) ∧ (∀ m, run m u = .next u) ∧
      u.play [.sinkReady true] = .next { s.processed ⟨d, i, true⟩ with inbox := [] }) ∧
  (∀ (s : State) (chunk : List Byte), s.sinkOut = some chunk → chunk.length = 16 →
    s.sinkValid = true ∧ ∃ data, s.sinkData = some data ∧
      ∀ m, m < 16 → data.extractLsb' (8 * m) 8 = chunk.getD m 0) ∧
  ∀ s : State, s.sinkOut = none → s.sinkValid = false

/-! Properties of the buffer commands together. -/

/-- R182. The chunks a stream-only command emits, concatenated in order, are the bytes the copy command writes
at DST, and the in-place stream command emits the same and leaves the same at SRC. -/
def Obligations.StreamedChunksAreTheCopiedBytes : Prop :=
  ∀ (s t u v : State) (d : Bool), s.mem.wf = true →
    s.Ready ⟨d, false, false⟩ → s.Ready ⟨d, false, true⟩ → s.Ready ⟨d, true, true⟩ →
    exec (bufferCommand false false d) s = .next t →
    exec (bufferCommand true false d) s = .next u →
    exec (bufferCommand true true d) s = .next v →
    u.sunk = s.sunk ++ (u.sunk.drop s.sunk.length) ∧
    (u.sunk.drop s.sunk.length).flatten = t.mem.readBytes s.dst.toNat s.len.toNat ∧
    (v.sunk.drop s.sunk.length).flatten = t.mem.readBytes s.dst.toNat s.len.toNat ∧
    v.mem.readBytes s.src.toNat s.len.toNat = t.mem.readBytes s.dst.toNat s.len.toNat

/-- R179. A buffer command of any mode on a two-block buffer writes, and emits, what it writes and emits on each
of the two blocks by itself, one after the other. -/
def Obligations.BlocksAreTransformedIndependently : Prop :=
  ∀ (s s0 s1 t t0 t1 : State) (d i st : Bool), s.params.wellFormed = true → s.mem.wf = true →
    s.len = 32 → s.Ready ⟨d, i, st⟩ →
    s0 = { s with len := 16 } → s1 = { s with len := 16, src := s.src + 16 } →
    exec (bufferCommand st i d) s = .next t →
    exec (bufferCommand st i d) s0 = .next t0 → exec (bufferCommand st i d) s1 = .next t1 →
    (Modes.writes ⟨d, i, st⟩ = true → t.mem.readBytes (Modes.out ⟨d, i, st⟩ s) 32 =
      t0.mem.readBytes (Modes.out ⟨d, i, st⟩ s0) 16 ++ t1.mem.readBytes (Modes.out ⟨d, i, st⟩ s1) 16) ∧
    t.sunk.drop s.sunk.length = t0.sunk.drop s.sunk.length ++ t1.sunk.drop s.sunk.length

/-- R184. In place, the inverse command restores the buffer byte for byte, and with it the whole memory, in
both directions. -/
def Obligations.InPlaceRoundTripRestoresMemory : Prop :=
  ∀ (s t u : State) (d : Bool), s.mem.wf = true →
    s.Ready ⟨d, true, false⟩ → exec (bufferCommand false true d) s = .next t →
    exec (bufferCommand false true (!d)) t = .next u →
    u.mem = s.mem

/-- R184. A copy from X to Y followed by the inverse copy from Y to Z leaves X's bytes at Z, when the ranges do
not overlap. -/
def Obligations.CopyRoundTripRestoresTheBuffer : Prop :=
  ∀ (s t u : State) (z : Word) (d : Bool), s.mem.wf = true →
    s.Ready ⟨d, false, false⟩ → exec (bufferCommand false false d) s = .next t →
    State.Ready ⟨!d, false, false⟩ { t with src := s.dst, dst := z } →
    exec (bufferCommand false false (!d)) { t with src := s.dst, dst := z } = .next u →
    u.mem.readBytes z.toNat s.len.toNat = s.mem.readBytes s.src.toNat s.len.toNat

/-! The algorithm. -/

/-- R110 to R113. Word arithmetic wraps modulo 2^32, and xor is bit by bit. -/
def Obligations.WordArithmeticWraps : Prop :=
  ∀ a b : Word, (add a b).toNat = (a.toNat + b.toNat) % 2 ^ 32 ∧
    (sub a b).toNat = (2 ^ 32 + a.toNat - b.toNat) % 2 ^ 32 ∧
    (mul a b).toNat = (a.toNat * b.toNat) % 2 ^ 32 ∧
    (∀ n, (Machine.xor a b).getLsbD n = (a.getLsbD n ^^ b.getLsbD n)) ∧ sub (add a b) b = a

/-- R114, R115. The rotations as numbers, for every amount; only the amount mod 32 counts, and rotr undoes
rotl. -/
def Obligations.RotationsMoveTheBitPattern : Prop :=
  ∀ (x : Word) (n : Nat),
    (n % 32 ≠ 0 → (rotl x n).toNat =
      ((x.toNat <<< (n % 32)) ||| (x.toNat >>> (32 - n % 32))) % 2 ^ 32) ∧
    (n % 32 = 0 → rotl x n = x) ∧
    (n % 32 ≠ 0 → (rotr x n).toNat =
      ((x.toNat >>> (n % 32)) ||| (x.toNat <<< (32 - n % 32))) % 2 ^ 32) ∧
    (n % 32 = 0 → rotr x n = x) ∧
    rotr (rotl x n) n = x ∧ rotr x n = rotl x ((32 - n % 32) % 32)

/-- R61. Word i of a block is built from its bytes 4i to 4i+3, byte 4i the least significant, and blocks and 16
bytes correspond one to one. -/
def Obligations.BlockBytesAreLittleEndian : Prop :=
  (∀ b0 b1 b2 b3 b4 b5 b6 b7 b8 b9 b10 b11 b12 b13 b14 b15 : Byte,
    blockOfBytes [b0, b1, b2, b3, b4, b5, b6, b7, b8, b9, b10, b11, b12, b13, b14, b15] =
      ⟨packLe b0 b1 b2 b3, packLe b4 b5 b6 b7, packLe b8 b9 b10 b11, packLe b12 b13 b14 b15⟩) ∧
  (∀ b0 b1 b2 b3 : Byte, (packLe b0 b1 b2 b3).toNat =
    b0.toNat + 2 ^ 8 * b1.toNat + 2 ^ 16 * b2.toNat + 2 ^ 24 * b3.toNat) ∧
  (∀ x : Block, (bytesOfBlock x).length = 16 ∧ blockOfBytes (bytesOfBlock x) = x) ∧
  ∀ bs : List Byte, bs.length = 16 → bytesOfBlock (blockOfBytes bs) = bs

/-- R62. The secret is packed into ceil(n/4) key-words, little-endian, and padded with zero bytes. -/
def Obligations.KeyIsPackedWithZeroPadding : Prop :=
  ∀ key : List Byte, (keyPack key).length = (key.length + 3) / 4 ∧
    ∀ j m, j < (key.length + 3) / 4 → m < 4 →
      ((keyPack key).getD j 0).extractLsb' (8 * m) 8 =
        if 4 * j + m < key.length then key.getD (4 * j + m) 0 else 0

/-- R132. KeyInit(r) has 2r+4 words, and S[i] = (P + i·Q) mod 2^32. -/
def Obligations.KeyInitIsTheRampOfPAndQ : Prop :=
  ∀ r : Nat, (keyInit r).length = 2 * r + 4 ∧
    ∀ i, i < 2 * r + 4 → ((keyInit r).getD i 0).toNat = (0xB7E15163 + i * 0x9E3779B9) % 2 ^ 32

/-- R133, R134. One mixing step: the new A goes to S[i] and into the new B, which goes to L[j]; both indices
advance cyclically; every other word of S and L stays. KeyMix is 3·max(c, t) such steps from A = B = i = j =
0, and KeySchedule is KeyMix of KeyInit and KeyPack. -/
def Obligations.MixingStepWritesOneWordOfEach : Prop :=
  (∀ (t c : Nat) (x : Mix), x.i < x.table.length → x.j < x.l.length →
    (mixStep t c x).a = rotl (add (add (x.table.getD x.i 0) x.a) x.b) 3 ∧
    (mixStep t c x).b = rotl (add (add (x.l.getD x.j 0) (mixStep t c x).a) x.b)
      (add (mixStep t c x).a x.b).toNat ∧
    (mixStep t c x).table.getD x.i 0 = (mixStep t c x).a ∧
    (mixStep t c x).l.getD x.j 0 = (mixStep t c x).b ∧
    (∀ k, k ≠ x.i → (mixStep t c x).table.getD k 0 = x.table.getD k 0) ∧
    (∀ k, k ≠ x.j → (mixStep t c x).l.getD k 0 = x.l.getD k 0) ∧
    (mixStep t c x).i = (x.i + 1) % t ∧ (mixStep t c x).j = (x.j + 1) % c) ∧
  (∀ (table l : List Word) (r : Nat) (x : Nat → Mix), x 0 = ⟨table, l, 0, 0, 0, 0⟩ →
    (∀ n, n < 3 * max l.length (2 * r + 4) → x (n + 1) = mixStep (2 * r + 4) l.length (x n)) →
    keyMix table l r = (x (3 * max l.length (2 * r + 4))).table) ∧
  ∀ (key : List Byte) (r : Nat), keySchedule key r = keyMix (keyInit r) (keyPack key) r

/-- R150, R151, R153. f(x) = rotl(x·(2x+1), 5). RC6Enc is the whitening with S[0] and S[1], r rounds of R151, and
the whitening with S[2r+2] and S[2r+3]: `y i` is the block after i rounds, written in the operations of
32-bit words. And for every table, round count and block, RC6Dec and RC6Enc are inverses. -/
def Obligations.DecryptionInvertsEncryption : Prop :=
  (∀ x : Word, quad x = (x * (2 * x + 1)).rotateLeft 5) ∧
  (∀ (table : List Word) (r : Nat) (x : Block) (y : Nat → Block),
    y 0 = ⟨x.a, x.b + table.getD 0 0, x.c, x.d + table.getD 1 0⟩ →
    (∀ i, i < r → y (i + 1) =
      ⟨(y i).b,
       ((y i).c ^^^ quad (y i).d).rotateLeft ((quad (y i).b).toNat % 32) + table.getD (2 * (i + 1) + 1) 0,
       (y i).d,
       ((y i).a ^^^ quad (y i).b).rotateLeft ((quad (y i).d).toNat % 32) + table.getD (2 * (i + 1)) 0⟩) →
    rc6Enc table r x =
      ⟨(y r).a + table.getD (2 * r + 2) 0, (y r).b, (y r).c + table.getD (2 * r + 3) 0, (y r).d⟩) ∧
  ∀ (table : List Word) (r : Nat) (x : Block),
    rc6Dec table r (rc6Enc table r x) = x ∧ rc6Enc table r (rc6Dec table r x) = x

/-! What stays unchanged, at every pace, idle or busy, completed or not. -/

/-- R22, R44. No command changes an operand register, CTRL, the parameters or any input of the block. -/
def Obligations.NoCommandChangesTheOperandRegisters : Prop :=
  ∀ (i : Instr) (s t : State), exec i s = .next t →
    t.params = s.params ∧ t.rst = s.rst ∧ t.ie = s.ie ∧ t.rounds = s.rounds ∧
    t.keyaddr = s.keyaddr ∧ t.keylen = s.keylen ∧ t.src = s.src ∧ t.dst = s.dst ∧ t.len = s.len ∧
    t.din = s.din ∧ t.sinkReady = s.sinkReady ∧ t.errRegions = s.errRegions ∧
    t.readData = s.readData ∧ t.inbox = s.inbox ∧ t.pace = s.pace

/-- R46, R39, R65. What each kind of command leaves alone from acceptance on: only EXPAND touches the table,
RLATCH and KEYVALID; only ENCBLK and DECBLK touch DOUT; EXPAND, ENCBLK, DECBLK, ENCS and DECS leave all
of memory alone; CMDLOST is left alone by all. -/
def Obligations.EachCommandLeavesTheRestAlone : Prop :=
  ∀ (i : Instr) (s t : State), s.status.busy = false → exec i s = .next t →
    t.status.cmdlost = s.status.cmdlost ∧
    (i ≠ .expand → t.table = s.table ∧ t.rlatch = s.rlatch ∧ t.status.keyvalid = s.status.keyvalid) ∧
    (i ≠ .encblk → i ≠ .decblk → t.dout = s.dout) ∧
    (i ∈ [Instr.expand, .encblk, .decblk, .encs, .decs] → t.mem = s.mem) ∧
    (i ∈ [Instr.encblk, .decblk] → t.events = s.events) ∧
    (i ∈ [Instr.expand, .encblk, .decblk, .enc, .dec, .enci, .deci] → t.sunk = s.sunk)

/-- R65. A writing buffer command changes no byte outside [OUT, OUT+LEN): DST for ENC and DEC, SRC for the
in-place commands. -/
def Obligations.BufferCommandsWriteOnlyTheirTarget : Prop :=
  ∀ (s t : State) (a : Nat), s.status.busy = false →
    (∀ i ∈ [Instr.enc, .dec], exec i s = .next t →
      a < s.dst.toNat ∨ s.dst.toNat + s.len.toNat ≤ a → t.mem.read a = s.mem.read a) ∧
    (∀ i ∈ [Instr.enci, .deci, .encis, .decis], exec i s = .next t →
      a < s.src.toNat ∨ s.src.toNat + s.len.toNat ≤ a → t.mem.read a = s.mem.read a)

/-- R31, R40, R136. While an EXPAND is in its INIT or MIX phase (its share of engine steps ends there), KEYVALID
= 0, RLATCH reads 0 and every STAB word reads 0. The share m counts the model's engine steps: one for the
checks, one a key byte, one for INIT, one a mixing step (DESIGN CHOICE, notes/assumptions/1.md and 14.md). -/
def Obligations.TableIsHiddenWhileItIsBuilt : Prop :=
  ∀ (s t : State) (m : Nat), s.status.busy = false → s.KeyFits →
    s.answersAll .read s.keyaddr.toNat s.keylen.toNat → s.pace = some m →
    s.keylen.toNat + 2 ≤ m →
    m ≤ s.keylen.toNat + 2 + 3 * max ((s.keylen.toNat + 3) / 4) (2 * s.rounds.toNat + 4) →
    exec .expand s = .next t →
    t.status.busy = true ∧ t.status.keyvalid = false ∧ t.rd 0x01C = 0 ∧
      ∀ k, k < 768 → t.rd (0x400 + 4 * k) = 0

/-! The whole machine. -/

/-- R68, R73, R74, R77. Every outcome of a race is admitted, and none is picked. `old` is the byte at the address
until now, which nobody has written since acceptance. A host write that comes before the engine's read of the
byte is seen or not: the byte read is a free choice of v and old; one that comes after it is not seen. Of the
host's byte and the engine's result byte o either stays, in both orders. A host read of a destination byte
gets old before the engine's write, and a free choice of o and old after it: in general any byte written
there since acceptance or the one before, until the command has ended, whatever BLKDONE says. The free choice
(Config.freePick, notes/assumptions/23.md) can be each of its bytes and no other. A byte that does not belong
to the engine, as every byte once BUSY = 0, is ordinary memory. The pace is the model's own
(notes/assumptions/1.md). -/
def Obligations.RacingHostWriteIsSeenOrNot : Prop :=
  (∀ (bs : List Byte) (b : Byte), b ∈ bs ↔ bs ≠ [] ∧ ∃ n, pickByte n bs = b) ∧
  (∀ (s : State) (v old : Byte) (a : Nat), s.Unwritten a old → s.phase = .fetch → s.ownsByte a = true →
    a = s.hidden.lk.keyaddr.toNat + s.hidden.kse.key.length →
    a < 2 ^ s.params.addrW → s.answersError .read a = false →
    (∃ t, s.play [.pace (some 0), .memWrite a v, .pace (some 1)] = .next t ∧
      t.hidden.kse.key = s.hidden.kse.key ++ [pickByte (Config.freePick s.freeIdx) [v, old]] ∧
      t.mem.read a = v) ∧
    (∃ t, s.play [.pace (some 1), .pace (some 0), .memWrite a v] = .next t ∧
      t.hidden.kse.key = s.hidden.kse.key ++ [old] ∧ t.mem.read a = v)) ∧
  (∀ (s : State) (v old : Byte) (a : Nat), s.Unwritten a old → s.phase = .read → s.ownsByte a = true →
    a = s.hidden.lk.src.toNat + 16 * s.hidden.bsp.k + s.hidden.bsp.inp.length →
    a < 2 ^ s.params.addrW → s.answersError .read a = false →
    (∃ t, s.play [.pace (some 0), .memWrite a v, .pace (some 1)] = .next t ∧
      t.hidden.bsp.inp = s.hidden.bsp.inp ++ [pickByte (Config.freePick s.freeIdx) [v, old]] ∧
      t.mem.read a = v) ∧
    (∃ t, s.play [.pace (some 1), .pace (some 0), .memWrite a v] = .next t ∧
      t.hidden.bsp.inp = s.hidden.bsp.inp ++ [old] ∧ t.mem.read a = v)) ∧
  (∀ (s : State) (v o old : Byte) (a : Nat), s.Unwritten a old → s.phase = .write → s.targetsByte a = true →
    o = s.hidden.bsp.out.getD s.hidden.bsp.m 0 →
    a = s.hidden.lk.outAddr + 16 * s.hidden.bsp.k + s.hidden.bsp.m →
    a < 2 ^ s.params.addrW → s.answersError .write a = false →
    (∃ t, s.play [.pace (some 0), .memWrite a v, .pace (some 1)] = .next t ∧
      t.mem.read a = pickByte (Config.freePick s.freeIdx) [o, v]) ∧
    (∃ t, s.play [.pace (some 1), .pace (some 0), .memWrite a v] = .next t ∧
      t.mem.read a = pickByte (Config.freePick s.freeIdx) [v, o]) ∧
    (∃ t, s.play [.pace (some 0), .memRead a, .pace (some 1)] = .next t ∧
      t.readData = old.setWidth 32 ∧ t.mem.read a = o) ∧
    ∃ t, s.play [.pace (some 1), .pace (some 0), .memRead a] = .next t ∧
      t.readData = (pickByte (Config.freePick s.freeIdx) [o, old]).setWidth 32) ∧
  (∀ (s : State) (a : Nat) (rest : List Event), s.inbox = .memRead a :: rest → s.pace = some 0 →
    a < 2 ^ s.params.addrW → s.targetsByte a = true → s.engineBytes a ++ s.hostBytes a ≠ [] →
    step s = .next { s with
      inbox := rest
      readData := (pickByte (Config.freePick s.freeIdx)
        (s.engineBytes a ++ s.hostBytes a ++ [s.span.before.read a])).setWidth 32
      freeIdx := s.freeIdx + 1 }) ∧
  ∀ (s : State) (a : Nat) (v : Byte) (rest : List Event), s.pace = some 0 → a < 2 ^ s.params.addrW →
    (s.inbox = .memWrite a v :: rest → s.ownsByte a = false →
      step s = .next { s with inbox := rest, mem := s.mem.write a v }) ∧
    (s.inbox = .memRead a :: rest → s.targetsByte a = false →
      step s = .next { s with inbox := rest, readData := (s.mem.read a).setWidth 32 })

/-- R227, R243. An idle block with nothing coming stays as it is. -/
def Obligations.IdleBlockStaysAsItIs : Prop :=
  ∀ s : State, s.phase = .idle → s.inbox = [] → step s = .next s

/-- The state after reset meets the invariant. The reset values of S, of the hidden registers and of the inputs
are the model's choice (notes/assumptions/2.md and 8.md). -/
def Obligations.ResetMeetsTheInvariant : Prop := State.reset.Inv

/-- R27, R29, R45, R46, R53, R136, R202, R240. The invariant of Safety.lean is kept by every step from every
state that meets it: memory stays canonical, BUSY = 1 exactly while a command runs, DONE and ERR are 0
then, ERR goes with ERRCODE and ERRINFO, a chunk is on offer exactly while the engine waits for the
sink, the registers stand at reset while rst is asserted (notes/assumptions/2.md), and whenever KEYVALID = 1
the table is the schedule of a secret for RLATCH rounds. -/
def Obligations.EveryStepKeepsTheInvariant : Prop :=
  ∀ s t : State, s.Inv → step s = .next t → t.Inv

/-- R67, R208. From a state that meets the invariant no step stops, but for a memory access of another agent
outside the memory space: the checks keep every access of the engine inside it. That such an outside access
stops with a fault is the model's reading (DEDUCED, notes/assumptions/13.md). -/
def Obligations.EngineNeverLeavesTheMemorySpace : Prop :=
  ∀ s : State, s.Inv →
    (∃ t, step s = .next t) ∨
    ∃ addr e rest, s.inbox = e :: rest ∧ (e = .memRead addr ∨ ∃ v, e = .memWrite addr v) ∧
      2 ^ s.params.addrW ≤ addr ∧ step s = .fault (.outsideMemory addr)

/-- R183, R247. Given all the time it can use, the engine ends the running command or waits for the sink: from
every state that meets the invariant. -/
def Obligations.EveryCommandEndsOrWaitsForTheSink : Prop :=
  ∀ s t : State, s.Inv → s.pace = none → s.resume = .next t →
    t.phase = .idle ∨ (t.phase = .hold ∧ t.sinkReady = false)

/-- R248. After an accepted CMD write a STATUS read never sees BUSY = 0 with DONE = 0. -/
def Obligations.AcceptedCommandShowsBusyOrDone : Prop :=
  ∀ (i : Instr) (s t : State), s.Inv → s.status.busy = false → exec i s = .next t →
    t.status.busy = true ∨ t.status.done = true
end

