-- ==== Sys2Proof/Laws/Memory.lean ====
section
/-! SUPPORT. The laws of memory: every write keeps the canonical form, a read after a write to the same
address gives the byte written, and a write leaves every other address alone. -/

namespace Sys2Proof.Machine

theorem Memory.wf_nil : Memory.wf [] = true := rfl

/-- The canonical form, spelled out for a list with a first cell. -/
theorem Memory.wf_cons (a : Nat) (b : Byte) (m : Memory) :
    Memory.wf ((a, b) :: m) = true ↔
      (∀ c ∈ m, a < c.1) ∧ b ≠ Memory.unlisted ∧ Memory.wf m = true := by
  simp only [Memory.wf, List.pairwise_cons, List.all_cons, Bool.and_eq_true, decide_eq_true_eq,
    bne_iff_ne, ne_eq]
  tauto

/-- An address below every cell reads as unlisted. -/
theorem Memory.read_of_lt (m : Memory) (x : Nat) (h : ∀ c ∈ m, x < c.1) :
    m.read x = Memory.unlisted := by
  induction m with
  | nil => rfl
  | cons c m ih =>
    obtain ⟨a, b⟩ := c
    have hx : x < a := h (a, b) (by simp)
    simp only [Memory.read, if_neg (Nat.ne_of_lt hx)]
    exact ih fun c hc => h c (by simp [hc])

/-- The addresses of the cells after a write are the old ones and the written one. -/
theorem Memory.mem_write (m : Memory) (x : Nat) (v : Byte) :
    ∀ c ∈ m.write x v, c = (x, v) ∨ c ∈ m := by
  induction m with
  | nil =>
    simp only [Memory.write]
    split <;> simp
  | cons d m ih =>
    obtain ⟨a, b⟩ := d
    simp only [Memory.write]
    split_ifs with h1 h2 h3 h4
    · exact fun c hc => .inr hc
    · intro c hc
      simpa using hc
    · exact fun c hc => .inr (by simp [hc])
    · subst h3
      intro c hc
      rcases List.mem_cons.1 hc with h | h
      · exact .inl h
      · exact .inr (by simp [h])
    · intro c hc
      rcases List.mem_cons.1 hc with h | h
      · exact .inr (by simp [h])
      · rcases ih c h with h | h
        · exact .inl h
        · exact .inr (by simp [h])

/-- Every write keeps the canonical form. -/
theorem Memory.wf_write (m : Memory) (x : Nat) (v : Byte) (h : m.wf = true) :
    (m.write x v).wf = true := by
  induction m with
  | nil =>
    simp only [Memory.write]
    split_ifs with hv
    · exact h
    · simpa [Memory.wf_cons] using ⟨hv, Memory.wf_nil⟩
  | cons d m ih =>
    obtain ⟨a, b⟩ := d
    obtain ⟨hlt, hb, hm⟩ := (Memory.wf_cons a b m).1 h
    simp only [Memory.write]
    split_ifs with h1 h2 h3 h4
    · exact h
    · refine (Memory.wf_cons _ _ _).2 ⟨?_, h2, h⟩
      intro c hc
      rcases List.mem_cons.1 hc with e | e
      · simpa [e] using h1
      · exact Nat.lt_trans h1 (hlt c e)
    · exact hm
    · exact (Memory.wf_cons _ _ _).2 ⟨hlt, h4, hm⟩
    · refine (Memory.wf_cons _ _ _).2 ⟨?_, hb, ih hm⟩
      intro c hc
      rcases Memory.mem_write m x v c hc with e | e
      · simpa [e] using Nat.lt_of_le_of_ne (Nat.le_of_not_lt h1) (Ne.symm h3)
      · exact hlt c e

/-- A write leaves every other address alone. -/
theorem Memory.read_write_other (m : Memory) (x y : Nat) (v : Byte) (h : y ≠ x) :
    (m.write x v).read y = m.read y := by
  induction m with
  | nil =>
    simp only [Memory.write]
    split_ifs
    · rfl
    · simp [Memory.read, h]
  | cons d m ih =>
    obtain ⟨a, b⟩ := d
    simp only [Memory.write]
    split_ifs with h1 h2 h3 h4
    · rfl
    · simp [Memory.read, h]
    · simp [Memory.read, ← h3, h]
    · simp [Memory.read, ← h3, h]
    · simp [Memory.read, ih]

/-- A read after a write to the same address gives the byte written. -/
theorem Memory.read_write_same (m : Memory) (x : Nat) (v : Byte) (h : m.wf = true) :
    (m.write x v).read x = v := by
  induction m with
  | nil =>
    simp only [Memory.write]
    split_ifs with hv
    · exact hv.symm
    · simp [Memory.read]
  | cons d m ih =>
    obtain ⟨a, b⟩ := d
    obtain ⟨hlt, -, hm⟩ := (Memory.wf_cons a b m).1 h
    simp only [Memory.write]
    split_ifs with h1 h2 h3 h4
    · rw [h2]
      refine Memory.read_of_lt _ _ fun c hc => ?_
      rcases List.mem_cons.1 hc with e | e
      · simpa [e] using h1
      · exact Nat.lt_trans h1 (hlt c e)
    · simp [Memory.read]
    · rw [h4]
      exact Memory.read_of_lt _ _ (by simpa [h3] using hlt)
    · simp [Memory.read, h3]
    · simp [Memory.read, h3, ih hm]

theorem Memory.wf_writeBytes (bs : List Byte) (m : Memory) (x : Nat) (h : m.wf = true) :
    (m.writeBytes x bs).wf = true := by
  induction bs generalizing m x with
  | nil => exact h
  | cons v bs ih => exact ih _ _ (Memory.wf_write m x v h)

/-- Writing bytes leaves every address outside their range alone. -/
theorem Memory.read_writeBytes_other (bs : List Byte) (m : Memory) (x y : Nat)
    (h : y < x ∨ x + bs.length ≤ y) : (m.writeBytes x bs).read y = m.read y := by
  induction bs generalizing m x with
  | nil => rfl
  | cons v bs ih =>
    simp only [List.length_cons] at h
    rw [Memory.writeBytes, ih _ _ (by omega), Memory.read_write_other _ _ _ _ (by omega)]

/-- Reading inside the range of written bytes gives the byte written there. -/
theorem Memory.read_writeBytes_same (bs : List Byte) (m : Memory) (x k : Nat) (h : m.wf = true)
    (hk : k < bs.length) : (m.writeBytes x bs).read (x + k) = bs[k] := by
  induction bs generalizing m x k with
  | nil => simp at hk
  | cons v bs ih =>
    rw [Memory.writeBytes]
    cases k with
    | zero =>
      rw [Memory.read_writeBytes_other _ _ _ _ (by omega)]
      simpa using Memory.read_write_same m x v h
    | succ k =>
      rw [show x + (k + 1) = x + 1 + k by omega]
      simpa using ih _ _ _ (Memory.wf_write m x v h) (by simpa using hk)

theorem Memory.writeBytes_append (xs ys : List Byte) (m : Memory) (a : Nat) :
    m.writeBytes a (xs ++ ys) = (m.writeBytes a xs).writeBytes (a + xs.length) ys := by
  induction xs generalizing m a with
  | nil => rfl
  | cons v xs ih =>
    simp only [List.cons_append, Memory.writeBytes, List.length_cons]
    rw [ih, show a + 1 + xs.length = a + (xs.length + 1) by omega]

@[simp] theorem Memory.length_readBytes (m : Memory) (x n : Nat) : (m.readBytes x n).length = n := by
  simp [Memory.readBytes]

@[simp] theorem Memory.readBytes_zero (m : Memory) (x : Nat) : m.readBytes x 0 = [] := rfl

theorem Memory.getElem_readBytes (m : Memory) (x n k : Nat) (h : k < (m.readBytes x n).length) :
    (m.readBytes x n)[k] = m.read (x + k) := by
  simp [Memory.readBytes]

theorem Memory.readBytes_succ (m : Memory) (x n : Nat) :
    m.readBytes x (n + 1) = m.read x :: m.readBytes (x + 1) n := by
  simp only [Memory.readBytes, List.range_succ_eq_map, List.map_cons, List.map_map]
  congr 1
  refine List.map_congr_left fun k _ => ?_
  simp only [Function.comp]
  congr 1
  omega

theorem Memory.readBytes_append (m : Memory) (x n k : Nat) :
    m.readBytes x (n + k) = m.readBytes x n ++ m.readBytes (x + n) k := by
  induction n generalizing x with
  | zero => simp
  | succ n ih =>
    rw [show n + 1 + k = (n + k) + 1 by omega, Memory.readBytes_succ, Memory.readBytes_succ, ih,
      List.cons_append, show x + 1 + n = x + (n + 1) by omega]

/-- Two memories that agree on a range give the same bytes there. -/
theorem Memory.readBytes_congr (m m' : Memory) (x n : Nat)
    (h : ∀ y, x ≤ y → y < x + n → m.read y = m'.read y) : m.readBytes x n = m'.readBytes x n := by
  refine List.map_congr_left fun k hk => h _ (by omega) ?_
  have := List.mem_range.1 hk
  omega

/-- Reading back the range just written gives the bytes written. -/
theorem Memory.readBytes_writeBytes (bs : List Byte) (m : Memory) (x : Nat) (h : m.wf = true) :
    (m.writeBytes x bs).readBytes x bs.length = bs := by
  refine List.ext_getElem (by simp) fun k h1 h2 => ?_
  rw [Memory.getElem_readBytes, Memory.read_writeBytes_same _ _ _ _ h h2]

/-- Writing elsewhere leaves the bytes of a range alone. -/
theorem Memory.readBytes_writeBytes_other (bs : List Byte) (m : Memory) (x y n : Nat)
    (h : y + n ≤ x ∨ x + bs.length ≤ y) : (m.writeBytes x bs).readBytes y n = m.readBytes y n :=
  Memory.readBytes_congr _ _ _ _ fun _ h1 h2 => Memory.read_writeBytes_other _ _ _ _ (by omega)

/-- No write puts a cell outside a bound that its address and the old cells respect. -/
theorem Memory.write_below (m : Memory) (x : Nat) (v : Byte) (bound : Nat) (hx : x < bound)
    (h : ∀ c ∈ m, c.1 < bound) : ∀ c ∈ m.write x v, c.1 < bound := by
  intro c hc
  rcases Memory.mem_write m x v c hc with e | e
  · simpa [e] using hx
  · exact h c e

/-- The byte of a listed address is the one in its cell. -/
theorem Memory.read_of_mem (m : Memory) (c : Host.Cell) (h : m.wf = true) (hc : c ∈ m) :
    m.read c.1 = c.2 := by
  induction m with
  | nil => simp at hc
  | cons d m ih =>
    obtain ⟨a, b⟩ := d
    obtain ⟨hlt, -, hm⟩ := (Memory.wf_cons a b m).1 h
    rcases List.mem_cons.1 hc with e | e
    · simp [e, Memory.read]
    · rw [Memory.read, if_neg (Nat.ne_of_gt (hlt c e)), ih hm e]

/-- The form is canonical: two memories in it that read the same everywhere are the same list. -/
theorem Memory.ext (m m' : Memory) (h : m.wf = true) (h' : m'.wf = true)
    (heq : ∀ x, m.read x = m'.read x) : m = m' := by
  induction m generalizing m' with
  | nil =>
    cases m' with
    | nil => rfl
    | cons d m' =>
      obtain ⟨a, b⟩ := d
      have := heq a
      simp only [Memory.read, if_true] at this
      exact absurd this.symm ((Memory.wf_cons a b m').1 h').2.1
  | cons c m ih =>
    obtain ⟨a, b⟩ := c
    obtain ⟨hlt, hb, hm⟩ := (Memory.wf_cons a b m).1 h
    cases m' with
    | nil =>
      have := heq a
      simp only [Memory.read, if_true] at this
      exact absurd this hb
    | cons d m' =>
      obtain ⟨a', b'⟩ := d
      obtain ⟨hlt', hb', hm'⟩ := (Memory.wf_cons a' b' m').1 h'
      have ha : a = a' := by
        rcases Nat.lt_trichotomy a a' with hl | he | hg
        · have h1 := heq a
          rw [Memory.read_of_lt ((a', b') :: m') a (fun c hc => ?_)] at h1
          · simp only [Memory.read, if_true] at h1
            exact absurd h1 hb
          · rcases List.mem_cons.1 hc with e | e
            · simpa [e] using hl
            · exact Nat.lt_trans hl (hlt' c e)
        · exact he
        · have h1 := heq a'
          rw [Memory.read_of_lt ((a, b) :: m) a' (fun c hc => ?_)] at h1
          · simp only [Memory.read, if_true] at h1
            exact absurd h1.symm hb'
          · rcases List.mem_cons.1 hc with e | e
            · simpa [e] using hg
            · exact Nat.lt_trans hg (hlt c e)
      subst ha
      have hbb : b = b' := by simpa [Memory.read] using heq a
      subst hbb
      congr 1
      refine ih m' hm hm' fun x => ?_
      by_cases hx : x = a
      · subst hx
        rw [Memory.read_of_lt m x hlt, Memory.read_of_lt m' x hlt']
      · simpa [Memory.read, hx] using heq x

end Sys2Proof.Machine
end

