-- ==== Sys2Proof/Laws/State.lean ====
section
/-! SUPPORT. The fields of State after each named update, one lemma a field, all true by rfl: a proof reads
off a field and does not unfold an update. The flags of Status after each of its updates stand first. -/

namespace Sys2Proof.Machine

@[simp] theorem Status.accepted_busy (x : Status) : (x.accepted).busy = true := rfl
@[simp] theorem Status.accepted_done (x : Status) : (x.accepted).done = false := rfl
@[simp] theorem Status.accepted_err (x : Status) : (x.accepted).err = false := rfl
@[simp] theorem Status.accepted_keyvalid (x : Status) : (x.accepted).keyvalid = x.keyvalid := rfl
@[simp] theorem Status.accepted_cmdlost (x : Status) : (x.accepted).cmdlost = x.cmdlost := rfl
@[simp] theorem Status.accepted_errcode (x : Status) : (x.accepted).errcode = .noError := rfl

@[simp] theorem Status.succeeded_busy (x : Status) : (x.succeeded).busy = false := rfl
@[simp] theorem Status.succeeded_done (x : Status) : (x.succeeded).done = true := rfl
@[simp] theorem Status.succeeded_err (x : Status) : (x.succeeded).err = false := rfl
@[simp] theorem Status.succeeded_keyvalid (x : Status) : (x.succeeded).keyvalid = x.keyvalid := rfl
@[simp] theorem Status.succeeded_cmdlost (x : Status) : (x.succeeded).cmdlost = x.cmdlost := rfl
@[simp] theorem Status.succeeded_errcode (x : Status) : (x.succeeded).errcode = .noError := rfl

@[simp] theorem Status.failed_busy (code : ErrCode) (x : Status) : (x.failed code).busy = false := rfl
@[simp] theorem Status.failed_done (code : ErrCode) (x : Status) : (x.failed code).done = true := rfl
@[simp] theorem Status.failed_err (code : ErrCode) (x : Status) : (x.failed code).err = true := rfl
@[simp] theorem Status.failed_keyvalid (code : ErrCode) (x : Status) : (x.failed code).keyvalid = x.keyvalid := rfl
@[simp] theorem Status.failed_cmdlost (code : ErrCode) (x : Status) : (x.failed code).cmdlost = x.cmdlost := rfl
@[simp] theorem Status.failed_errcode (code : ErrCode) (x : Status) : (x.failed code).errcode = code := rfl

@[simp] theorem Status.written_busy (v : Word) (x : Status) : (x.written v).busy = x.busy := rfl
@[simp] theorem Status.written_done (v : Word) (x : Status) : (x.written v).done = (x.done && !v.getLsbD 1) := rfl
@[simp] theorem Status.written_err (v : Word) (x : Status) : (x.written v).err = x.err := rfl
@[simp] theorem Status.written_keyvalid (v : Word) (x : Status) : (x.written v).keyvalid = x.keyvalid := rfl
@[simp] theorem Status.written_cmdlost (v : Word) (x : Status) : (x.written v).cmdlost = (x.cmdlost && !v.getLsbD 4) := rfl
@[simp] theorem Status.written_errcode (v : Word) (x : Status) : (x.written v).errcode = x.errcode := rfl

@[simp] theorem State.note_params (e : PortEvent) (s : State) :
    (s.note e).params = s.params := rfl
@[simp] theorem State.note_rst (e : PortEvent) (s : State) :
    (s.note e).rst = s.rst := rfl
@[simp] theorem State.note_ie (e : PortEvent) (s : State) :
    (s.note e).ie = s.ie := rfl
@[simp] theorem State.note_status (e : PortEvent) (s : State) :
    (s.note e).status = s.status := rfl
@[simp] theorem State.note_errinfo (e : PortEvent) (s : State) :
    (s.note e).errinfo = s.errinfo := rfl
@[simp] theorem State.note_rounds (e : PortEvent) (s : State) :
    (s.note e).rounds = s.rounds := rfl
@[simp] theorem State.note_rlatch (e : PortEvent) (s : State) :
    (s.note e).rlatch = s.rlatch := rfl
@[simp] theorem State.note_keyaddr (e : PortEvent) (s : State) :
    (s.note e).keyaddr = s.keyaddr := rfl
@[simp] theorem State.note_keylen (e : PortEvent) (s : State) :
    (s.note e).keylen = s.keylen := rfl
@[simp] theorem State.note_src (e : PortEvent) (s : State) :
    (s.note e).src = s.src := rfl
@[simp] theorem State.note_dst (e : PortEvent) (s : State) :
    (s.note e).dst = s.dst := rfl
@[simp] theorem State.note_len (e : PortEvent) (s : State) :
    (s.note e).len = s.len := rfl
@[simp] theorem State.note_blkdone (e : PortEvent) (s : State) :
    (s.note e).blkdone = s.blkdone := rfl
@[simp] theorem State.note_din (e : PortEvent) (s : State) :
    (s.note e).din = s.din := rfl
@[simp] theorem State.note_dout (e : PortEvent) (s : State) :
    (s.note e).dout = s.dout := rfl
@[simp] theorem State.note_table (e : PortEvent) (s : State) :
    (s.note e).table = s.table := rfl
@[simp] theorem State.note_phase (e : PortEvent) (s : State) :
    (s.note e).phase = s.phase := rfl
@[simp] theorem State.note_hidden (e : PortEvent) (s : State) :
    (s.note e).hidden = s.hidden := rfl
@[simp] theorem State.note_sinkOut (e : PortEvent) (s : State) :
    (s.note e).sinkOut = s.sinkOut := rfl
@[simp] theorem State.note_sinkReady (e : PortEvent) (s : State) :
    (s.note e).sinkReady = s.sinkReady := rfl
@[simp] theorem State.note_mem (e : PortEvent) (s : State) :
    (s.note e).mem = s.mem := rfl
@[simp] theorem State.note_errRegions (e : PortEvent) (s : State) :
    (s.note e).errRegions = s.errRegions := rfl
@[simp] theorem State.note_events (e : PortEvent) (s : State) :
    (s.note e).events = s.events ++ [e] := rfl
@[simp] theorem State.note_readData (e : PortEvent) (s : State) :
    (s.note e).readData = s.readData := rfl
@[simp] theorem State.note_inbox (e : PortEvent) (s : State) :
    (s.note e).inbox = s.inbox := rfl
@[simp] theorem State.note_pace (e : PortEvent) (s : State) :
    (s.note e).pace = s.pace := rfl
@[simp] theorem State.note_span (e : PortEvent) (s : State) :
    (s.note e).span = s.span := rfl
@[simp] theorem State.note_freeIdx (e : PortEvent) (s : State) :
    (s.note e).freeIdx = s.freeIdx := rfl

@[simp] theorem State.release_params (s : State) :
    (s.release).params = s.params := rfl
@[simp] theorem State.release_rst (s : State) :
    (s.release).rst = s.rst := rfl
@[simp] theorem State.release_ie (s : State) :
    (s.release).ie = s.ie := rfl
@[simp] theorem State.release_status (s : State) :
    (s.release).status = s.status := rfl
@[simp] theorem State.release_errinfo (s : State) :
    (s.release).errinfo = s.errinfo := rfl
@[simp] theorem State.release_rounds (s : State) :
    (s.release).rounds = s.rounds := rfl
@[simp] theorem State.release_rlatch (s : State) :
    (s.release).rlatch = s.rlatch := rfl
@[simp] theorem State.release_keyaddr (s : State) :
    (s.release).keyaddr = s.keyaddr := rfl
@[simp] theorem State.release_keylen (s : State) :
    (s.release).keylen = s.keylen := rfl
@[simp] theorem State.release_src (s : State) :
    (s.release).src = s.src := rfl
@[simp] theorem State.release_dst (s : State) :
    (s.release).dst = s.dst := rfl
@[simp] theorem State.release_len (s : State) :
    (s.release).len = s.len := rfl
@[simp] theorem State.release_blkdone (s : State) :
    (s.release).blkdone = s.blkdone := rfl
@[simp] theorem State.release_din (s : State) :
    (s.release).din = s.din := rfl
@[simp] theorem State.release_dout (s : State) :
    (s.release).dout = s.dout := rfl
@[simp] theorem State.release_table (s : State) :
    (s.release).table = s.table := rfl
@[simp] theorem State.release_phase (s : State) :
    (s.release).phase = .idle := rfl
@[simp] theorem State.release_hidden (s : State) :
    (s.release).hidden = Config.freeHidden s.freeIdx := rfl
@[simp] theorem State.release_sinkOut (s : State) :
    (s.release).sinkOut = s.sinkOut := rfl
@[simp] theorem State.release_sinkReady (s : State) :
    (s.release).sinkReady = s.sinkReady := rfl
@[simp] theorem State.release_mem (s : State) :
    (s.release).mem = s.mem := rfl
@[simp] theorem State.release_errRegions (s : State) :
    (s.release).errRegions = s.errRegions := rfl
@[simp] theorem State.release_events (s : State) :
    (s.release).events = s.events := rfl
@[simp] theorem State.release_readData (s : State) :
    (s.release).readData = s.readData := rfl
@[simp] theorem State.release_inbox (s : State) :
    (s.release).inbox = s.inbox := rfl
@[simp] theorem State.release_pace (s : State) :
    (s.release).pace = s.pace := rfl
@[simp] theorem State.release_span (s : State) :
    (s.release).span = Span.none := rfl
@[simp] theorem State.release_freeIdx (s : State) :
    (s.release).freeIdx = s.freeIdx + 1 := rfl

@[simp] theorem State.raiseError_params (code : ErrCode) (info : Word) (s : State) :
    (s.raiseError code info).params = s.params := rfl
@[simp] theorem State.raiseError_rst (code : ErrCode) (info : Word) (s : State) :
    (s.raiseError code info).rst = s.rst := rfl
@[simp] theorem State.raiseError_ie (code : ErrCode) (info : Word) (s : State) :
    (s.raiseError code info).ie = s.ie := rfl
@[simp] theorem State.raiseError_status (code : ErrCode) (info : Word) (s : State) :
    (s.raiseError code info).status = s.status.failed code := rfl
@[simp] theorem State.raiseError_errinfo (code : ErrCode) (info : Word) (s : State) :
    (s.raiseError code info).errinfo = info := rfl
@[simp] theorem State.raiseError_rounds (code : ErrCode) (info : Word) (s : State) :
    (s.raiseError code info).rounds = s.rounds := rfl
@[simp] theorem State.raiseError_rlatch (code : ErrCode) (info : Word) (s : State) :
    (s.raiseError code info).rlatch = s.rlatch := rfl
@[simp] theorem State.raiseError_keyaddr (code : ErrCode) (info : Word) (s : State) :
    (s.raiseError code info).keyaddr = s.keyaddr := rfl
@[simp] theorem State.raiseError_keylen (code : ErrCode) (info : Word) (s : State) :
    (s.raiseError code info).keylen = s.keylen := rfl
@[simp] theorem State.raiseError_src (code : ErrCode) (info : Word) (s : State) :
    (s.raiseError code info).src = s.src := rfl
@[simp] theorem State.raiseError_dst (code : ErrCode) (info : Word) (s : State) :
    (s.raiseError code info).dst = s.dst := rfl
@[simp] theorem State.raiseError_len (code : ErrCode) (info : Word) (s : State) :
    (s.raiseError code info).len = s.len := rfl
@[simp] theorem State.raiseError_blkdone (code : ErrCode) (info : Word) (s : State) :
    (s.raiseError code info).blkdone = s.blkdone := rfl
@[simp] theorem State.raiseError_din (code : ErrCode) (info : Word) (s : State) :
    (s.raiseError code info).din = s.din := rfl
@[simp] theorem State.raiseError_dout (code : ErrCode) (info : Word) (s : State) :
    (s.raiseError code info).dout = s.dout := rfl
@[simp] theorem State.raiseError_table (code : ErrCode) (info : Word) (s : State) :
    (s.raiseError code info).table = s.table := rfl
@[simp] theorem State.raiseError_phase (code : ErrCode) (info : Word) (s : State) :
    (s.raiseError code info).phase = .idle := rfl
@[simp] theorem State.raiseError_hidden (code : ErrCode) (info : Word) (s : State) :
    (s.raiseError code info).hidden = Config.freeHidden s.freeIdx := rfl
@[simp] theorem State.raiseError_sinkOut (code : ErrCode) (info : Word) (s : State) :
    (s.raiseError code info).sinkOut = s.sinkOut := rfl
@[simp] theorem State.raiseError_sinkReady (code : ErrCode) (info : Word) (s : State) :
    (s.raiseError code info).sinkReady = s.sinkReady := rfl
@[simp] theorem State.raiseError_mem (code : ErrCode) (info : Word) (s : State) :
    (s.raiseError code info).mem = s.mem := rfl
@[simp] theorem State.raiseError_errRegions (code : ErrCode) (info : Word) (s : State) :
    (s.raiseError code info).errRegions = s.errRegions := rfl
@[simp] theorem State.raiseError_events (code : ErrCode) (info : Word) (s : State) :
    (s.raiseError code info).events = s.events := rfl
@[simp] theorem State.raiseError_readData (code : ErrCode) (info : Word) (s : State) :
    (s.raiseError code info).readData = s.readData := rfl
@[simp] theorem State.raiseError_inbox (code : ErrCode) (info : Word) (s : State) :
    (s.raiseError code info).inbox = s.inbox := rfl
@[simp] theorem State.raiseError_pace (code : ErrCode) (info : Word) (s : State) :
    (s.raiseError code info).pace = s.pace := rfl
@[simp] theorem State.raiseError_span (code : ErrCode) (info : Word) (s : State) :
    (s.raiseError code info).span = Span.none := rfl
@[simp] theorem State.raiseError_freeIdx (code : ErrCode) (info : Word) (s : State) :
    (s.raiseError code info).freeIdx = s.freeIdx + 1 := rfl

@[simp] theorem State.complete_params (s : State) :
    (s.complete).params = s.params := rfl
@[simp] theorem State.complete_rst (s : State) :
    (s.complete).rst = s.rst := rfl
@[simp] theorem State.complete_ie (s : State) :
    (s.complete).ie = s.ie := rfl
@[simp] theorem State.complete_status (s : State) :
    (s.complete).status = s.status.succeeded := rfl
@[simp] theorem State.complete_errinfo (s : State) :
    (s.complete).errinfo = 0 := rfl
@[simp] theorem State.complete_rounds (s : State) :
    (s.complete).rounds = s.rounds := rfl
@[simp] theorem State.complete_rlatch (s : State) :
    (s.complete).rlatch = s.rlatch := rfl
@[simp] theorem State.complete_keyaddr (s : State) :
    (s.complete).keyaddr = s.keyaddr := rfl
@[simp] theorem State.complete_keylen (s : State) :
    (s.complete).keylen = s.keylen := rfl
@[simp] theorem State.complete_src (s : State) :
    (s.complete).src = s.src := rfl
@[simp] theorem State.complete_dst (s : State) :
    (s.complete).dst = s.dst := rfl
@[simp] theorem State.complete_len (s : State) :
    (s.complete).len = s.len := rfl
@[simp] theorem State.complete_blkdone (s : State) :
    (s.complete).blkdone = s.blkdone := rfl
@[simp] theorem State.complete_din (s : State) :
    (s.complete).din = s.din := rfl
@[simp] theorem State.complete_dout (s : State) :
    (s.complete).dout = s.dout := rfl
@[simp] theorem State.complete_table (s : State) :
    (s.complete).table = s.table := rfl
@[simp] theorem State.complete_phase (s : State) :
    (s.complete).phase = .idle := rfl
@[simp] theorem State.complete_hidden (s : State) :
    (s.complete).hidden = Config.freeHidden s.freeIdx := rfl
@[simp] theorem State.complete_sinkOut (s : State) :
    (s.complete).sinkOut = s.sinkOut := rfl
@[simp] theorem State.complete_sinkReady (s : State) :
    (s.complete).sinkReady = s.sinkReady := rfl
@[simp] theorem State.complete_mem (s : State) :
    (s.complete).mem = s.mem := rfl
@[simp] theorem State.complete_errRegions (s : State) :
    (s.complete).errRegions = s.errRegions := rfl
@[simp] theorem State.complete_events (s : State) :
    (s.complete).events = s.events := rfl
@[simp] theorem State.complete_readData (s : State) :
    (s.complete).readData = s.readData := rfl
@[simp] theorem State.complete_inbox (s : State) :
    (s.complete).inbox = s.inbox := rfl
@[simp] theorem State.complete_pace (s : State) :
    (s.complete).pace = s.pace := rfl
@[simp] theorem State.complete_span (s : State) :
    (s.complete).span = Span.none := rfl
@[simp] theorem State.complete_freeIdx (s : State) :
    (s.complete).freeIdx = s.freeIdx + 1 := rfl

@[simp] theorem State.accept_params (w : Word) (s : State) :
    (s.accept w).params = s.params := rfl
@[simp] theorem State.accept_rst (w : Word) (s : State) :
    (s.accept w).rst = s.rst := rfl
@[simp] theorem State.accept_ie (w : Word) (s : State) :
    (s.accept w).ie = s.ie := rfl
@[simp] theorem State.accept_status (w : Word) (s : State) :
    (s.accept w).status = s.status.accepted := rfl
@[simp] theorem State.accept_errinfo (w : Word) (s : State) :
    (s.accept w).errinfo = 0 := rfl
@[simp] theorem State.accept_rounds (w : Word) (s : State) :
    (s.accept w).rounds = s.rounds := rfl
@[simp] theorem State.accept_rlatch (w : Word) (s : State) :
    (s.accept w).rlatch = s.rlatch := rfl
@[simp] theorem State.accept_keyaddr (w : Word) (s : State) :
    (s.accept w).keyaddr = s.keyaddr := rfl
@[simp] theorem State.accept_keylen (w : Word) (s : State) :
    (s.accept w).keylen = s.keylen := rfl
@[simp] theorem State.accept_src (w : Word) (s : State) :
    (s.accept w).src = s.src := rfl
@[simp] theorem State.accept_dst (w : Word) (s : State) :
    (s.accept w).dst = s.dst := rfl
@[simp] theorem State.accept_len (w : Word) (s : State) :
    (s.accept w).len = s.len := rfl
@[simp] theorem State.accept_blkdone (w : Word) (s : State) :
    (s.accept w).blkdone = 0 := rfl
@[simp] theorem State.accept_din (w : Word) (s : State) :
    (s.accept w).din = s.din := rfl
@[simp] theorem State.accept_dout (w : Word) (s : State) :
    (s.accept w).dout = s.dout := rfl
@[simp] theorem State.accept_table (w : Word) (s : State) :
    (s.accept w).table = s.table := rfl
@[simp] theorem State.accept_phase (w : Word) (s : State) :
    (s.accept w).phase = .check := rfl
@[simp] theorem State.accept_hidden (w : Word) (s : State) :
    (s.accept w).hidden = { s.hidden with lk := s.latches w } := rfl
@[simp] theorem State.accept_sinkOut (w : Word) (s : State) :
    (s.accept w).sinkOut = s.sinkOut := rfl
@[simp] theorem State.accept_sinkReady (w : Word) (s : State) :
    (s.accept w).sinkReady = s.sinkReady := rfl
@[simp] theorem State.accept_mem (w : Word) (s : State) :
    (s.accept w).mem = s.mem := rfl
@[simp] theorem State.accept_errRegions (w : Word) (s : State) :
    (s.accept w).errRegions = s.errRegions := rfl
@[simp] theorem State.accept_events (w : Word) (s : State) :
    (s.accept w).events = s.events := rfl
@[simp] theorem State.accept_readData (w : Word) (s : State) :
    (s.accept w).readData = s.readData := rfl
@[simp] theorem State.accept_inbox (w : Word) (s : State) :
    (s.accept w).inbox = s.inbox := rfl
@[simp] theorem State.accept_pace (w : Word) (s : State) :
    (s.accept w).pace = s.pace := rfl
@[simp] theorem State.accept_span (w : Word) (s : State) :
    (s.accept w).span = ⟨s.mem, s.events.length, []⟩ := rfl
@[simp] theorem State.accept_freeIdx (w : Word) (s : State) :
    (s.accept w).freeIdx = s.freeIdx := rfl

@[simp] theorem State.dropCommand_params (s : State) :
    (s.dropCommand).params = s.params := rfl
@[simp] theorem State.dropCommand_rst (s : State) :
    (s.dropCommand).rst = s.rst := rfl
@[simp] theorem State.dropCommand_ie (s : State) :
    (s.dropCommand).ie = s.ie := rfl
@[simp] theorem State.dropCommand_status (s : State) :
    (s.dropCommand).status = { s.status with cmdlost := true } := rfl
@[simp] theorem State.dropCommand_errinfo (s : State) :
    (s.dropCommand).errinfo = s.errinfo := rfl
@[simp] theorem State.dropCommand_rounds (s : State) :
    (s.dropCommand).rounds = s.rounds := rfl
@[simp] theorem State.dropCommand_rlatch (s : State) :
    (s.dropCommand).rlatch = s.rlatch := rfl
@[simp] theorem State.dropCommand_keyaddr (s : State) :
    (s.dropCommand).keyaddr = s.keyaddr := rfl
@[simp] theorem State.dropCommand_keylen (s : State) :
    (s.dropCommand).keylen = s.keylen := rfl
@[simp] theorem State.dropCommand_src (s : State) :
    (s.dropCommand).src = s.src := rfl
@[simp] theorem State.dropCommand_dst (s : State) :
    (s.dropCommand).dst = s.dst := rfl
@[simp] theorem State.dropCommand_len (s : State) :
    (s.dropCommand).len = s.len := rfl
@[simp] theorem State.dropCommand_blkdone (s : State) :
    (s.dropCommand).blkdone = s.blkdone := rfl
@[simp] theorem State.dropCommand_din (s : State) :
    (s.dropCommand).din = s.din := rfl
@[simp] theorem State.dropCommand_dout (s : State) :
    (s.dropCommand).dout = s.dout := rfl
@[simp] theorem State.dropCommand_table (s : State) :
    (s.dropCommand).table = s.table := rfl
@[simp] theorem State.dropCommand_phase (s : State) :
    (s.dropCommand).phase = s.phase := rfl
@[simp] theorem State.dropCommand_hidden (s : State) :
    (s.dropCommand).hidden = s.hidden := rfl
@[simp] theorem State.dropCommand_sinkOut (s : State) :
    (s.dropCommand).sinkOut = s.sinkOut := rfl
@[simp] theorem State.dropCommand_sinkReady (s : State) :
    (s.dropCommand).sinkReady = s.sinkReady := rfl
@[simp] theorem State.dropCommand_mem (s : State) :
    (s.dropCommand).mem = s.mem := rfl
@[simp] theorem State.dropCommand_errRegions (s : State) :
    (s.dropCommand).errRegions = s.errRegions := rfl
@[simp] theorem State.dropCommand_events (s : State) :
    (s.dropCommand).events = s.events := rfl
@[simp] theorem State.dropCommand_readData (s : State) :
    (s.dropCommand).readData = s.readData := rfl
@[simp] theorem State.dropCommand_inbox (s : State) :
    (s.dropCommand).inbox = s.inbox := rfl
@[simp] theorem State.dropCommand_pace (s : State) :
    (s.dropCommand).pace = s.pace := rfl
@[simp] theorem State.dropCommand_span (s : State) :
    (s.dropCommand).span = s.span := rfl
@[simp] theorem State.dropCommand_freeIdx (s : State) :
    (s.dropCommand).freeIdx = s.freeIdx := rfl

@[simp] theorem State.setRte_params (x : Rte) (s : State) :
    (s.setRte x).params = s.params := rfl
@[simp] theorem State.setRte_rst (x : Rte) (s : State) :
    (s.setRte x).rst = s.rst := rfl
@[simp] theorem State.setRte_ie (x : Rte) (s : State) :
    (s.setRte x).ie = s.ie := rfl
@[simp] theorem State.setRte_status (x : Rte) (s : State) :
    (s.setRte x).status = s.status := rfl
@[simp] theorem State.setRte_errinfo (x : Rte) (s : State) :
    (s.setRte x).errinfo = s.errinfo := rfl
@[simp] theorem State.setRte_rounds (x : Rte) (s : State) :
    (s.setRte x).rounds = s.rounds := rfl
@[simp] theorem State.setRte_rlatch (x : Rte) (s : State) :
    (s.setRte x).rlatch = s.rlatch := rfl
@[simp] theorem State.setRte_keyaddr (x : Rte) (s : State) :
    (s.setRte x).keyaddr = s.keyaddr := rfl
@[simp] theorem State.setRte_keylen (x : Rte) (s : State) :
    (s.setRte x).keylen = s.keylen := rfl
@[simp] theorem State.setRte_src (x : Rte) (s : State) :
    (s.setRte x).src = s.src := rfl
@[simp] theorem State.setRte_dst (x : Rte) (s : State) :
    (s.setRte x).dst = s.dst := rfl
@[simp] theorem State.setRte_len (x : Rte) (s : State) :
    (s.setRte x).len = s.len := rfl
@[simp] theorem State.setRte_blkdone (x : Rte) (s : State) :
    (s.setRte x).blkdone = s.blkdone := rfl
@[simp] theorem State.setRte_din (x : Rte) (s : State) :
    (s.setRte x).din = s.din := rfl
@[simp] theorem State.setRte_dout (x : Rte) (s : State) :
    (s.setRte x).dout = s.dout := rfl
@[simp] theorem State.setRte_table (x : Rte) (s : State) :
    (s.setRte x).table = s.table := rfl
@[simp] theorem State.setRte_phase (x : Rte) (s : State) :
    (s.setRte x).phase = s.phase := rfl
@[simp] theorem State.setRte_hidden (x : Rte) (s : State) :
    (s.setRte x).hidden = { s.hidden with rte := x } := rfl
@[simp] theorem State.setRte_sinkOut (x : Rte) (s : State) :
    (s.setRte x).sinkOut = s.sinkOut := rfl
@[simp] theorem State.setRte_sinkReady (x : Rte) (s : State) :
    (s.setRte x).sinkReady = s.sinkReady := rfl
@[simp] theorem State.setRte_mem (x : Rte) (s : State) :
    (s.setRte x).mem = s.mem := rfl
@[simp] theorem State.setRte_errRegions (x : Rte) (s : State) :
    (s.setRte x).errRegions = s.errRegions := rfl
@[simp] theorem State.setRte_events (x : Rte) (s : State) :
    (s.setRte x).events = s.events := rfl
@[simp] theorem State.setRte_readData (x : Rte) (s : State) :
    (s.setRte x).readData = s.readData := rfl
@[simp] theorem State.setRte_inbox (x : Rte) (s : State) :
    (s.setRte x).inbox = s.inbox := rfl
@[simp] theorem State.setRte_pace (x : Rte) (s : State) :
    (s.setRte x).pace = s.pace := rfl
@[simp] theorem State.setRte_span (x : Rte) (s : State) :
    (s.setRte x).span = s.span := rfl
@[simp] theorem State.setRte_freeIdx (x : Rte) (s : State) :
    (s.setRte x).freeIdx = s.freeIdx := rfl

@[simp] theorem State.setBsp_params (x : Bsp) (s : State) :
    (s.setBsp x).params = s.params := rfl
@[simp] theorem State.setBsp_rst (x : Bsp) (s : State) :
    (s.setBsp x).rst = s.rst := rfl
@[simp] theorem State.setBsp_ie (x : Bsp) (s : State) :
    (s.setBsp x).ie = s.ie := rfl
@[simp] theorem State.setBsp_status (x : Bsp) (s : State) :
    (s.setBsp x).status = s.status := rfl
@[simp] theorem State.setBsp_errinfo (x : Bsp) (s : State) :
    (s.setBsp x).errinfo = s.errinfo := rfl
@[simp] theorem State.setBsp_rounds (x : Bsp) (s : State) :
    (s.setBsp x).rounds = s.rounds := rfl
@[simp] theorem State.setBsp_rlatch (x : Bsp) (s : State) :
    (s.setBsp x).rlatch = s.rlatch := rfl
@[simp] theorem State.setBsp_keyaddr (x : Bsp) (s : State) :
    (s.setBsp x).keyaddr = s.keyaddr := rfl
@[simp] theorem State.setBsp_keylen (x : Bsp) (s : State) :
    (s.setBsp x).keylen = s.keylen := rfl
@[simp] theorem State.setBsp_src (x : Bsp) (s : State) :
    (s.setBsp x).src = s.src := rfl
@[simp] theorem State.setBsp_dst (x : Bsp) (s : State) :
    (s.setBsp x).dst = s.dst := rfl
@[simp] theorem State.setBsp_len (x : Bsp) (s : State) :
    (s.setBsp x).len = s.len := rfl
@[simp] theorem State.setBsp_blkdone (x : Bsp) (s : State) :
    (s.setBsp x).blkdone = s.blkdone := rfl
@[simp] theorem State.setBsp_din (x : Bsp) (s : State) :
    (s.setBsp x).din = s.din := rfl
@[simp] theorem State.setBsp_dout (x : Bsp) (s : State) :
    (s.setBsp x).dout = s.dout := rfl
@[simp] theorem State.setBsp_table (x : Bsp) (s : State) :
    (s.setBsp x).table = s.table := rfl
@[simp] theorem State.setBsp_phase (x : Bsp) (s : State) :
    (s.setBsp x).phase = s.phase := rfl
@[simp] theorem State.setBsp_hidden (x : Bsp) (s : State) :
    (s.setBsp x).hidden = { s.hidden with bsp := x } := rfl
@[simp] theorem State.setBsp_sinkOut (x : Bsp) (s : State) :
    (s.setBsp x).sinkOut = s.sinkOut := rfl
@[simp] theorem State.setBsp_sinkReady (x : Bsp) (s : State) :
    (s.setBsp x).sinkReady = s.sinkReady := rfl
@[simp] theorem State.setBsp_mem (x : Bsp) (s : State) :
    (s.setBsp x).mem = s.mem := rfl
@[simp] theorem State.setBsp_errRegions (x : Bsp) (s : State) :
    (s.setBsp x).errRegions = s.errRegions := rfl
@[simp] theorem State.setBsp_events (x : Bsp) (s : State) :
    (s.setBsp x).events = s.events := rfl
@[simp] theorem State.setBsp_readData (x : Bsp) (s : State) :
    (s.setBsp x).readData = s.readData := rfl
@[simp] theorem State.setBsp_inbox (x : Bsp) (s : State) :
    (s.setBsp x).inbox = s.inbox := rfl
@[simp] theorem State.setBsp_pace (x : Bsp) (s : State) :
    (s.setBsp x).pace = s.pace := rfl
@[simp] theorem State.setBsp_span (x : Bsp) (s : State) :
    (s.setBsp x).span = s.span := rfl
@[simp] theorem State.setBsp_freeIdx (x : Bsp) (s : State) :
    (s.setBsp x).freeIdx = s.freeIdx := rfl

@[simp] theorem State.toBlock_params (k : Nat) (s : State) :
    (s.toBlock k).params = s.params := rfl
@[simp] theorem State.toBlock_rst (k : Nat) (s : State) :
    (s.toBlock k).rst = s.rst := rfl
@[simp] theorem State.toBlock_ie (k : Nat) (s : State) :
    (s.toBlock k).ie = s.ie := rfl
@[simp] theorem State.toBlock_status (k : Nat) (s : State) :
    (s.toBlock k).status = s.status := rfl
@[simp] theorem State.toBlock_errinfo (k : Nat) (s : State) :
    (s.toBlock k).errinfo = s.errinfo := rfl
@[simp] theorem State.toBlock_rounds (k : Nat) (s : State) :
    (s.toBlock k).rounds = s.rounds := rfl
@[simp] theorem State.toBlock_rlatch (k : Nat) (s : State) :
    (s.toBlock k).rlatch = s.rlatch := rfl
@[simp] theorem State.toBlock_keyaddr (k : Nat) (s : State) :
    (s.toBlock k).keyaddr = s.keyaddr := rfl
@[simp] theorem State.toBlock_keylen (k : Nat) (s : State) :
    (s.toBlock k).keylen = s.keylen := rfl
@[simp] theorem State.toBlock_src (k : Nat) (s : State) :
    (s.toBlock k).src = s.src := rfl
@[simp] theorem State.toBlock_dst (k : Nat) (s : State) :
    (s.toBlock k).dst = s.dst := rfl
@[simp] theorem State.toBlock_len (k : Nat) (s : State) :
    (s.toBlock k).len = s.len := rfl
@[simp] theorem State.toBlock_blkdone (k : Nat) (s : State) :
    (s.toBlock k).blkdone = s.blkdone := rfl
@[simp] theorem State.toBlock_din (k : Nat) (s : State) :
    (s.toBlock k).din = s.din := rfl
@[simp] theorem State.toBlock_dout (k : Nat) (s : State) :
    (s.toBlock k).dout = s.dout := rfl
@[simp] theorem State.toBlock_table (k : Nat) (s : State) :
    (s.toBlock k).table = s.table := rfl
@[simp] theorem State.toBlock_phase (k : Nat) (s : State) :
    (s.toBlock k).phase = if k < s.hidden.lk.blocks then .read else .finish := rfl
@[simp] theorem State.toBlock_hidden (k : Nat) (s : State) :
    (s.toBlock k).hidden = { s.hidden with bsp := { s.hidden.bsp with k := k, inp := [] } } := rfl
@[simp] theorem State.toBlock_sinkOut (k : Nat) (s : State) :
    (s.toBlock k).sinkOut = s.sinkOut := rfl
@[simp] theorem State.toBlock_sinkReady (k : Nat) (s : State) :
    (s.toBlock k).sinkReady = s.sinkReady := rfl
@[simp] theorem State.toBlock_mem (k : Nat) (s : State) :
    (s.toBlock k).mem = s.mem := rfl
@[simp] theorem State.toBlock_errRegions (k : Nat) (s : State) :
    (s.toBlock k).errRegions = s.errRegions := rfl
@[simp] theorem State.toBlock_events (k : Nat) (s : State) :
    (s.toBlock k).events = s.events := rfl
@[simp] theorem State.toBlock_readData (k : Nat) (s : State) :
    (s.toBlock k).readData = s.readData := rfl
@[simp] theorem State.toBlock_inbox (k : Nat) (s : State) :
    (s.toBlock k).inbox = s.inbox := rfl
@[simp] theorem State.toBlock_pace (k : Nat) (s : State) :
    (s.toBlock k).pace = s.pace := rfl
@[simp] theorem State.toBlock_span (k : Nat) (s : State) :
    (s.toBlock k).span = s.span := rfl
@[simp] theorem State.toBlock_freeIdx (k : Nat) (s : State) :
    (s.toBlock k).freeIdx = s.freeIdx := rfl

@[simp] theorem State.blockDone_params (s : State) :
    (s.blockDone).params = s.params := rfl
@[simp] theorem State.blockDone_rst (s : State) :
    (s.blockDone).rst = s.rst := rfl
@[simp] theorem State.blockDone_ie (s : State) :
    (s.blockDone).ie = s.ie := rfl
@[simp] theorem State.blockDone_status (s : State) :
    (s.blockDone).status = s.status := rfl
@[simp] theorem State.blockDone_errinfo (s : State) :
    (s.blockDone).errinfo = s.errinfo := rfl
@[simp] theorem State.blockDone_rounds (s : State) :
    (s.blockDone).rounds = s.rounds := rfl
@[simp] theorem State.blockDone_rlatch (s : State) :
    (s.blockDone).rlatch = s.rlatch := rfl
@[simp] theorem State.blockDone_keyaddr (s : State) :
    (s.blockDone).keyaddr = s.keyaddr := rfl
@[simp] theorem State.blockDone_keylen (s : State) :
    (s.blockDone).keylen = s.keylen := rfl
@[simp] theorem State.blockDone_src (s : State) :
    (s.blockDone).src = s.src := rfl
@[simp] theorem State.blockDone_dst (s : State) :
    (s.blockDone).dst = s.dst := rfl
@[simp] theorem State.blockDone_len (s : State) :
    (s.blockDone).len = s.len := rfl
@[simp] theorem State.blockDone_blkdone (s : State) :
    (s.blockDone).blkdone = BitVec.ofNat 32 (s.hidden.bsp.k + 1) := rfl
@[simp] theorem State.blockDone_din (s : State) :
    (s.blockDone).din = s.din := rfl
@[simp] theorem State.blockDone_dout (s : State) :
    (s.blockDone).dout = s.dout := rfl
@[simp] theorem State.blockDone_table (s : State) :
    (s.blockDone).table = s.table := rfl
@[simp] theorem State.blockDone_phase (s : State) :
    (s.blockDone).phase = if s.hidden.bsp.k + 1 < s.hidden.lk.blocks then .read else .finish := rfl
@[simp] theorem State.blockDone_hidden (s : State) :
    (s.blockDone).hidden = { s.hidden with bsp := { s.hidden.bsp with k := s.hidden.bsp.k + 1, inp := [] } } := rfl
@[simp] theorem State.blockDone_sinkOut (s : State) :
    (s.blockDone).sinkOut = s.sinkOut := rfl
@[simp] theorem State.blockDone_sinkReady (s : State) :
    (s.blockDone).sinkReady = s.sinkReady := rfl
@[simp] theorem State.blockDone_mem (s : State) :
    (s.blockDone).mem = s.mem := rfl
@[simp] theorem State.blockDone_errRegions (s : State) :
    (s.blockDone).errRegions = s.errRegions := rfl
@[simp] theorem State.blockDone_events (s : State) :
    (s.blockDone).events = s.events := rfl
@[simp] theorem State.blockDone_readData (s : State) :
    (s.blockDone).readData = s.readData := rfl
@[simp] theorem State.blockDone_inbox (s : State) :
    (s.blockDone).inbox = s.inbox := rfl
@[simp] theorem State.blockDone_pace (s : State) :
    (s.blockDone).pace = s.pace := rfl
@[simp] theorem State.blockDone_span (s : State) :
    (s.blockDone).span = s.span := rfl
@[simp] theorem State.blockDone_freeIdx (s : State) :
    (s.blockDone).freeIdx = s.freeIdx := rfl

@[simp] theorem State.resetBlock_params (s : State) :
    (s.resetBlock).params = s.params := rfl
@[simp] theorem State.resetBlock_rst (s : State) :
    (s.resetBlock).rst = s.rst := rfl
@[simp] theorem State.resetBlock_ie (s : State) :
    (s.resetBlock).ie = false := rfl
@[simp] theorem State.resetBlock_status (s : State) :
    (s.resetBlock).status = Status.reset := rfl
@[simp] theorem State.resetBlock_errinfo (s : State) :
    (s.resetBlock).errinfo = 0 := rfl
@[simp] theorem State.resetBlock_rounds (s : State) :
    (s.resetBlock).rounds = Config.defaultRounds := rfl
@[simp] theorem State.resetBlock_rlatch (s : State) :
    (s.resetBlock).rlatch = 0 := rfl
@[simp] theorem State.resetBlock_keyaddr (s : State) :
    (s.resetBlock).keyaddr = 0 := rfl
@[simp] theorem State.resetBlock_keylen (s : State) :
    (s.resetBlock).keylen = 0 := rfl
@[simp] theorem State.resetBlock_src (s : State) :
    (s.resetBlock).src = 0 := rfl
@[simp] theorem State.resetBlock_dst (s : State) :
    (s.resetBlock).dst = 0 := rfl
@[simp] theorem State.resetBlock_len (s : State) :
    (s.resetBlock).len = 0 := rfl
@[simp] theorem State.resetBlock_blkdone (s : State) :
    (s.resetBlock).blkdone = 0 := rfl
@[simp] theorem State.resetBlock_din (s : State) :
    (s.resetBlock).din = ⟨0, 0, 0, 0⟩ := rfl
@[simp] theorem State.resetBlock_dout (s : State) :
    (s.resetBlock).dout = ⟨0, 0, 0, 0⟩ := rfl
@[simp] theorem State.resetBlock_table (s : State) :
    (s.resetBlock).table = List.replicate s.params.tMax 0 := rfl
@[simp] theorem State.resetBlock_phase (s : State) :
    (s.resetBlock).phase = .idle := rfl
@[simp] theorem State.resetBlock_hidden (s : State) :
    (s.resetBlock).hidden = Hidden.zero := rfl
@[simp] theorem State.resetBlock_sinkOut (s : State) :
    (s.resetBlock).sinkOut = none := rfl
@[simp] theorem State.resetBlock_sinkReady (s : State) :
    (s.resetBlock).sinkReady = s.sinkReady := rfl
@[simp] theorem State.resetBlock_mem (s : State) :
    (s.resetBlock).mem = s.mem := rfl
@[simp] theorem State.resetBlock_errRegions (s : State) :
    (s.resetBlock).errRegions = s.errRegions := rfl
@[simp] theorem State.resetBlock_events (s : State) :
    (s.resetBlock).events = s.events := rfl
@[simp] theorem State.resetBlock_readData (s : State) :
    (s.resetBlock).readData = s.readData := rfl
@[simp] theorem State.resetBlock_inbox (s : State) :
    (s.resetBlock).inbox = s.inbox := rfl
@[simp] theorem State.resetBlock_pace (s : State) :
    (s.resetBlock).pace = s.pace := rfl
@[simp] theorem State.resetBlock_span (s : State) :
    (s.resetBlock).span = Span.none := rfl
@[simp] theorem State.resetBlock_freeIdx (s : State) :
    (s.resetBlock).freeIdx = s.freeIdx := rfl

@[simp] theorem State.popInbox_params (rest : List Event) (s : State) :
    (s.popInbox rest).params = s.params := rfl
@[simp] theorem State.popInbox_rst (rest : List Event) (s : State) :
    (s.popInbox rest).rst = s.rst := rfl
@[simp] theorem State.popInbox_ie (rest : List Event) (s : State) :
    (s.popInbox rest).ie = s.ie := rfl
@[simp] theorem State.popInbox_status (rest : List Event) (s : State) :
    (s.popInbox rest).status = s.status := rfl
@[simp] theorem State.popInbox_errinfo (rest : List Event) (s : State) :
    (s.popInbox rest).errinfo = s.errinfo := rfl
@[simp] theorem State.popInbox_rounds (rest : List Event) (s : State) :
    (s.popInbox rest).rounds = s.rounds := rfl
@[simp] theorem State.popInbox_rlatch (rest : List Event) (s : State) :
    (s.popInbox rest).rlatch = s.rlatch := rfl
@[simp] theorem State.popInbox_keyaddr (rest : List Event) (s : State) :
    (s.popInbox rest).keyaddr = s.keyaddr := rfl
@[simp] theorem State.popInbox_keylen (rest : List Event) (s : State) :
    (s.popInbox rest).keylen = s.keylen := rfl
@[simp] theorem State.popInbox_src (rest : List Event) (s : State) :
    (s.popInbox rest).src = s.src := rfl
@[simp] theorem State.popInbox_dst (rest : List Event) (s : State) :
    (s.popInbox rest).dst = s.dst := rfl
@[simp] theorem State.popInbox_len (rest : List Event) (s : State) :
    (s.popInbox rest).len = s.len := rfl
@[simp] theorem State.popInbox_blkdone (rest : List Event) (s : State) :
    (s.popInbox rest).blkdone = s.blkdone := rfl
@[simp] theorem State.popInbox_din (rest : List Event) (s : State) :
    (s.popInbox rest).din = s.din := rfl
@[simp] theorem State.popInbox_dout (rest : List Event) (s : State) :
    (s.popInbox rest).dout = s.dout := rfl
@[simp] theorem State.popInbox_table (rest : List Event) (s : State) :
    (s.popInbox rest).table = s.table := rfl
@[simp] theorem State.popInbox_phase (rest : List Event) (s : State) :
    (s.popInbox rest).phase = s.phase := rfl
@[simp] theorem State.popInbox_hidden (rest : List Event) (s : State) :
    (s.popInbox rest).hidden = s.hidden := rfl
@[simp] theorem State.popInbox_sinkOut (rest : List Event) (s : State) :
    (s.popInbox rest).sinkOut = s.sinkOut := rfl
@[simp] theorem State.popInbox_sinkReady (rest : List Event) (s : State) :
    (s.popInbox rest).sinkReady = s.sinkReady := rfl
@[simp] theorem State.popInbox_mem (rest : List Event) (s : State) :
    (s.popInbox rest).mem = s.mem := rfl
@[simp] theorem State.popInbox_errRegions (rest : List Event) (s : State) :
    (s.popInbox rest).errRegions = s.errRegions := rfl
@[simp] theorem State.popInbox_events (rest : List Event) (s : State) :
    (s.popInbox rest).events = s.events := rfl
@[simp] theorem State.popInbox_readData (rest : List Event) (s : State) :
    (s.popInbox rest).readData = s.readData := rfl
@[simp] theorem State.popInbox_inbox (rest : List Event) (s : State) :
    (s.popInbox rest).inbox = rest := rfl
@[simp] theorem State.popInbox_pace (rest : List Event) (s : State) :
    (s.popInbox rest).pace = s.pace := rfl
@[simp] theorem State.popInbox_span (rest : List Event) (s : State) :
    (s.popInbox rest).span = s.span := rfl
@[simp] theorem State.popInbox_freeIdx (rest : List Event) (s : State) :
    (s.popInbox rest).freeIdx = s.freeIdx := rfl

@[simp] theorem State.ended_params (s : State) :
    (s.ended).params = s.params := rfl
@[simp] theorem State.ended_rst (s : State) :
    (s.ended).rst = s.rst := rfl
@[simp] theorem State.ended_ie (s : State) :
    (s.ended).ie = s.ie := rfl
@[simp] theorem State.ended_status (s : State) :
    (s.ended).status = s.status.succeeded := rfl
@[simp] theorem State.ended_errinfo (s : State) :
    (s.ended).errinfo = 0 := rfl
@[simp] theorem State.ended_rounds (s : State) :
    (s.ended).rounds = s.rounds := rfl
@[simp] theorem State.ended_rlatch (s : State) :
    (s.ended).rlatch = s.rlatch := rfl
@[simp] theorem State.ended_keyaddr (s : State) :
    (s.ended).keyaddr = s.keyaddr := rfl
@[simp] theorem State.ended_keylen (s : State) :
    (s.ended).keylen = s.keylen := rfl
@[simp] theorem State.ended_src (s : State) :
    (s.ended).src = s.src := rfl
@[simp] theorem State.ended_dst (s : State) :
    (s.ended).dst = s.dst := rfl
@[simp] theorem State.ended_len (s : State) :
    (s.ended).len = s.len := rfl
@[simp] theorem State.ended_blkdone (s : State) :
    (s.ended).blkdone = 0 := rfl
@[simp] theorem State.ended_din (s : State) :
    (s.ended).din = s.din := rfl
@[simp] theorem State.ended_dout (s : State) :
    (s.ended).dout = s.dout := rfl
@[simp] theorem State.ended_table (s : State) :
    (s.ended).table = s.table := rfl
@[simp] theorem State.ended_phase (s : State) :
    (s.ended).phase = .idle := rfl
@[simp] theorem State.ended_hidden (s : State) :
    (s.ended).hidden = Config.freeHidden s.freeIdx := rfl
@[simp] theorem State.ended_sinkOut (s : State) :
    (s.ended).sinkOut = s.sinkOut := rfl
@[simp] theorem State.ended_sinkReady (s : State) :
    (s.ended).sinkReady = s.sinkReady := rfl
@[simp] theorem State.ended_mem (s : State) :
    (s.ended).mem = s.mem := rfl
@[simp] theorem State.ended_errRegions (s : State) :
    (s.ended).errRegions = s.errRegions := rfl
@[simp] theorem State.ended_events (s : State) :
    (s.ended).events = s.events := rfl
@[simp] theorem State.ended_readData (s : State) :
    (s.ended).readData = s.readData := rfl
@[simp] theorem State.ended_inbox (s : State) :
    (s.ended).inbox = s.inbox := rfl
@[simp] theorem State.ended_pace (s : State) :
    (s.ended).pace = s.pace := rfl
@[simp] theorem State.ended_span (s : State) :
    (s.ended).span = Span.none := rfl
@[simp] theorem State.ended_freeIdx (s : State) :
    (s.ended).freeIdx = s.freeIdx + 1 := rfl

@[simp] theorem State.endedWith_params (code : ErrCode) (info : Word) (s : State) :
    (s.endedWith code info).params = s.params := rfl
@[simp] theorem State.endedWith_rst (code : ErrCode) (info : Word) (s : State) :
    (s.endedWith code info).rst = s.rst := rfl
@[simp] theorem State.endedWith_ie (code : ErrCode) (info : Word) (s : State) :
    (s.endedWith code info).ie = s.ie := rfl
@[simp] theorem State.endedWith_status (code : ErrCode) (info : Word) (s : State) :
    (s.endedWith code info).status = s.status.failed code := rfl
@[simp] theorem State.endedWith_errinfo (code : ErrCode) (info : Word) (s : State) :
    (s.endedWith code info).errinfo = info := rfl
@[simp] theorem State.endedWith_rounds (code : ErrCode) (info : Word) (s : State) :
    (s.endedWith code info).rounds = s.rounds := rfl
@[simp] theorem State.endedWith_rlatch (code : ErrCode) (info : Word) (s : State) :
    (s.endedWith code info).rlatch = s.rlatch := rfl
@[simp] theorem State.endedWith_keyaddr (code : ErrCode) (info : Word) (s : State) :
    (s.endedWith code info).keyaddr = s.keyaddr := rfl
@[simp] theorem State.endedWith_keylen (code : ErrCode) (info : Word) (s : State) :
    (s.endedWith code info).keylen = s.keylen := rfl
@[simp] theorem State.endedWith_src (code : ErrCode) (info : Word) (s : State) :
    (s.endedWith code info).src = s.src := rfl
@[simp] theorem State.endedWith_dst (code : ErrCode) (info : Word) (s : State) :
    (s.endedWith code info).dst = s.dst := rfl
@[simp] theorem State.endedWith_len (code : ErrCode) (info : Word) (s : State) :
    (s.endedWith code info).len = s.len := rfl
@[simp] theorem State.endedWith_blkdone (code : ErrCode) (info : Word) (s : State) :
    (s.endedWith code info).blkdone = 0 := rfl
@[simp] theorem State.endedWith_din (code : ErrCode) (info : Word) (s : State) :
    (s.endedWith code info).din = s.din := rfl
@[simp] theorem State.endedWith_dout (code : ErrCode) (info : Word) (s : State) :
    (s.endedWith code info).dout = s.dout := rfl
@[simp] theorem State.endedWith_table (code : ErrCode) (info : Word) (s : State) :
    (s.endedWith code info).table = s.table := rfl
@[simp] theorem State.endedWith_phase (code : ErrCode) (info : Word) (s : State) :
    (s.endedWith code info).phase = .idle := rfl
@[simp] theorem State.endedWith_hidden (code : ErrCode) (info : Word) (s : State) :
    (s.endedWith code info).hidden = Config.freeHidden s.freeIdx := rfl
@[simp] theorem State.endedWith_sinkOut (code : ErrCode) (info : Word) (s : State) :
    (s.endedWith code info).sinkOut = s.sinkOut := rfl
@[simp] theorem State.endedWith_sinkReady (code : ErrCode) (info : Word) (s : State) :
    (s.endedWith code info).sinkReady = s.sinkReady := rfl
@[simp] theorem State.endedWith_mem (code : ErrCode) (info : Word) (s : State) :
    (s.endedWith code info).mem = s.mem := rfl
@[simp] theorem State.endedWith_errRegions (code : ErrCode) (info : Word) (s : State) :
    (s.endedWith code info).errRegions = s.errRegions := rfl
@[simp] theorem State.endedWith_events (code : ErrCode) (info : Word) (s : State) :
    (s.endedWith code info).events = s.events := rfl
@[simp] theorem State.endedWith_readData (code : ErrCode) (info : Word) (s : State) :
    (s.endedWith code info).readData = s.readData := rfl
@[simp] theorem State.endedWith_inbox (code : ErrCode) (info : Word) (s : State) :
    (s.endedWith code info).inbox = s.inbox := rfl
@[simp] theorem State.endedWith_pace (code : ErrCode) (info : Word) (s : State) :
    (s.endedWith code info).pace = s.pace := rfl
@[simp] theorem State.endedWith_span (code : ErrCode) (info : Word) (s : State) :
    (s.endedWith code info).span = Span.none := rfl
@[simp] theorem State.endedWith_freeIdx (code : ErrCode) (info : Word) (s : State) :
    (s.endedWith code info).freeIdx = s.freeIdx + 1 := rfl

end Sys2Proof.Machine
end

