-- ==== Sys2Proof/Laws/Engine.lean ====
section
/-! SUPPORT. The engine's loops, each said once: `run` as a sequence of steps, the memory port, and what the
engine has done when it leaves each of the loops of R131, R133, R151, R152 and R170. -/

namespace Sys2Proof.Machine

/-! Going on with a result. -/

@[simp] theorem Result.next_andThen (s : State) (k : State → Result) :
    Result.andThen (.next s) k = k s := rfl

@[simp] theorem Result.fault_andThen (f : Fault) (k : State → Result) :
    Result.andThen (.fault f) k = .fault f := rfl

@[simp] theorem Result.refused_andThen (q : Refusal) (k : State → Result) :
    Result.andThen (.refused q) k = .refused q := rfl

theorem Result.andThen_assoc (x : Result) (k l : State → Result) :
    (x.andThen k).andThen l = x.andThen fun s => (k s).andThen l := by
  cases x <;> rfl

/-- A result that goes on and ends in a next state came through a next state. -/
theorem Result.andThen_eq_next (x : Result) (k : State → Result) (t : State)
    (h : x.andThen k = .next t) : ∃ s, x = .next s ∧ k s = .next t := by
  cases x with
  | next s => exact ⟨s, rfl, h⟩
  | fault f => simp at h
  | refused q => simp at h

/-! `run` step by step. -/

@[simp] theorem run_zero (s : State) : run 0 s = .next s := rfl

/-- An engine that can't move stays. -/
theorem run_of_not_canMove (n : Nat) (s : State) (h : s.canMove = false) : run n s = .next s := by
  cases n with
  | zero => rfl
  | succ n => simp [run, h]

/-- One engine step, then the rest. -/
theorem run_succ (n : Nat) (s : State) (h : s.canMove = true) :
    run (n + 1) s = (engineStep s).andThen (run n) := by
  simp [run, h]

/-- One engine step to a known state, then the rest. -/
theorem run_next (n : Nat) (s t : State) (hm : s.canMove = true) (h : engineStep s = .next t) :
    run (n + 1) s = run n t := by
  rw [run_succ n s hm, h, Result.next_andThen]

/-- Steps may be counted in two parts. -/
theorem run_add (m n : Nat) (s : State) : run (m + n) s = (run m s).andThen (run n) := by
  induction m generalizing s with
  | zero => simp
  | succ m ih =>
    rw [show m + 1 + n = (m + n) + 1 by omega]
    by_cases h : s.canMove = true
    · rw [run_succ _ _ h, run_succ _ _ h, Result.andThen_assoc]
      congr 1
      exact funext ih
    · have h : s.canMove = false := by simpa using h
      rw [run_of_not_canMove _ _ h, run_of_not_canMove _ _ h, Result.next_andThen,
        run_of_not_canMove _ _ h]

/-- What every engine step keeps, a run keeps. -/
theorem run_keeps (P : State → Prop) (hstep : ∀ s t, P s → engineStep s = .next t → P t)
    (n : Nat) (s t : State) (hs : P s) (h : run n s = .next t) : P t := by
  induction n generalizing s with
  | zero => exact (Host.Outcome.next.inj h) ▸ hs
  | succ n ih =>
    by_cases hm : s.canMove = true
    · rw [run_succ n s hm] at h
      obtain ⟨u, hu, ht⟩ := Result.andThen_eq_next _ _ _ h
      exact ih u (hstep s u hs hu) ht
    · rw [run_of_not_canMove _ _ (by simpa using hm)] at h
      exact (Host.Outcome.next.inj h) ▸ hs

/-- The engine's share, with all the time it can use or a given number of steps. -/
theorem resume_eq_run (s : State) : ∃ n, s.resume = run n s ∧ ∀ k, s.pace = some k → n = k := by
  unfold State.resume
  split <;> rename_i h
  · exact ⟨_, rfl, by simp [h]⟩
  · exact ⟨_, rfl, by simp [h]⟩

/-! The memory port. -/

/-- No other agent has written to the running command's ranges. -/
theorem hostBytes_of_quiet (a : Nat) (s : State) (h : s.span.hostWrites = []) : s.hostBytes a = [] := by
  simp [State.hostBytes, h]

/-- A pick from some bytes is one of them. -/
theorem pickByte_mem (n : Nat) (bs : List Byte) (h : bs ≠ []) : pickByte n bs ∈ bs := by
  have hl : n % bs.length < bs.length := Nat.mod_lt _ (List.length_pos_of_ne_nil h)
  simp [pickByte, byteAt, hl]

/-- The counter of the free values moved on. -/
def State.setFree (n : Nat) (s : State) : State := { s with freeIdx := n }

/-- Everything a read of a byte can be: the byte in memory when nobody has written it, else one of the written
bytes or the one before them. -/
theorem seeByte_cases (written : List Byte) (a : Nat) (k : Byte → State → State) (s : State) :
    (written = [] ∧ s.seeByte written a k = k (s.mem.read a) s) ∨
      ∃ b ∈ written ++ [s.span.before.read a], s.seeByte written a k = k b (s.setFree (s.freeIdx + 1)) := by
  cases written with
  | nil => exact .inl ⟨rfl, rfl⟩
  | cons b bs => exact .inr ⟨_, pickByte_mem _ _ (by simp), rfl⟩

/-- Everything a write of a byte can be: the byte itself, or one that contends with it. -/
theorem putByte_cases (rivals : List Byte) (a : Nat) (v : Byte) (s : State) :
    (rivals = [] ∧ s.putByte rivals a v = { s with mem := s.mem.write a v }) ∨
      ∃ b ∈ v :: rivals, s.putByte rivals a v =
        { s.setFree (s.freeIdx + 1) with mem := s.mem.write a b } := by
  cases rivals with
  | nil => exact .inl ⟨rfl, rfl⟩
  | cons b bs => exact .inr ⟨_, pickByte_mem _ _ (by simp), rfl⟩

/-- A read that the memory answers, of a byte no other agent has written. -/
theorem memRead_answered (addr : Nat) (k : Byte → State → State) (s : State)
    (hin : s.inMemory addr = true) (hok : s.answersError .read addr = false)
    (hq : s.hostBytes addr = []) :
    s.memRead addr k = .next (k (s.mem.read addr) (s.note (.read addr (some (s.mem.read addr))))) := by
  simp [State.memRead, hin, hok, hq, State.seeByte]

/-- A read that the memory answers with an error response. -/
theorem memRead_error (addr : Nat) (k : Byte → State → State) (s : State)
    (hin : s.inMemory addr = true) (hbad : s.answersError .read addr = true) :
    s.memRead addr k = .next ((s.note (.read addr none)).raiseError .bus (BitVec.ofNat 32 addr)) := by
  simp [State.memRead, hin, hbad]

/-- A write that the memory answers, to a byte no other agent has written. -/
theorem memWrite_answered (addr : Nat) (v : Byte) (k : State → State) (s : State)
    (hin : s.inMemory addr = true) (hok : s.answersError .write addr = false)
    (hq : s.hostBytes addr = []) :
    s.memWrite addr v k = .next (k { s.note (.write addr v true) with mem := s.mem.write addr v }) := by
  simp [State.memWrite, hin, hok, hq, State.putByte, State.note]

/-- A write that the memory answers with an error response. -/
theorem memWrite_error (addr : Nat) (v : Byte) (k : State → State) (s : State)
    (hin : s.inMemory addr = true) (hbad : s.answersError .write addr = true) :
    s.memWrite addr v k =
      .next ((s.note (.write addr v false)).raiseError .bus (BitVec.ofNat 32 addr)) := by
  simp [State.memWrite, hin, hbad]

/-- Everything a memory read can do. -/
theorem memRead_cases (addr : Nat) (k : Byte → State → State) (s t : State)
    (h : s.memRead addr k = .next t) :
    s.inMemory addr = true ∧
      ((s.answersError .read addr = true ∧
          t = (s.note (.read addr none)).raiseError .bus (BitVec.ofNat 32 addr)) ∨
        (s.answersError .read addr = false ∧
          ∃ b n, t = k b ((s.setFree n).note (.read addr (some b))))) := by
  by_cases hin : s.inMemory addr = true
  · refine ⟨hin, ?_⟩
    by_cases hbad : s.answersError .read addr = true
    · rw [memRead_error _ _ _ hin hbad] at h
      exact .inl ⟨hbad, (Host.Outcome.next.inj h).symm⟩
    · have hok : s.answersError .read addr = false := by simpa using hbad
      simp only [State.memRead, hin, hok, Bool.not_true, Bool.false_eq_true, if_false,
        Host.Outcome.next.injEq] at h
      refine .inr ⟨hok, ?_⟩
      obtain ⟨-, hs⟩ | ⟨b, -, hs⟩ := seeByte_cases (s.hostBytes addr) addr
        (fun b t => k b (t.note (.read addr (some b)))) s
      · exact ⟨_, s.freeIdx, (hs.symm.trans h).symm⟩
      · exact ⟨b, _, (hs.symm.trans h).symm⟩
  · simp [State.memRead, hin] at h

/-- Everything a memory write can do. -/
theorem memWrite_cases (addr : Nat) (v : Byte) (k : State → State) (s t : State)
    (h : s.memWrite addr v k = .next t) :
    s.inMemory addr = true ∧
      ((s.answersError .write addr = true ∧
          t = (s.note (.write addr v false)).raiseError .bus (BitVec.ofNat 32 addr)) ∨
        (s.answersError .write addr = false ∧
          ∃ b n, t = k { (s.setFree n).note (.write addr v true) with mem := s.mem.write addr b })) := by
  by_cases hin : s.inMemory addr = true
  · refine ⟨hin, ?_⟩
    by_cases hbad : s.answersError .write addr = true
    · rw [memWrite_error _ _ _ _ hin hbad] at h
      exact .inl ⟨hbad, (Host.Outcome.next.inj h).symm⟩
    · have hok : s.answersError .write addr = false := by simpa using hbad
      simp only [State.memWrite, hin, hok, Bool.not_true, Bool.false_eq_true, if_false,
        Host.Outcome.next.injEq] at h
      refine .inr ⟨hok, ?_⟩
      obtain ⟨-, hs⟩ | ⟨b, -, hs⟩ := putByte_cases ((s.hostBytes addr).take 1) addr v s
      · exact ⟨v, s.freeIdx, by rw [← h, hs]; rfl⟩
      · exact ⟨b, _, by rw [← h, hs]; rfl⟩
  · simp [State.memWrite, hin] at h

/-- A write of a byte keeps memory's canonical form, whatever contends with it. -/
theorem wf_putByte (rivals : List Byte) (a : Nat) (v : Byte) (s : State) (h : s.mem.wf = true) :
    (s.putByte rivals a v).mem.wf = true := by
  obtain ⟨-, hs⟩ | ⟨b, -, hs⟩ := putByte_cases rivals a v s <;> rw [hs] <;> exact Memory.wf_write _ _ _ h

/-! The accesses of other agents. -/

/-- Another agent's write to a byte that does not belong to the engine is a write to memory. -/
theorem hostWrite_of_free (a : Nat) (v : Byte) (s : State) (h : s.ownsByte a = false) :
    s.hostWrite a v = { s with mem := s.mem.write a v } := by
  simp [State.hostWrite, h]

/-- Everything another agent's write to a byte of the engine's can do (R74): its byte or one the engine has
written stays, and the write is remembered. -/
theorem hostWrite_of_owned (a : Nat) (v : Byte) (s : State) (h : s.ownsByte a = true) :
    ∃ b ∈ v :: s.engineBytes a, ∃ n, s.hostWrite a v = { s.setFree n with
      mem := s.mem.write a b, span := { s.span with hostWrites := (a, v) :: s.span.hostWrites } } := by
  simp only [State.hostWrite, h, if_true]
  obtain ⟨-, hs⟩ | ⟨b, hb, hs⟩ := putByte_cases (s.engineBytes a) a v s
  · exact ⟨v, by simp, s.freeIdx, by rw [hs]; rfl⟩
  · exact ⟨b, hb, s.freeIdx + 1, by rw [hs]; rfl⟩

theorem wf_hostWrite (a : Nat) (v : Byte) (s : State) (h : s.mem.wf = true) :
    (s.hostWrite a v).mem.wf = true := by
  by_cases ho : s.ownsByte a = true
  · obtain ⟨b, -, n, hs⟩ := hostWrite_of_owned a v s ho
    rw [hs]; exact Memory.wf_write _ _ _ h
  · rw [hostWrite_of_free a v s (by simpa using ho)]; exact Memory.wf_write _ _ _ h

/-- Another agent's read of a byte that is no destination byte is the byte in memory (R73). -/
theorem hostRead_of_free (a : Nat) (s : State) (h : s.targetsByte a = false) :
    s.hostRead a = { s with readData := (s.mem.read a).setWidth 32 } := by
  simp [State.hostRead, h, State.seeByte]

/-- Everything another agent's read can do (R74): it changes what was read, and no other thing but the counter
of the free values. -/
theorem hostRead_cases (a : Nat) (s : State) :
    ∃ b n, s.hostRead a = { s.setFree n with readData := b } ∧
      (b = (s.mem.read a).setWidth 32 ∨
        ∃ x ∈ s.engineBytes a ++ s.hostBytes a ++ [s.span.before.read a], b = x.setWidth 32) := by
  by_cases ht : s.targetsByte a = true
  · simp only [State.hostRead, ht, if_true]
    obtain ⟨-, hs⟩ | ⟨x, hx, hs⟩ := seeByte_cases (s.engineBytes a ++ s.hostBytes a) a
      (fun b t => { t with readData := b.setWidth 32 }) s
    · exact ⟨_, s.freeIdx, hs, .inl rfl⟩
    · exact ⟨_, _, hs, .inr ⟨x, hx, rfl⟩⟩
  · rw [hostRead_of_free a s (by simpa using ht)]
    exact ⟨_, s.freeIdx, rfl, .inl rfl⟩

/-! One step out of each phase. -/

theorem engineStep_check (s : State) (h : s.phase = .check) : engineStep s = .next (checkStep s) := by
  simp [engineStep, h]

theorem engineStep_fetch (s : State) (h : s.phase = .fetch) : engineStep s = fetchStep s := by
  simp [engineStep, h]

theorem engineStep_init (s : State) (h : s.phase = .init) : engineStep s = .next (initStep s) := by
  simp [engineStep, h]

theorem engineStep_mix (s : State) (h : s.phase = .mix) : engineStep s = .next (mixPhaseStep s) := by
  simp [engineStep, h]

theorem engineStep_commit (s : State) (h : s.phase = .commit) : engineStep s = .next (commitStep s) := by
  simp [engineStep, h]

theorem engineStep_read (s : State) (h : s.phase = .read) : engineStep s = readStep s := by
  simp [engineStep, h]

theorem engineStep_whiten (s : State) (h : s.phase = .whiten) : engineStep s = .next (whitenStep s) := by
  simp [engineStep, h]

theorem engineStep_round (s : State) (h : s.phase = .round) : engineStep s = .next (roundStep s) := by
  simp [engineStep, h]

theorem engineStep_deliver (s : State) (h : s.phase = .deliver) :
    engineStep s = .next (deliverStep s) := by
  simp [engineStep, h]

theorem engineStep_write (s : State) (h : s.phase = .write) : engineStep s = writeStep s := by
  simp [engineStep, h]

theorem engineStep_offer (s : State) (h : s.phase = .offer) : engineStep s = .next (offerStep s) := by
  simp [engineStep, h]

theorem engineStep_hold (s : State) (h : s.phase = .hold) : engineStep s = .next (holdStep s) := by
  simp [engineStep, h]

theorem engineStep_finish (s : State) (h : s.phase = .finish) : engineStep s = .next s.complete := by
  simp [engineStep, h]

/-- In every phase but idle and hold the engine can move. -/
theorem canMove_of_phase (s : State) (hi : s.phase ≠ .idle) (hh : s.phase ≠ .hold) :
    s.canMove = true := by
  unfold State.canMove
  split <;> simp_all

/-! The loops. -/

/-- What fetches of the key bytes `bs` at ascending addresses from `a` leave: after the last byte of the key
INIT follows. -/
def State.keyFetched (a : Nat) (bs : List Byte) (s : State) : State :=
  { s with
    phase := if s.hidden.kse.key.length + bs.length < s.hidden.lk.keylen.toNat then .fetch else .init
    hidden := { s.hidden with kse := { s.hidden.kse with key := s.hidden.kse.key ++ bs } }
    events := s.events ++ readEvents a bs }

/-- The FETCH phase (R131): any number of the key bytes, in ascending order. -/
theorem run_fetches (d f : Nat) (s : State) (hp : s.phase = .fetch)
    (hl : s.hidden.kse.key.length < s.hidden.lk.keylen.toNat)
    (hd : s.hidden.kse.key.length + d ≤ s.hidden.lk.keylen.toNat)
    (hin : s.hidden.lk.keyaddr.toNat + s.hidden.lk.keylen.toNat ≤ 2 ^ s.params.addrW)
    (hq : s.span.hostWrites = [])
    (hok : s.answersAll .read (s.hidden.lk.keyaddr.toNat + s.hidden.kse.key.length) d) :
    run (d + f) s = run f
      (s.keyFetched (s.hidden.lk.keyaddr.toNat + s.hidden.kse.key.length)
        (s.mem.readBytes (s.hidden.lk.keyaddr.toNat + s.hidden.kse.key.length) d)) := by
  induction d generalizing s with
  | zero =>
    rw [Nat.zero_add]
    congr 1
    simp [State.keyFetched, readEvents, hl, ← hp]
  | succ d ih =>
    have hm : s.inMemory (s.hidden.lk.keyaddr.toNat + s.hidden.kse.key.length) = true := by
      simp only [State.inMemory, decide_eq_true_eq]; omega
    have he := hok _ (Nat.le_refl _) (by omega)
    rw [Nat.add_right_comm, run_next (d + f) s _ (canMove_of_phase s (by simp [hp]) (by simp [hp]))
      ((engineStep_fetch s hp).trans (memRead_answered _ takeKeyByte s hm he (hostBytes_of_quiet _ s hq)))]
    by_cases hmore : s.hidden.kse.key.length + 1 < s.hidden.lk.keylen.toNat
    · rw [ih _ (by simp [takeKeyByte, hmore]) (by simpa [takeKeyByte] using hmore)
        (by simp [takeKeyByte]; omega) (by simpa [takeKeyByte] using hin) (by simpa [takeKeyByte] using hq)
        (by
          intro x h1 h2
          simp only [takeKeyByte, List.length_append, List.length_cons, List.length_nil] at h1 h2
          exact hok x (by simp at h1 ⊢; omega) (by simp at h2 ⊢; omega))]
      simp [takeKeyByte, State.note, State.keyFetched, Memory.readBytes_succ, readEvents, Nat.add_assoc,
        Nat.add_comm 1]
    · have hd0 : d = 0 := by omega
      subst hd0
      rw [Nat.zero_add]
      simp [takeKeyByte, hmore, State.note, State.keyFetched, Memory.readBytes_succ, readEvents]

/-- A mixing step keeps the number of key-words. -/
@[simp] theorem length_l_mixStep (t c : Nat) (x : Mix) : (mixStep t c x).l.length = x.l.length := by
  simp [mixStep]

/-- A mixing step keeps the size of the table. -/
@[simp] theorem length_table_mixStep (t c : Nat) (x : Mix) :
    (mixStep t c x).table.length = x.table.length := by
  simp [mixStep]

/-- What the MIX phase leaves after the state `x` of its loop and `n` steps in all. -/
def State.mixed (x : Mix) (n : Nat) (s : State) : State :=
  { s with
    phase := .commit
    table := x.table
    hidden := { s.hidden with
      kse := { s.hidden.kse with l := x.l, a := x.a, b := x.b, i := x.i, j := x.j, s := n } } }

/-- The MIX phase (R133): all remaining steps. -/
theorem run_mix (d f : Nat) (s : State) (hp : s.phase = .mix)
    (hd : s.hidden.kse.s + (d + 1) =
      mixSteps s.hidden.kse.l.length (tableWords s.hidden.lk.r)) :
    run (d + 1 + f) s = run f
      (s.mixed (mixTimes (tableWords s.hidden.lk.r) s.hidden.kse.l.length (d + 1) s.mixing)
        (s.hidden.kse.s + (d + 1))) := by
  induction d generalizing s with
  | zero =>
    have hlast : ¬ s.hidden.kse.s + 1 < mixSteps s.hidden.kse.l.length (tableWords s.hidden.lk.r) := by
      omega
    rw [show 0 + 1 + f = f + 1 by omega,
      run_next f s _ (canMove_of_phase s (by simp [hp]) (by simp [hp])) (engineStep_mix s hp)]
    simp [mixPhaseStep, hlast, mixTimes, State.mixed]
  | succ d ih =>
    have hmore : s.hidden.kse.s + 1 < mixSteps s.hidden.kse.l.length (tableWords s.hidden.lk.r) := by
      omega
    rw [show d + 1 + 1 + f = (d + 1 + f) + 1 by omega,
      run_next _ s _ (canMove_of_phase s (by simp [hp]) (by simp [hp])) (engineStep_mix s hp),
      ih _ (by simp [mixPhaseStep, hmore])
        (by simp only [mixPhaseStep, length_l_mixStep, State.mixing]; omega)]
    have hx : (mixPhaseStep s).mixing
        = mixStep (tableWords s.hidden.lk.r) s.hidden.kse.l.length s.mixing := rfl
    rw [hx]
    congr 1
    simp [mixPhaseStep, State.mixed, mixTimes, State.mixing]
    omega

/-- The state when the RTE has its block before the last whitening. -/
def State.rounded (x : Rte) (s : State) : State := { s.setRte x with phase := .deliver }

/-- The rounds of encryption (R151), from round i to round r. -/
theorem run_encRounds (d : Nat) (s : State) (hp : s.phase = .round)
    (hdir : s.hidden.lk.decrypts = false) (hi : s.hidden.rte.i + d = s.r) :
    ∃ x : Rte, x.blk = encRounds s.table (d + 1) s.hidden.rte.i s.hidden.rte.blk ∧
      ∀ f, run (d + 1 + f) s = run f (s.rounded x) := by
  induction d generalizing s with
  | zero =>
    have hlast : ¬ s.hidden.rte.i < s.r := by omega
    refine ⟨(roundStep s).hidden.rte, ?_, fun f => ?_⟩
    · simp [roundStep, hdir, encRounds]
    · rw [show 0 + 1 + f = f + 1 by omega,
        run_next f s _ (canMove_of_phase s (by simp [hp]) (by simp [hp])) (engineStep_round s hp)]
      simp [roundStep, hdir, hlast, State.rounded, State.setRte]
  | succ d ih =>
    have hmore : s.hidden.rte.i < s.r := by omega
    have h1 : engineStep s = .next (roundStep s) := engineStep_round s hp
    obtain ⟨x, hx, hr⟩ := ih (roundStep s) (by simp [roundStep, hdir, hmore])
      (by simp [roundStep, hdir, State.setRte])
      (by
        have hr : (roundStep s).r = s.r := by simp [roundStep, hdir, State.r]
        have hj : (roundStep s).hidden.rte.i = s.hidden.rte.i + 1 := by simp [roundStep, hdir, hmore]
        omega)
    refine ⟨x, ?_, fun f => ?_⟩
    · rw [hx]
      simp [roundStep, hdir, hmore, State.setRte, encRounds]
    · rw [show d + 1 + 1 + f = (d + 1 + f) + 1 by omega,
        run_next _ s _ (canMove_of_phase s (by simp [hp]) (by simp [hp])) h1, hr]
      simp [State.rounded, roundStep, hdir, State.setRte]

/-- The rounds of decryption (R152), from round i down to round 1. -/
theorem run_decRounds (d : Nat) (s : State) (hp : s.phase = .round)
    (hdir : s.hidden.lk.decrypts = true) (hi : s.hidden.rte.i = d + 1) :
    ∃ x : Rte, x.blk = decRounds s.table (d + 1) s.hidden.rte.blk ∧
      ∀ f, run (d + 1 + f) s = run f (s.rounded x) := by
  induction d generalizing s with
  | zero =>
    have hlast : ¬ 1 < s.hidden.rte.i := by omega
    refine ⟨(roundStep s).hidden.rte, ?_, fun f => ?_⟩
    · simp [roundStep, hdir, decRounds, hi]
    · rw [show 0 + 1 + f = f + 1 by omega,
        run_next f s _ (canMove_of_phase s (by simp [hp]) (by simp [hp])) (engineStep_round s hp)]
      simp [roundStep, hdir, hlast, State.rounded, State.setRte]
  | succ d ih =>
    have hmore : 1 < s.hidden.rte.i := by omega
    have h1 : engineStep s = .next (roundStep s) := engineStep_round s hp
    obtain ⟨x, hx, hr⟩ := ih (roundStep s) (by simp [roundStep, hdir, hmore])
      (by simp [roundStep, hdir, State.setRte])
      (by simp [roundStep, hdir, State.setRte, hmore]; omega)
    refine ⟨x, ?_, fun f => ?_⟩
    · rw [hx]
      simp [roundStep, hdir, State.setRte, decRounds, hi]
    · rw [show d + 1 + 1 + f = (d + 1 + f) + 1 by omega,
        run_next _ s _ (canMove_of_phase s (by simp [hp]) (by simp [hp])) h1, hr]
      simp [State.rounded, roundStep, hdir, State.setRte]

/-- The result the RTE delivers from the block after its rounds. -/
theorem rteResult_rounded (x : Rte) (s : State) :
    (s.rounded x).rteResult =
      if s.hidden.lk.decrypts then decFinal s.table x.blk else encFinal s.table s.r x.blk := by
  rfl

/-- The transform of encryption: from the first whitening to before the last (R151). -/
theorem run_encTransform (s : State) (hp : s.phase = .whiten)
    (hdir : s.hidden.lk.decrypts = false) :
    ∃ x : Rte, (s.rounded x).rteResult = rc6Enc s.table s.r s.blockOperand ∧
      ∀ f, run (s.r + 1 + f) s = run f (s.rounded x) := by
  have hstep : ∀ f, run (s.r + 1 + f) s = run (s.r + f) (whitenStep s) := fun f => by
    rw [Nat.add_right_comm]
    exact run_next _ s _ (canMove_of_phase s (by simp [hp]) (by simp [hp])) (engineStep_whiten s hp)
  simp only [hstep]
  simp only [rteResult_rounded, hdir, Bool.false_eq_true, if_false]
  rcases Nat.eq_zero_or_pos s.r with hr | hr
  · refine ⟨(whitenStep s).hidden.rte, ?_, fun f => ?_⟩
    · simp [whitenStep, hdir, State.setRte, hr, rc6Enc, encRounds]
    · rw [hr, Nat.zero_add]
      simp [whitenStep, hdir, hr, State.rounded, State.setRte]
  · obtain ⟨d, hd⟩ : ∃ d, s.r = d + 1 := ⟨s.r - 1, by omega⟩
    have hr' : (whitenStep s).r = s.r := by simp [whitenStep, hdir, State.r]
    have hi : (whitenStep s).hidden.rte.i = 1 := by simp [whitenStep, hdir]
    obtain ⟨x, hx, hrun⟩ := run_encRounds d (whitenStep s)
      (by simp [whitenStep, hdir, hd]) (by simp [whitenStep, hdir]) (by omega)
    refine ⟨x, ?_, fun f => ?_⟩
    · rw [hx, hi, ← hd]
      simp [whitenStep, hdir, State.setRte, rc6Enc]
    · rw [hd, hrun]
      simp [State.rounded, whitenStep, hdir, State.setRte]

/-- The transform of decryption: from the first whitening to before the last (R152). -/
theorem run_decTransform (s : State) (hp : s.phase = .whiten)
    (hdir : s.hidden.lk.decrypts = true) :
    ∃ x : Rte, (s.rounded x).rteResult = rc6Dec s.table s.r s.blockOperand ∧
      ∀ f, run (s.r + 1 + f) s = run f (s.rounded x) := by
  have hstep : ∀ f, run (s.r + 1 + f) s = run (s.r + f) (whitenStep s) := fun f => by
    rw [Nat.add_right_comm]
    exact run_next _ s _ (canMove_of_phase s (by simp [hp]) (by simp [hp])) (engineStep_whiten s hp)
  simp only [hstep]
  simp only [rteResult_rounded, hdir, if_true]
  rcases Nat.eq_zero_or_pos s.r with hr | hr
  · refine ⟨(whitenStep s).hidden.rte, ?_, fun f => ?_⟩
    · simp [whitenStep, hdir, State.setRte, hr, rc6Dec, decRounds]
    · rw [hr, Nat.zero_add]
      simp [whitenStep, hdir, hr, State.rounded, State.setRte]
  · obtain ⟨d, hd⟩ : ∃ d, s.r = d + 1 := ⟨s.r - 1, by omega⟩
    have hi : (whitenStep s).hidden.rte.i = d + 1 := by simp [whitenStep, hdir, hd]
    obtain ⟨x, hx, hrun⟩ := run_decRounds d (whitenStep s)
      (by simp [whitenStep, hdir, hd]) (by simp [whitenStep, hdir]) hi
    refine ⟨x, ?_, fun f => ?_⟩
    · rw [hx, ← hd]
      simp [whitenStep, hdir, State.setRte, rc6Dec]
    · rw [hd, hrun]
      simp [State.rounded, whitenStep, hdir, State.setRte]

/-- The whole transform of one block up to the last whitening (R151, R152, R156): r + 1 steps, after which
the result is the transform of the block operand. -/
theorem run_transform (s : State) (hp : s.phase = .whiten) :
    ∃ x : Rte, (s.rounded x).rteResult =
        transform s.hidden.lk.decrypts s.table s.r s.blockOperand ∧
      ∀ f, run (s.r + 1 + f) s = run f (s.rounded x) := by
  cases hdir : s.hidden.lk.decrypts with
  | false => simpa [transform] using run_encTransform s hp hdir
  | true => simpa [transform] using run_decTransform s hp hdir

end Sys2Proof.Machine
end

