-- ==== Sys2Proof/Laws/Buffer.lean ====
section
/-! SUPPORT. The BSP's loops (R170): the reads, the writes and the delivery of one block, one whole block, and
all blocks of a buffer, when the memory answers every access and the sink accepts. -/

namespace Sys2Proof.Machine

@[simp] theorem length_bytesOfBlock (x : Block) : (bytesOfBlock x).length = 16 := rfl

theorem readEvents_append (a : Nat) (xs ys : List Byte) :
    readEvents a (xs ++ ys) = readEvents a xs ++ readEvents (a + xs.length) ys := by
  induction xs generalizing a with
  | nil => rfl
  | cons b xs ih =>
    simp only [List.cons_append, readEvents, List.length_cons]
    rw [ih, show a + 1 + xs.length = a + (xs.length + 1) by omega]

/-- The address of the next source byte (R170). -/
def State.readAddr (s : State) : Nat :=
  s.hidden.lk.src.toNat + Config.blockBytes * s.hidden.bsp.k + s.hidden.bsp.inp.length

/-- The address of the next result byte (R170). -/
def State.writeAddr (s : State) : Nat :=
  s.hidden.lk.outAddr + Config.blockBytes * s.hidden.bsp.k + s.hidden.bsp.m

/-- What reads of the bytes `bs` at ascending addresses from `a` leave: after the sixteenth byte of the
block the RTE takes it. -/
def State.blockRead (a : Nat) (bs : List Byte) (s : State) : State :=
  { s.setBsp { s.hidden.bsp with inp := s.hidden.bsp.inp ++ bs } with
    phase := if s.hidden.bsp.inp.length + bs.length < Config.blockBytes then .read else .whiten
    events := s.events ++ readEvents a bs }

/-- Any number of a block's reads, in ascending order (R64). -/
theorem run_reads (d f : Nat) (s : State) (hp : s.phase = .read)
    (hl : s.hidden.bsp.inp.length < Config.blockBytes)
    (hd : s.hidden.bsp.inp.length + d ≤ Config.blockBytes)
    (hin : s.readAddr + d ≤ 2 ^ s.params.addrW)
    (hq : s.span.hostWrites = [])
    (hok : s.answersAll .read s.readAddr d) :
    run (d + f) s = run f (s.blockRead s.readAddr (s.mem.readBytes s.readAddr d)) := by
  induction d generalizing s with
  | zero =>
    rw [Nat.zero_add]
    congr 1
    simp [State.blockRead, State.setBsp, readEvents, hl, ← hp]
  | succ d ih =>
    have hm : s.inMemory s.readAddr = true := by
      simp only [State.inMemory, decide_eq_true_eq]; omega
    have he := hok _ (Nat.le_refl _) (by omega)
    rw [Nat.add_right_comm, run_next (d + f) s _ (canMove_of_phase s (by simp [hp]) (by simp [hp]))
      ((engineStep_read s hp).trans (memRead_answered s.readAddr takeSourceByte s hm he
        (hostBytes_of_quiet _ s hq)))]
    let t := takeSourceByte (s.mem.read s.readAddr)
      (s.note (.read s.readAddr (some (s.mem.read s.readAddr))))
    have hlt : t.hidden.bsp.inp.length = s.hidden.bsp.inp.length + 1 := by simp [t, takeSourceByte]
    have hat : t.readAddr = s.readAddr + 1 := by
      simp [t, takeSourceByte, State.readAddr]; omega
    have hev : t.events = s.events ++ readEvents s.readAddr [s.mem.read s.readAddr] := by
      simp [t, takeSourceByte, readEvents]
    by_cases hmore : s.hidden.bsp.inp.length + 1 < Config.blockBytes
    · have hpt : t.phase = .read := by simp [t, takeSourceByte, hmore]
      have hpar : t.params = s.params := by simp [t, takeSourceByte]
      show run (d + f) t = _
      rw [ih t hpt (by omega) (by omega) (by rw [hat, hpar]; omega) (by simpa [t, takeSourceByte] using hq)
        (fun x h1 h2 => hok x (by omega) (by omega)), hat]
      simp [t, takeSourceByte, State.note, State.blockRead, State.setBsp, Memory.readBytes_succ,
        readEvents, Nat.add_assoc, Nat.add_comm 1]
    · have hd0 : d = 0 := by omega
      subst hd0
      rw [Nat.zero_add]
      simp [takeSourceByte, hmore, State.note, State.blockRead, State.setBsp, Memory.readBytes_succ,
        readEvents]

/-- What writes of the bytes `bs` at ascending addresses from `a` leave, before the sixteenth byte. -/
def State.bytesWritten (a : Nat) (bs : List Byte) (s : State) : State :=
  { s.setBsp { s.hidden.bsp with m := s.hidden.bsp.m + bs.length } with
    mem := s.mem.writeBytes a bs
    events := s.events ++ writeEvents a bs }

/-- The result bytes o[m], ..., o[m+d-1]. -/
def State.outBytes (d : Nat) (s : State) : List Byte := (s.hidden.bsp.out.drop s.hidden.bsp.m).take d

theorem byteAt_eq_getElem (bs : List Byte) (m : Nat) (h : m < bs.length) : byteAt bs m = bs[m] := by
  simp [byteAt, h]

/-- The next result byte, then the ones after it. -/
theorem outBytes_succ (d : Nat) (s : State) (h : s.hidden.bsp.m < s.hidden.bsp.out.length) :
    s.outBytes (d + 1) = byteAt s.hidden.bsp.out s.hidden.bsp.m ::
      (s.hidden.bsp.out.drop (s.hidden.bsp.m + 1)).take d := by
  rw [State.outBytes, List.drop_eq_getElem_cons h, List.take_succ_cons, byteAt_eq_getElem _ _ h]

/-- Any number of a block's writes but the last, in ascending order (R64). -/
theorem run_writes (d f : Nat) (s : State) (hp : s.phase = .write)
    (ho : s.hidden.bsp.out.length = Config.blockBytes)
    (hd : s.hidden.bsp.m + d < Config.blockBytes)
    (hin : s.writeAddr + d ≤ 2 ^ s.params.addrW)
    (hq : s.span.hostWrites = [])
    (hok : s.answersAll .write s.writeAddr d) :
    run (d + f) s = run f (s.bytesWritten s.writeAddr (s.outBytes d)) := by
  induction d generalizing s with
  | zero =>
    rw [Nat.zero_add]
    congr 1
    simp [State.bytesWritten, State.setBsp, State.outBytes, writeEvents, Memory.writeBytes]
  | succ d ih =>
    have hm : s.inMemory s.writeAddr = true := by
      simp only [State.inMemory, decide_eq_true_eq]; omega
    have he := hok _ (Nat.le_refl _) (by omega)
    have hmore : s.hidden.bsp.m + 1 < Config.blockBytes := by omega
    rw [Nat.add_right_comm, run_next (d + f) s _ (canMove_of_phase s (by simp [hp]) (by simp [hp]))
      ((engineStep_write s hp).trans (memWrite_answered s.writeAddr _ wroteByte s hm he
        (hostBytes_of_quiet _ s hq)))]
    let t := wroteByte
      { s.note (.write s.writeAddr (byteAt s.hidden.bsp.out s.hidden.bsp.m) true) with
        mem := s.mem.write s.writeAddr (byteAt s.hidden.bsp.out s.hidden.bsp.m) }
    have hmt : t.hidden.bsp.m = s.hidden.bsp.m + 1 := by simp [t, wroteByte, hmore]
    have hat : t.writeAddr = s.writeAddr + 1 := by
      simp [t, wroteByte, hmore, State.writeAddr]; omega
    have hpar : t.params = s.params := by simp [t, wroteByte, hmore]
    have hout : t.hidden.bsp.out = s.hidden.bsp.out := by simp [t, wroteByte, hmore]
    show run (d + f) t = _
    rw [ih t (by simp [t, wroteByte, hmore, hp]) (by rw [hout, ho]) (by omega)
      (by rw [hat, hpar]; omega) (by simpa [t, wroteByte, hmore] using hq)
      (fun x h1 h2 => by
        have := hok x (by omega) (by omega)
        simpa [t, wroteByte, hmore, State.answersError] using this), hat]
    rw [outBytes_succ d s (by omega)]
    simp [t, wroteByte, hmore, State.note, State.bytesWritten, State.setBsp, State.outBytes,
      writeEvents, Memory.writeBytes, Nat.add_assoc, Nat.add_comm 1]

/-- The modes of the running buffer command (R91, R170). -/
def Latches.modes (lk : Latches) : Modes := ⟨lk.decrypts, lk.inPlace, lk.streams⟩

theorem modes_writes (lk : Latches) : lk.modes.writes = lk.writesMem := rfl

/-- The sixteenth write of a block, then what follows it: the chunk's offer, or the next block. -/
theorem run_lastWrite (f : Nat) (s : State) (hp : s.phase = .write)
    (ho : s.hidden.bsp.out.length = Config.blockBytes) (hm : s.hidden.bsp.m + 1 = Config.blockBytes)
    (hin : s.writeAddr + 1 ≤ 2 ^ s.params.addrW) (hq : s.span.hostWrites = [])
    (hok : s.answersAll .write s.writeAddr 1) :
    run (1 + f) s = run f
      (let t : State := { s with
          mem := s.mem.writeBytes s.writeAddr (s.outBytes 1)
          events := s.events ++ writeEvents s.writeAddr (s.outBytes 1) }
        if s.hidden.lk.streams then { t with phase := .offer } else t.blockDone) := by
  have hmem : s.inMemory s.writeAddr = true := by
    simp only [State.inMemory, decide_eq_true_eq]; omega
  have he := hok _ (Nat.le_refl _) (by omega)
  have hlast : ¬ s.hidden.bsp.m + 1 < Config.blockBytes := by omega
  rw [Nat.add_comm, run_next f s _ (canMove_of_phase s (by simp [hp]) (by simp [hp]))
    ((engineStep_write s hp).trans (memWrite_answered s.writeAddr _ wroteByte s hmem he
      (hostBytes_of_quiet _ s hq))),
    outBytes_succ 0 s (by omega)]
  cases hs : s.hidden.lk.streams <;>
    simp [wroteByte, hlast, hs, State.note, writeEvents, Memory.writeBytes]

theorem writeEvents_append (a : Nat) (xs ys : List Byte) :
    writeEvents a (xs ++ ys) = writeEvents a xs ++ writeEvents (a + xs.length) ys := by
  induction xs generalizing a with
  | nil => rfl
  | cons b xs ih =>
    simp only [List.cons_append, writeEvents, List.length_cons]
    rw [ih, show a + 1 + xs.length = a + (xs.length + 1) by omega]

/-- All sixteen writes of a block, then what follows them. -/
theorem run_blockWrites (s : State) (hp : s.phase = .write)
    (ho : s.hidden.bsp.out.length = Config.blockBytes) (hm : s.hidden.bsp.m = 0)
    (hin : s.writeAddr + Config.blockBytes ≤ 2 ^ s.params.addrW) (hq : s.span.hostWrites = [])
    (hok : s.answersAll .write s.writeAddr Config.blockBytes) :
    ∃ y : Bsp, y.k = s.hidden.bsp.k ∧ y.out = s.hidden.bsp.out ∧
      ∀ f, run (16 + f) s = run f
        (let t : State := { s.setBsp y with
            mem := s.mem.writeBytes s.writeAddr s.hidden.bsp.out
            events := s.events ++ writeEvents s.writeAddr s.hidden.bsp.out }
          if s.hidden.lk.streams then { t with phase := .offer } else t.blockDone) := by
  have hbb : Config.blockBytes = 16 := rfl
  let t := s.bytesWritten s.writeAddr (s.outBytes 15)
  have hlen : (s.outBytes 15).length = 15 := by simp [State.outBytes, hm, ho, hbb]
  have hmt : t.hidden.bsp.m = 15 := by simp [t, State.bytesWritten, hm, hlen]
  have hot : t.hidden.bsp.out = s.hidden.bsp.out := by simp [t, State.bytesWritten]
  have hat : t.writeAddr = s.writeAddr + 15 := by
    simp [t, State.bytesWritten, State.writeAddr, hm, hlen]
  have hpar : t.params = s.params := by simp [t, State.bytesWritten]
  have hpt : t.phase = .write := by simp [t, State.bytesWritten, hp]
  have hall : s.outBytes 15 ++ t.outBytes 1 = s.hidden.bsp.out := by
    simp only [State.outBytes, hmt, hot, hm, List.drop_zero]
    conv_rhs => rw [← List.take_append_drop 15 s.hidden.bsp.out]
    congr 1
    exact List.take_of_length_le (by simp [ho, hbb])
  refine ⟨t.hidden.bsp, by simp [t, State.bytesWritten], hot, fun f => ?_⟩
  rw [show 16 + f = 15 + (1 + f) by omega,
    run_writes 15 (1 + f) s hp ho (by omega) (by omega) hq
      (fun x h1 h2 => hok x h1 (by omega))]
  show run (1 + f) t = _
  rw [run_lastWrite f t hpt (by rw [hot, ho]) (by omega) (by rw [hat, hpar]; omega) hq
    (fun x h1 h2 => by
      have := hok x (by omega) (by omega)
      simpa [t, State.bytesWritten, State.answersError] using this)]
  have hmem : t.mem.writeBytes t.writeAddr (t.outBytes 1)
      = s.mem.writeBytes s.writeAddr s.hidden.bsp.out := by
    rw [← hall, Memory.writeBytes_append, hlen, ← hat]; rfl
  have hev : t.events ++ writeEvents t.writeAddr (t.outBytes 1)
      = s.events ++ writeEvents s.writeAddr s.hidden.bsp.out := by
    rw [← hall, writeEvents_append, hlen, ← hat, ← List.append_assoc]; rfl
  rw [hmem, hev]
  cases hs : s.hidden.lk.streams <;> simp [t, State.bytesWritten, hs, State.setBsp, State.blockDone,
    State.toBlock, hp]

/-- The source bytes of the block at hand. -/
def State.blockSource (s : State) : List Byte :=
  s.mem.readBytes (s.hidden.lk.src.toNat + Config.blockBytes * s.hidden.bsp.k) Config.blockBytes

/-- The result bytes of the block at hand. -/
def State.blockResult (s : State) : List Byte :=
  bytesOfBlock (transform s.hidden.lk.decrypts s.table s.r (blockOfBytes s.blockSource))

/-- Where the block at hand is written. -/
def State.blockTarget (s : State) : Nat := s.hidden.lk.outAddr + Config.blockBytes * s.hidden.bsp.k

/-- What one whole block leaves (R170), with hidden registers `h`. -/
def State.didBlock (h : Hidden) (s : State) : State :=
  { s with
    phase := if s.hidden.bsp.k + 1 < s.hidden.lk.blocks then .read else .finish
    hidden := h
    blkdone := BitVec.ofNat 32 (s.hidden.bsp.k + 1)
    mem := if s.hidden.lk.writesMem then s.mem.writeBytes s.blockTarget s.blockResult else s.mem
    events := s.events ++ readEvents (s.hidden.lk.src.toNat + Config.blockBytes * s.hidden.bsp.k) s.blockSource
      ++ (if s.hidden.lk.writesMem then writeEvents s.blockTarget s.blockResult else [])
      ++ (if s.hidden.lk.streams then [.emit s.blockResult] else [])
    sinkOut := if s.hidden.lk.streams then none else s.sinkOut }

/-- The reads and the transform of one block, up to the delivery of its result bytes. -/
theorem run_blockResult (s : State) (hp : s.phase = .read)
    (hb : s.hidden.lk.isBuffer = true) (hinp : s.hidden.bsp.inp = [])
    (hin : s.hidden.lk.src.toNat + Config.blockBytes * s.hidden.bsp.k + Config.blockBytes ≤ 2 ^ s.params.addrW)
    (hq : s.span.hostWrites = [])
    (hok : s.answersAll .read (s.hidden.lk.src.toNat + Config.blockBytes * s.hidden.bsp.k) Config.blockBytes) :
    ∃ h : Hidden, h.lk = s.hidden.lk ∧ h.bsp.k = s.hidden.bsp.k ∧ h.bsp.out = s.blockResult ∧ h.bsp.m = 0 ∧
      ∀ f, run (s.r + 18 + f) s = run f
        { s with
          phase := if s.hidden.lk.writesMem then .write else .offer
          hidden := h
          events := s.events ++
            readEvents (s.hidden.lk.src.toNat + Config.blockBytes * s.hidden.bsp.k) s.blockSource } := by
  have hbb : Config.blockBytes = 16 := rfl
  have ha : s.readAddr = s.hidden.lk.src.toNat + Config.blockBytes * s.hidden.bsp.k := by
    simp [State.readAddr, hinp]
  let t := s.blockRead s.readAddr s.blockSource
  have hpt : t.phase = .whiten := by simp [t, State.blockRead, hinp, State.blockSource]
  obtain ⟨x, hx, hrun⟩ := run_transform t hpt
  have hop : t.blockOperand = blockOfBytes s.blockSource := by
    simp [t, State.blockOperand, State.blockRead, hb, hinp]
  have htr : t.r = s.r := rfl
  have htb : t.table = s.table := rfl
  have hlk : t.hidden.lk = s.hidden.lk := rfl
  rw [hop, htr, htb, hlk] at hx
  have hres : bytesOfBlock (t.rounded x).rteResult = s.blockResult := by rw [hx]; rfl
  refine ⟨(deliverStep (t.rounded x)).hidden, ?_, ?_, ?_, ?_, fun f => ?_⟩
  · simp [deliverStep, State.rounded, hlk, hb, State.deliverBytes]
  · simp [deliverStep, State.rounded, hb, State.deliverBytes, t, State.blockRead]
  · simp only [deliverStep, hres]
    simp [State.rounded, hlk, hb, State.deliverBytes]
  · simp [deliverStep, State.rounded, hlk, hb, State.deliverBytes]
  · rw [show s.r + 18 + f = 16 + (s.r + 1 + (1 + f)) by omega,
      run_reads 16 _ s hp (by simp [hinp, hbb]) (by simp [hinp, hbb]) (by rw [ha]; omega) hq
        (by rw [ha]; exact hok)]
    have hbs : s.mem.readBytes s.readAddr 16 = s.blockSource := by rw [ha]; rfl
    rw [hbs]
    show run (s.r + 1 + (1 + f)) t = _
    rw [htr] at hrun
    rw [hrun (1 + f), Nat.add_comm 1 f,
      run_next f _ _ (canMove_of_phase _ (by simp [State.rounded]) (by simp [State.rounded]))
        (engineStep_deliver _ (by simp [State.rounded]))]
    congr 1
    simp [deliverStep, State.rounded, hb, State.deliverBytes, State.setBsp, State.setRte, t,
      State.blockRead, ha]

/-- A stream command's block up to its chunk on offer (R75), with hidden registers `h`. -/
def State.offered (h : Hidden) (s : State) : State :=
  { s with
    phase := .hold
    hidden := h
    mem := if s.hidden.lk.writesMem then s.mem.writeBytes s.blockTarget s.blockResult else s.mem
    events := s.events ++ readEvents (s.hidden.lk.src.toNat + Config.blockBytes * s.hidden.bsp.k) s.blockSource
      ++ (if s.hidden.lk.writesMem then writeEvents s.blockTarget s.blockResult else [])
    sinkOut := some s.blockResult }

/-- One block of a stream command up to its chunk on offer (R170, R177), whatever the sink does. -/
theorem run_blockOffer (s : State) (hp : s.phase = .read)
    (hb : s.hidden.lk.isBuffer = true) (hinp : s.hidden.bsp.inp = [])
    (hin : s.hidden.lk.src.toNat + Config.blockBytes * s.hidden.bsp.k + Config.blockBytes ≤ 2 ^ s.params.addrW)
    (hq : s.span.hostWrites = [])
    (hok : s.answersAll .read (s.hidden.lk.src.toNat + Config.blockBytes * s.hidden.bsp.k) Config.blockBytes)
    (hout : s.hidden.lk.writesMem = true → s.blockTarget + Config.blockBytes ≤ 2 ^ s.params.addrW)
    (hwok : s.hidden.lk.writesMem = true → s.answersAll .write s.blockTarget Config.blockBytes)
    (hs : s.hidden.lk.streams = true) :
    ∃ (n : Nat) (h : Hidden), n ≤ s.r + 35 ∧ h.lk = s.hidden.lk ∧ h.bsp.k = s.hidden.bsp.k ∧
      h.bsp.out = s.blockResult ∧ ∀ f, run (n + f) s = run f (s.offered h) := by
  obtain ⟨h, hlk, hk, ho, hm, hrun⟩ := run_blockResult s hp hb hinp hin hq hok
  have hlen : h.bsp.out.length = Config.blockBytes := by rw [ho]; rfl
  cases hw : s.hidden.lk.writesMem with
  | false =>
    rw [hw] at hrun
    refine ⟨s.r + 19, h, by omega, hlk, hk, ho, fun f => ?_⟩
    rw [show s.r + 19 + f = s.r + 18 + (f + 1) by omega, hrun,
      run_next f _ _ (canMove_of_phase _ (by simp) (by simp)) (engineStep_offer _ rfl)]
    simp [State.offered, offerStep, hw, ho]
  | true =>
    rw [hw] at hrun
    let t : State := { s with
      phase := .write
      hidden := h
      events := s.events ++
        readEvents (s.hidden.lk.src.toNat + Config.blockBytes * s.hidden.bsp.k) s.blockSource }
    have hat : t.writeAddr = s.blockTarget := by
      simp [t, State.writeAddr, State.blockTarget, hlk, hk, hm]
    have hst : t.hidden.lk.streams = true := by simpa [t, hlk] using hs
    obtain ⟨y, hyk, hyo, hwr⟩ := run_blockWrites t rfl hlen hm (by rw [hat]; exact hout hw) hq
      (by rw [hat]; exact hwok hw)
    simp only [hat, hst, if_true] at hwr
    refine ⟨s.r + 35, { h with bsp := y }, by omega, hlk, by simp [hyk, t, hk], by simp [hyo, t, ho],
      fun f => ?_⟩
    rw [show s.r + 35 + f = s.r + 18 + (16 + (f + 1)) by omega, hrun]
    show run (16 + (f + 1)) t = _
    rw [hwr, run_next f _ _ (canMove_of_phase _ (by simp) (by simp)) (engineStep_offer _ rfl)]
    simp [t, State.offered, offerStep, State.setBsp, hw, ho, hyo]

/-- The chunk on offer is accepted (R75): the block is done. -/
theorem run_accept (h : Hidden) (s : State) (f : Nat) (hlk : h.lk = s.hidden.lk)
    (hk : h.bsp.k = s.hidden.bsp.k) (hs : s.hidden.lk.streams = true) (hr : s.sinkReady = true) :
    run (1 + f) (s.offered h) = run f
      (s.didBlock { h with bsp := { h.bsp with k := h.bsp.k + 1, inp := [] } }) := by
  rw [Nat.add_comm, run_next _ _ _ (by simp [State.canMove, State.offered, hr])
    (engineStep_hold _ (by simp [State.offered]))]
  simp [State.offered, holdStep, hr, State.note, State.didBlock, State.blockDone, State.toBlock, State.setBsp,
    hlk, hk, hs]

/-- One whole block of a buffer command (R170), when the memory answers its accesses and the sink is ready. -/
theorem run_block (s : State) (hp : s.phase = .read)
    (hb : s.hidden.lk.isBuffer = true) (hinp : s.hidden.bsp.inp = [])
    (hin : s.hidden.lk.src.toNat + Config.blockBytes * s.hidden.bsp.k + Config.blockBytes ≤ 2 ^ s.params.addrW)
    (hq : s.span.hostWrites = [])
    (hok : s.answersAll .read (s.hidden.lk.src.toNat + Config.blockBytes * s.hidden.bsp.k) Config.blockBytes)
    (hout : s.hidden.lk.writesMem = true → s.blockTarget + Config.blockBytes ≤ 2 ^ s.params.addrW)
    (hwok : s.hidden.lk.writesMem = true → s.answersAll .write s.blockTarget Config.blockBytes)
    (hsink : s.hidden.lk.streams = true → s.sinkReady = true) :
    ∃ (n : Nat) (h : Hidden), n ≤ s.r + 36 ∧ h.lk = s.hidden.lk ∧ h.bsp.k = s.hidden.bsp.k + 1 ∧
      h.bsp.inp = [] ∧ ∀ f, run (n + f) s = run f (s.didBlock h) := by
  cases hs : s.hidden.lk.streams with
  | true =>
    obtain ⟨n, h, hn, hlk, hk, -, hrun⟩ := run_blockOffer s hp hb hinp hin hq hok hout hwok hs
    refine ⟨n + 1, { h with bsp := { h.bsp with k := h.bsp.k + 1, inp := [] } }, by omega, hlk,
      by simp [hk], rfl, fun f => ?_⟩
    rw [Nat.add_assoc, hrun, run_accept h s f hlk hk hs (hsink hs)]
  | false =>
    have hw : s.hidden.lk.writesMem = true := by simp [Latches.writesMem, hs]
    obtain ⟨h, hlk, hk, ho, hm, hrun⟩ := run_blockResult s hp hb hinp hin hq hok
    have hlen : h.bsp.out.length = Config.blockBytes := by rw [ho]; rfl
    rw [hw] at hrun
    let t : State := { s with
      phase := .write
      hidden := h
      events := s.events ++
        readEvents (s.hidden.lk.src.toNat + Config.blockBytes * s.hidden.bsp.k) s.blockSource }
    have hat : t.writeAddr = s.blockTarget := by
      simp [t, State.writeAddr, State.blockTarget, hlk, hk, hm]
    obtain ⟨y, hyk, -, hwr⟩ := run_blockWrites t rfl hlen hm (by rw [hat]; exact hout hw) hq
      (by rw [hat]; exact hwok hw)
    rw [hat] at hwr
    refine ⟨s.r + 34, { h with bsp := { y with k := y.k + 1, inp := [] } }, by omega, hlk,
      by simp [hyk, t, hk], rfl, fun f => ?_⟩
    rw [show s.r + 34 + f = s.r + 18 + (16 + f) by omega, hrun]
    show run (16 + f) t = _
    rw [hwr f]
    simp [t, State.didBlock, State.blockDone, State.toBlock, State.setBsp, hw, hs, hlk, hk, ho, hyk]

end Sys2Proof.Machine
end

