-- ==== Sys2Proof/Laws/Blocks.lean ====
section
/-! SUPPORT. The blocks of a buffer command as functions of the state at acceptance (Safety.lean), and the run
over them (R170): what is left after the first k blocks, from the state at acceptance alone. -/

namespace Sys2Proof.Machine

@[simp] theorem length_resultBlock (dec : Bool) (s : State) (k : Nat) :
    (s.resultBlock dec k).length = Config.blockBytes := rfl

@[simp] theorem length_sourceBlock (s : State) (k : Nat) :
    (s.sourceBlock k).length = Config.blockBytes := by
  simp [State.sourceBlock]

theorem resultBytes_succ (dec : Bool) (s : State) (n : Nat) :
    s.resultBytes dec (n + 1) = s.resultBytes dec n ++ s.resultBlock dec n := by
  simp [State.resultBytes, List.range_succ]

@[simp] theorem length_resultBytes (dec : Bool) (s : State) (n : Nat) :
    (s.resultBytes dec n).length = Config.blockBytes * n := by
  induction n with
  | zero => rfl
  | succ n ih => rw [resultBytes_succ, List.length_append, ih, length_resultBlock, Nat.mul_succ]

theorem bufferMem_succ (x : Modes) (s : State) (n : Nat) :
    s.bufferMem x (n + 1) = if x.writes then
      (s.bufferMem x n).writeBytes (x.out s + Config.blockBytes * n) (s.resultBlock x.decrypt n)
    else s.mem := by
  unfold State.bufferMem
  split
  · rw [resultBytes_succ, Memory.writeBytes_append, length_resultBytes]
  · rfl

theorem bufferEvents_succ (x : Modes) (s : State) (n : Nat) :
    s.bufferEvents x (n + 1) = s.bufferEvents x n ++ s.blockEvents x n := by
  simp [State.bufferEvents, List.range_succ, List.append_assoc]

/-- Block k reads its bytes as they were at acceptance: earlier blocks have not written them. -/
theorem readBytes_bufferMem (x : Modes) (s : State) (k : Nat) (h : s.BufferFits x)
    (hk : k < s.bufferBlocks) :
    (s.bufferMem x k).readBytes (s.src.toNat + Config.blockBytes * k) Config.blockBytes
      = s.sourceBlock k := by
  have hbb : Config.blockBytes = 16 := rfl
  have hk1 : Config.blockBytes * (k + 1) = Config.blockBytes * k + 16 := rfl
  have hlen : Config.blockBytes * (k + 1) ≤ s.len.toNat := by
    have := Nat.mul_le_mul_left Config.blockBytes hk
    exact Nat.le_trans this (Nat.mul_div_le _ _)
  unfold State.bufferMem
  split
  · rename_i hw
    refine Memory.readBytes_writeBytes_other _ _ _ _ _ ?_
    rw [length_resultBytes]
    cases hi : x.inPlace with
    | true => simp only [Modes.out, hi, if_true]; omega
    | false =>
      simp only [Modes.out, hi, Bool.false_eq_true, if_false]
      have := h.apart hw hi (by omega)
      omega
  · rfl

/-- The machine after k finished blocks of a buffer command accepted in `s`, with hidden registers `h`. -/
def State.atBlock (x : Modes) (k : Nat) (h : Hidden) (s : State) : State :=
  { s with
    status := s.status.accepted
    errinfo := 0
    blkdone := BitVec.ofNat 32 k
    phase := if k < s.bufferBlocks then .read else .finish
    hidden := h
    mem := s.bufferMem x k
    events := s.bufferEvents x k
    span := ⟨s.mem, s.events.length, []⟩ }

/-- The hidden registers of a buffer command accepted in `s` with its word `w`, when k blocks are finished. -/
structure Hidden.BetweenBlocks (w : Word) (s : State) (k : Nat) (h : Hidden) : Prop where
  lk : h.lk = s.latches w
  block : h.bsp.k = k
  inp : h.bsp.inp = []

/-- The first k blocks of a buffer command, from the state at acceptance alone (R170, R181). -/
theorem run_blocks (w : Word) (s : State) (k : Nat) (h0 : Hidden) (x : Modes)
    (hx : x = (s.latches w).modes) (hbuf : (s.latches w).isBuffer = true)
    (hfit : s.BufferFits x) (hk : k ≤ s.bufferBlocks)
    (hrd : s.answersAll .read s.src.toNat (Config.blockBytes * k))
    (hwr : x.writes = true → s.answersAll .write (x.out s) (Config.blockBytes * k))
    (hsink : x.stream = true → s.sinkReady = true ∧ s.sinkOut = none)
    (hh : h0.BetweenBlocks w s 0) :
    ∃ (n : Nat) (h : Hidden), n ≤ k * (s.r + 36) ∧ h.BetweenBlocks w s k ∧
      ∀ f, run (n + f) (s.atBlock x 0 h0) = run f (s.atBlock x k h) := by
  have hbb : Config.blockBytes = 16 := rfl
  induction k with
  | zero => exact ⟨0, h0, by omega, hh, fun f => by rw [Nat.zero_add]⟩
  | succ k ih =>
    have hk1 : Config.blockBytes * (k + 1) = Config.blockBytes * k + 16 := rfl
    obtain ⟨n, h, hn, hb, hrun⟩ := ih (by omega) (fun y h1 h2 => hrd y h1 (by omega))
      (fun hw y h1 h2 => hwr hw y h1 (by omega))
    have hkb : k < s.bufferBlocks := hk
    have hlen : Config.blockBytes * (k + 1) ≤ s.len.toNat :=
      Nat.le_trans (Nat.mul_le_mul_left _ hk) (Nat.mul_div_le _ _)
    let t := s.atBlock x k h
    have hlk : t.hidden.lk = s.latches w := hb.lk
    have hbk : t.hidden.bsp.k = k := hb.block
    have hmo : t.hidden.lk.modes = x := by rw [hlk, hx]
    have hwm : t.hidden.lk.writesMem = x.writes := by rw [← hmo]; rfl
    have hst : t.hidden.lk.streams = x.stream := by rw [← hmo]; rfl
    have hde : t.hidden.lk.decrypts = x.decrypt := by rw [← hmo]; rfl
    have hsrc : t.hidden.lk.src.toNat + Config.blockBytes * t.hidden.bsp.k
        = s.src.toNat + Config.blockBytes * k := by rw [hlk, hbk]; rfl
    have hoa : t.hidden.lk.outAddr = x.out s := by
      rw [← hmo]; simp only [Latches.outAddr, Modes.out, Latches.modes, hlk]; rfl
    have htg : t.blockTarget = x.out s + Config.blockBytes * k := by
      rw [State.blockTarget, hoa, hbk]
    have hsb : t.blockSource = s.sourceBlock k := by
      rw [State.blockSource, hsrc]; exact readBytes_bufferMem x s k hfit hkb
    have hrb : t.blockResult = s.resultBlock x.decrypt k := by
      rw [State.blockResult, hsb, hde]; rfl
    have hpar : t.params = s.params := rfl
    obtain ⟨n', h', hn', hlk', hk', hi', hrun'⟩ := run_block t (by simp [t, State.atBlock, hkb])
      (by rw [hlk]; exact hbuf) hb.inp
      (by rw [hsrc, hpar]; have := hfit.source; omega) rfl
      (by rw [hsrc]; exact fun y h1 h2 => hrd y (by omega) (by omega))
      (by rw [hwm, htg, hpar]; intro hw; have := hfit.target hw; omega)
      (by rw [hwm, htg]; exact fun hw y h1 h2 => hwr hw y (by omega) (by omega))
      (by rw [hst]; exact fun hs => (hsink hs).1)
    refine ⟨n + n', h', ?_, ⟨by rw [hlk', hlk], by rw [hk', hbk], hi'⟩, fun f => ?_⟩
    · have : t.r = s.r := rfl
      rw [Nat.succ_mul]; omega
    · rw [Nat.add_assoc, hrun]
      show run (n' + f) t = _
      rw [hrun' f]
      congr 1
      have hblocks : t.hidden.lk.blocks = s.bufferBlocks := by rw [hlk]; rfl
      have hso : (if x.stream = true then none else s.sinkOut) = s.sinkOut := by
        split
        · rename_i hs; exact ((hsink hs).2).symm
        · rfl
      have hs0 : h.lk.src = s.src := by rw [hb.lk]; rfl
      simp only [State.didBlock, hblocks, hbk, hwm, hst, htg, hrb, hsb]
      simp only [State.atBlock, bufferMem_succ, bufferEvents_succ, State.blockEvents, t, hso, hs0,
        List.append_assoc]
      congr 1
      split <;> simp_all [State.bufferMem]

end Sys2Proof.Machine
end

