-- ==== Sys2Proof/Laws/PerInstr.lean ====
section
/-! SUPPORT. Facts of each command as syntax: its word is legal and decodes to it (R94, R96), and its word
fits in one byte (R91 "reserved; must be 0"). -/

namespace Sys2Proof.Laws.RoundTrip

/-- The command's word is legal, decodes to the command, and has RSV = 0. -/
def Statement (i : Instr) : Prop :=
  i.wellFormed = true ∧ legalWord (encode i) = true ∧ decode (encode i) = .ok i ∧ (encode i).toNat < 256

theorem expand : Statement .expand := by refine ⟨rfl, ?_, rfl, ?_⟩ <;> decide
theorem encblk : Statement .encblk := by refine ⟨rfl, ?_, rfl, ?_⟩ <;> decide
theorem decblk : Statement .decblk := by refine ⟨rfl, ?_, rfl, ?_⟩ <;> decide
theorem enc : Statement .enc := by refine ⟨rfl, ?_, rfl, ?_⟩ <;> decide
theorem dec : Statement .dec := by refine ⟨rfl, ?_, rfl, ?_⟩ <;> decide
theorem enci : Statement .enci := by refine ⟨rfl, ?_, rfl, ?_⟩ <;> decide
theorem deci : Statement .deci := by refine ⟨rfl, ?_, rfl, ?_⟩ <;> decide
theorem encs : Statement .encs := by refine ⟨rfl, ?_, rfl, ?_⟩ <;> decide
theorem decs : Statement .decs := by refine ⟨rfl, ?_, rfl, ?_⟩ <;> decide
theorem encis : Statement .encis := by refine ⟨rfl, ?_, rfl, ?_⟩ <;> decide
theorem decis : Statement .decis := by refine ⟨rfl, ?_, rfl, ?_⟩ <;> decide

/-- All commands at once. -/
theorem all (i : Instr) : Statement i := by
  cases i
  exacts [expand, encblk, decblk, enc, dec, enci, deci, encs, decs, encis, decis]

end Sys2Proof.Laws.RoundTrip
end

