-- ==== Sys2Proof/Laws/Commands.lean ====
section
/-! SUPPORT. A command from its CMD write on: acceptance, the CHECK phase, and how a known run of the engine
gives the answer of exec. -/

namespace Sys2Proof.Machine

/-- exec of a command is the CMD write of its word. -/
theorem exec_eq_issue (i : Instr) (s : State) : exec i s = issue (encode i) s := by
  cases i <;> rfl

theorem decode_encode (i : Instr) : decode (encode i) = .ok i := (Laws.RoundTrip.all i).2.2.1

/-- A CMD write while a command runs is dropped, and the engine goes on (R201). -/
theorem issue_of_busy (w : Word) (s : State) (h : s.status.busy = true) :
    issue w s = s.dropCommand.resume := by
  simp [issue, State.writeCmd, h]

/-- A CMD write of a legal word while no command runs is accepted (R200). -/
theorem issue_of_idle (w : Word) (s : State) (i : Instr) (h : s.status.busy = false)
    (hw : decode w = .ok i) : issue w s = (s.accept w).resume := by
  simp [issue, State.writeCmd, h, hw]

/-- Acceptance of an illegal word is its whole course (R95, R211). -/
theorem issue_of_illegal (w : Word) (s : State) (e : IllegalWord) (h : s.status.busy = false)
    (hw : decode w = .error e) : issue w s = .next (s.endedWith .badcmd w) := by
  have hi : ((s.accept w).raiseError .badcmd w).canMove = false := by simp [State.canMove]
  obtain ⟨n, hn, -⟩ := resume_eq_run ((s.accept w).raiseError .badcmd w)
  simp only [issue, State.writeCmd, h, hw, Bool.false_eq_true, if_false]
  rw [hn, run_of_not_canMove _ _ hi]
  rfl

theorem exec_of_idle (i : Instr) (s : State) (h : s.status.busy = false) :
    exec i s = (s.accept (encode i)).resume := by
  rw [exec_eq_issue, issue_of_idle _ _ i h (decode_encode i)]

/-- The engine's share begins with one step when the engine can move and is given a step. -/
theorem resume_first (s : State) (hm : s.canMove = true) (hp : s.engineRuns) :
    ∃ n, s.resume = (engineStep s).andThen (run n) := by
  unfold State.resume
  split
  · refine ⟨s.workBound - 1, ?_⟩
    rw [← run_succ _ _ hm, Nat.sub_add_cancel]
    unfold State.workBound
    omega
  · rename_i n h
    have hn : n ≠ 0 := by rintro rfl; exact hp h
    refine ⟨n - 1, ?_⟩
    rw [← run_succ _ _ hm]
    congr 1
    omega

/-- A course of the engine that ends where it cannot move is the engine's share, when the share is long
enough. -/
theorem resume_of_run (s t : State) (n : Nat) (hp : s.pace = none) (hn : n ≤ s.workBound)
    (ht : t.canMove = false) (h : ∀ f, run (n + f) s = run f t) : s.resume = .next t := by
  simp only [State.resume, hp]
  rw [← Nat.add_sub_cancel' hn, h, run_of_not_canMove _ _ ht]

/-- The CHECK phase of a command whose check fails (R212, R215). -/
theorem checkStep_of_failed (s : State) (i : Instr) (code : ErrCode) (info : Word)
    (hd : decode s.hidden.lk.cmd = .ok i) (hc : checksOf i s = some (code, info)) :
    checkStep s = s.raiseError code info := by
  simp [checkStep, hd, hc]

/-- The CHECK phase of a command whose checks pass. -/
theorem checkStep_of_passed (s : State) (i : Instr) (hd : decode s.hidden.lk.cmd = .ok i)
    (hc : checksOf i s = none) : checkStep s = startOf i s := by
  simp [checkStep, hd, hc]

/-- A command whose check fails ends with that error and no other effect (R214). -/
theorem exec_of_failed (i : Instr) (s : State) (code : ErrCode) (info : Word)
    (h : s.status.busy = false) (hp : s.engineRuns)
    (hc : checksOf i (s.accept (encode i)) = some (code, info)) :
    exec i s = .next (s.endedWith code info) := by
  rw [exec_of_idle i s h]
  obtain ⟨n, hn⟩ := resume_first (s.accept (encode i)) (by simp [State.canMove]) hp
  rw [hn, engineStep_check _ (by simp),
    checkStep_of_failed _ i code info (by simpa [State.latches] using decode_encode i) hc,
    Result.next_andThen, run_of_not_canMove _ _ (by simp [State.canMove])]
  rfl

/-- A command whose checks pass starts its work after one step. -/
theorem run_of_passed (i : Instr) (s : State) (f : Nat)
    (hc : checksOf i (s.accept (encode i)) = none) :
    run (1 + f) (s.accept (encode i)) = run f (startOf i (s.accept (encode i))) := by
  rw [Nat.add_comm, run_next _ _ _ (by simp [State.canMove]) (engineStep_check _ (by simp)),
    checkStep_of_passed _ i (by simpa [State.latches] using decode_encode i) hc]

/-- The completion of a command that has done its work (R213). -/
theorem run_finish (s : State) (f : Nat) (hp : s.phase = .finish) :
    run (1 + f) s = run f s.complete := by
  rw [Nat.add_comm, run_next _ _ _ (canMove_of_phase s (by simp [hp]) (by simp [hp]))
    (engineStep_finish s hp)]

/-! What the latched word of a command says (R91). -/

theorem encode_bit_blockCommand (d : Bool) : (encode (blockCommand d)).getLsbD 0 = d := by
  revert d; decide

theorem encode_group_blockCommand (d : Bool) : (encode (blockCommand d)).extractLsb 7 3 = 0b00000#5 := by
  revert d; decide

theorem encode_bits_bufferCommand (m i d : Bool) :
    (encode (bufferCommand m i d)).getLsbD 0 = d ∧ (encode (bufferCommand m i d)).getLsbD 1 = i ∧
      (encode (bufferCommand m i d)).getLsbD 2 = m := by
  revert m i d; decide

theorem encode_group_bufferCommand (m i d : Bool) :
    (encode (bufferCommand m i d)).extractLsb 7 3 = 0b00010#5 := by
  revert m i d; decide

@[simp] theorem decrypts_blockCommand (d : Bool) (s : State) :
    (s.latches (encode (blockCommand d))).decrypts = d := encode_bit_blockCommand d

@[simp] theorem isBuffer_blockCommand (d : Bool) (s : State) :
    (s.latches (encode (blockCommand d))).isBuffer = false := by
  rw [Latches.isBuffer, State.latches, encode_group_blockCommand]; rfl

@[simp] theorem modes_bufferCommand (m i d : Bool) (s : State) :
    (s.latches (encode (bufferCommand m i d))).modes = ⟨d, i, m⟩ := by
  obtain ⟨h0, h1, h2⟩ := encode_bits_bufferCommand m i d
  simp only [Latches.modes, Latches.decrypts, Latches.inPlace, Latches.streams, State.latches, h0, h1, h2]

@[simp] theorem isBuffer_bufferCommand (m i d : Bool) (s : State) :
    (s.latches (encode (bufferCommand m i d))).isBuffer = true := by
  rw [Latches.isBuffer, State.latches, encode_group_bufferCommand]; rfl

/-! A buffer command from acceptance to its first block. -/

/-- A range is legal when it ends inside the memory space (R67). -/
theorem rangeLegal_iff (p : Params) (a n : Word) :
    rangeLegal p a n = true ↔ a.toNat + n.toNat ≤ 2 ^ p.addrW :=
  decide_eq_true_iff

/-- The checks of a buffer command pass on operands that fit, with a table (R215). -/
theorem checksOf_bufferCommand (m i d : Bool) (s : State) (h : s.BufferFits ⟨d, i, m⟩)
    (hk : s.status.keyvalid = true) :
    checksOf (bufferCommand m i d) (s.accept (encode (bufferCommand m i d))) = none := by
  have h1 : wholeBlocks s.len = true := by simpa [wholeBlocks] using h.whole
  have h2 : rangeLegal s.params s.src s.len = true := (rangeLegal_iff _ _ _).2 h.source
  have hin : sourceChecks (s.accept (encode (bufferCommand m i d))) = none := by
    simp [sourceChecks, State.latches, h1, h2, hk]
  cases m <;> cases i <;> try (cases d <;> exact hin)
  have h3 : rangeLegal s.params s.dst s.len = true := (rangeLegal_iff _ _ _).2 (h.target rfl)
  have h4 : rangesOverlap s.src s.dst s.len = false := by
    have := h.apart rfl rfl
    simp only [rangesOverlap, Bool.and_eq_false_iff, decide_eq_false_iff_not]
    omega
  have hcopy : ∀ w, copyChecks (s.accept w) = none := fun w => by
    simp [copyChecks, State.latches, h1, h2, h3, h4, hk]
  cases d <;> exact hcopy _

/-- What a buffer command starts with. -/
theorem startOf_bufferCommand (m i d : Bool) : startOf (bufferCommand m i d) = State.toBlock 0 := by
  cases m <;> cases i <;> cases d <;> rfl

/-- A buffer command at its block 0, in the form of `run_blocks`. -/
theorem toBlock_zero (w : Word) (x : Modes) (s : State) :
    (s.accept w).toBlock 0 = s.atBlock x 0 ((s.accept w).toBlock 0).hidden := by
  simp only [State.atBlock, State.bufferMem, State.bufferEvents, State.resultBytes, List.range_zero,
    List.flatMap_nil, Memory.writeBytes, List.append_nil, ite_self]
  rfl

end Sys2Proof.Machine
end

