-- ==== Sys2Proof/Laws/Frame.lean ====
section
/-! SUPPORT. What one step can do, said once: the cases of an engine step, what no engine step changes, and the
parts of a step of the whole machine. -/

namespace Sys2Proof.Machine

/-- The codes a check can raise (R215). -/
theorem code_of_checksOf (i : Instr) (s : State) (code : ErrCode) (info : Word)
    (h : checksOf i s = some (code, info)) : code ≠ .bus ∧ code ≠ .noError := by
  cases i <;> simp only [checksOf, expandChecks, blockChecks, copyChecks, sourceChecks] at h <;>
    split_ifs at h <;> simp at h <;> (rw [← h.1]; decide)

/-- Everything the CHECK phase can do. -/
theorem checkStep_cases (s : State) :
    (∃ code info, checkStep s = s.raiseError code info ∧ code ≠ .bus ∧ code ≠ .noError) ∨
      ∃ i, decode s.hidden.lk.cmd = .ok i ∧ checksOf i s = none ∧ checkStep s = startOf i s := by
  unfold checkStep
  split
  · exact .inl ⟨_, _, rfl, by decide, by decide⟩
  · rename_i i hi
    split
    · rename_i code info hc
      exact .inl ⟨code, info, rfl, code_of_checksOf i s code info hc⟩
    · rename_i hc
      exact .inr ⟨i, hi, hc, rfl⟩

/-- Everything an engine step can do, by the phase it starts in. -/
theorem engineStep_cases (s t : State) (h : engineStep s = .next t) :
    (s.phase = .idle ∧ t = s) ∨
    (s.phase = .check ∧ ((∃ code info, t = s.raiseError code info ∧ code ≠ .bus ∧ code ≠ .noError) ∨
      ∃ i, decode s.hidden.lk.cmd = .ok i ∧ checksOf i s = none ∧ t = startOf i s)) ∨
    (s.phase = .fetch ∧ fetchStep s = .next t) ∨ (s.phase = .init ∧ t = initStep s) ∨
    (s.phase = .mix ∧ t = mixPhaseStep s) ∨ (s.phase = .commit ∧ t = commitStep s) ∨
    (s.phase = .read ∧ readStep s = .next t) ∨ (s.phase = .whiten ∧ t = whitenStep s) ∨
    (s.phase = .round ∧ t = roundStep s) ∨ (s.phase = .deliver ∧ t = deliverStep s) ∨
    (s.phase = .write ∧ writeStep s = .next t) ∨ (s.phase = .offer ∧ t = offerStep s) ∨
    (s.phase = .hold ∧ t = holdStep s) ∨ (s.phase = .finish ∧ t = s.complete) := by
  unfold engineStep at h
  split at h <;> rename_i hp <;>
    simp only [hp, true_and, reduceCtorEq, false_and, or_false, false_or, Host.Outcome.next.injEq] at h ⊢ <;>
    try exact h.symm
  all_goals try exact h
  subst h
  exact checkStep_cases s

/-- What no engine step changes: the operand registers, CTRL, CMDLOST, the parameters and all inputs of the
block. -/
structure State.SameInputs (s t : State) : Prop where
  params : t.params = s.params
  rst : t.rst = s.rst
  ie : t.ie = s.ie
  rounds : t.rounds = s.rounds
  keyaddr : t.keyaddr = s.keyaddr
  keylen : t.keylen = s.keylen
  src : t.src = s.src
  dst : t.dst = s.dst
  len : t.len = s.len
  din : t.din = s.din
  sinkReady : t.sinkReady = s.sinkReady
  errRegions : t.errRegions = s.errRegions
  readData : t.readData = s.readData
  inbox : t.inbox = s.inbox
  pace : t.pace = s.pace
  cmdlost : t.status.cmdlost = s.status.cmdlost

namespace State.SameInputs

theorem refl (s : State) : s.SameInputs s := by constructor <;> rfl

theorem trans {s t u : State} (h : s.SameInputs t) (k : t.SameInputs u) : s.SameInputs u :=
  ⟨k.1.trans h.1, k.2.trans h.2, k.3.trans h.3, k.4.trans h.4, k.5.trans h.5, k.6.trans h.6, k.7.trans h.7,
    k.8.trans h.8, k.9.trans h.9, k.10.trans h.10, k.11.trans h.11, k.12.trans h.12, k.13.trans h.13,
    k.14.trans h.14, k.15.trans h.15, k.16.trans h.16⟩

theorem startOf (i : Instr) (s : State) : s.SameInputs (startOf i s) := by cases i <;> constructor <;> rfl

theorem wroteByte (s : State) : s.SameInputs (wroteByte s) := by
  unfold Machine.wroteByte; split_ifs <;> constructor <;> rfl

theorem holdStep (s : State) : s.SameInputs (holdStep s) := by
  unfold Machine.holdStep
  split
  · split_ifs <;> constructor <;> simp
  · exact refl s

/-- No access of the engine changes an input that its continuation does not change. -/
theorem of_memRead (a : Nat) (k : Byte → State → State) (s t : State) (hk : ∀ (b : Byte) (u : State), u.SameInputs (k b u))
    (h : s.memRead a k = .next t) : s.SameInputs t := by
  obtain ⟨-, ⟨-, rfl⟩ | ⟨-, b, n, rfl⟩⟩ := memRead_cases _ _ _ _ h
  · constructor <;> rfl
  · exact trans (by constructor <;> rfl) (hk b _)

theorem of_memWrite (a : Nat) (v : Byte) (k : State → State) (s t : State) (hk : ∀ u : State, u.SameInputs (k u))
    (h : s.memWrite a v k = .next t) : s.SameInputs t := by
  obtain ⟨-, ⟨-, rfl⟩ | ⟨-, b, n, rfl⟩⟩ := memWrite_cases _ _ _ _ _ h
  · constructor <;> rfl
  · exact trans (by constructor <;> rfl) (hk _)

/-- No engine step changes an input. -/
theorem engineStep (s t : State) (h : engineStep s = .next t) : s.SameInputs t := by
  obtain ⟨-, rfl⟩ | ⟨-, (⟨c, i, rfl, -⟩ | ⟨i, -, -, rfl⟩)⟩ | ⟨-, h⟩ | ⟨-, rfl⟩ | ⟨-, rfl⟩ | ⟨-, rfl⟩ |
    ⟨-, h⟩ | ⟨-, rfl⟩ | ⟨-, rfl⟩ | ⟨-, rfl⟩ | ⟨-, h⟩ | ⟨-, rfl⟩ | ⟨-, rfl⟩ | ⟨-, rfl⟩ := engineStep_cases s t h
  · exact refl t
  · constructor <;> rfl
  · exact startOf i s
  · exact of_memRead _ takeKeyByte s t (fun _ _ => by constructor <;> rfl) h
  · constructor <;> rfl
  · constructor <;> rfl
  · constructor <;> rfl
  · exact of_memRead _ takeSourceByte s t (fun _ _ => by constructor <;> rfl) h
  · unfold whitenStep; cases s.hidden.lk.decrypts <;> constructor <;> rfl
  · unfold roundStep; cases s.hidden.lk.decrypts <;> constructor <;> rfl
  · unfold deliverStep; cases s.hidden.lk.isBuffer <;> constructor <;> rfl
  · exact of_memWrite _ _ _ s t wroteByte h
  · constructor <;> rfl
  · exact holdStep s
  · constructor <;> rfl

/-- Neither does any number of them. -/
theorem run (n : Nat) (s t : State) (h : run n s = .next t) : s.SameInputs t :=
  run_keeps s.SameInputs (fun _ _ h1 h2 => h1.trans (engineStep _ _ h2)) n s t (refl s) h

end State.SameInputs

/-- A CMD write is taken only while rst is released. -/
theorem rst_of_commandWord (s : State) (e : Event) (w : Word) (h : s.commandWord e = some w) :
    s.rst = false := by
  unfold State.commandWord at h
  split at h
  · split_ifs at h with hc
    simp only [Bool.and_eq_true, Bool.not_eq_true'] at hc
    exact hc.1
  · simp at h

/-- Everything a step of the whole machine can be: the engine alone, a legal or illegal CMD write, or another
event and then the engine. -/
theorem step_cases (s t : State) (h : step s = .next t) :
    (s.inbox = [] ∧ s.resume = .next t) ∨
    ∃ e rest, s.inbox = e :: rest ∧
      ((∃ w i, (s.popInbox rest).commandWord e = some w ∧ decode w = .ok i ∧
          exec i (s.popInbox rest) = .next t) ∨
        (∃ w x, (s.popInbox rest).commandWord e = some w ∧ decode w = .error x ∧
          issue w (s.popInbox rest) = .next t) ∨
        ((s.popInbox rest).commandWord e = none ∧
          ∃ u, (s.popInbox rest).outside e = .next u ∧ u.resume = .next t)) := by
  unfold step at h
  split at h
  · rename_i hi; exact .inl ⟨hi, h⟩
  · rename_i e rest hi
    refine .inr ⟨e, rest, hi, ?_⟩
    split at h
    · rename_i w hw
      split at h
      · rename_i i hd; exact .inl ⟨w, i, hw, hd, h⟩
      · rename_i x hd; exact .inr (.inl ⟨w, x, hw, hd, h⟩)
    · rename_i hn
      exact .inr (.inr ⟨hn, Result.andThen_eq_next _ _ _ h⟩)

/-- What every engine step does not look at and leaves alone, a run does not look at and leaves alone: changing
it before the run or after it is the same. -/
theorem run_commutes (k : State → State) (hm : ∀ s, (k s).canMove = s.canMove)
    (hs : ∀ s, engineStep (k s) = (engineStep s).mapNext k) (n : Nat) (s : State) :
    run n (k s) = (run n s).mapNext k := by
  induction n generalizing s with
  | zero => rfl
  | succ n ih =>
    by_cases h : s.canMove = true
    · rw [run_succ _ _ ((hm s).trans h), run_succ _ _ h, hs]
      simp only [Result.mapNext, Result.andThen_assoc, Result.next_andThen]
      congr 1
      exact funext ih
    · have h : s.canMove = false := by simpa using h
      rw [run_of_not_canMove _ _ ((hm s).trans h), run_of_not_canMove _ _ h]
      rfl

/-- The machine with another pace. -/
def State.setPace (p : Option Nat) (s : State) : State := { s with pace := p }

theorem seeByte_setPace (p : Option Nat) (w : List Byte) (a : Nat) (k : Byte → State → State)
    (hk : ∀ b t, k b (t.setPace p) = (k b t).setPace p) (s : State) :
    (s.setPace p).seeByte w a k = (s.seeByte w a k).setPace p := by
  cases w with
  | nil => exact hk _ s
  | cons b bs => exact hk _ (s.setFree (s.freeIdx + 1))

theorem putByte_setPace (p : Option Nat) (w : List Byte) (a : Nat) (v : Byte) (s : State) :
    (s.setPace p).putByte w a v = (s.putByte w a v).setPace p := by
  cases w <;> rfl

/-- The memory port does not look at the pace. -/
theorem memRead_setPace (p : Option Nat) (a : Nat) (k : Byte → State → State)
    (hk : ∀ b t, k b (t.setPace p) = (k b t).setPace p) (s : State) :
    State.memRead a k (s.setPace p) = (s.memRead a k).mapNext (State.setPace p) := by
  by_cases hm : s.inMemory a = true
  · by_cases he : s.answersError .read a = true
    · rw [memRead_error a k s hm he, memRead_error a k (s.setPace p) hm he]; rfl
    · have he : s.answersError .read a = false := by simpa using he
      have h : ∀ t : State, t.inMemory a = true → t.answersError .read a = false → t.memRead a k =
          .next (t.seeByte (t.hostBytes a) a fun b u => k b (u.note (.read a (some b)))) := by
        intro t h1 h2; simp [State.memRead, h1, h2]
      rw [h s hm he, h (s.setPace p) hm he]
      exact congrArg Host.Outcome.next
        (seeByte_setPace p (s.hostBytes a) a _ (fun b t => hk b (t.note (.read a (some b)))) s)
  · have h : ∀ t : State, t.inMemory a = s.inMemory a → t.memRead a k = .fault (.outsideMemory a) := by
      intro t ht; simp [State.memRead, ht, hm]
    rw [h _ rfl, h (s.setPace p) rfl]; rfl

theorem memWrite_setPace (p : Option Nat) (a : Nat) (v : Byte) (k : State → State)
    (hk : ∀ t, k (t.setPace p) = (k t).setPace p) (s : State) :
    State.memWrite a v k (s.setPace p) = (s.memWrite a v k).mapNext (State.setPace p) := by
  by_cases hm : s.inMemory a = true
  · by_cases he : s.answersError .write a = true
    · rw [memWrite_error a v k s hm he, memWrite_error a v k (s.setPace p) hm he]; rfl
    · have he : s.answersError .write a = false := by simpa using he
      have h : ∀ t : State, t.inMemory a = true → t.answersError .write a = false → t.memWrite a v k =
          .next (k ((t.putByte ((t.hostBytes a).take 1) a v).note (.write a v true))) := by
        intro t h1 h2; simp [State.memWrite, h1, h2]
      have hb : (s.setPace p).hostBytes a = s.hostBytes a := rfl
      rw [h s hm he, h (s.setPace p) hm he, hb, putByte_setPace]
      exact congrArg Host.Outcome.next
        (hk ((s.putByte ((s.hostBytes a).take 1) a v).note (.write a v true)))
  · have h : ∀ t : State, t.inMemory a = s.inMemory a → t.memWrite a v k = .fault (.outsideMemory a) := by
      intro t ht; simp [State.memWrite, ht, hm]
    rw [h _ rfl, h (s.setPace p) rfl]; rfl

/-- The checks do not look at the pace. -/
theorem checkStep_setPace (p : Option Nat) (s : State) :
    checkStep (s.setPace p) = (checkStep s).setPace p := by
  have hc : ∀ i, checksOf i (s.setPace p) = checksOf i s := fun i => by cases i <;> rfl
  have hl : (s.setPace p).hidden.lk.cmd = s.hidden.lk.cmd := rfl
  simp only [checkStep, hc, hl]
  cases decode s.hidden.lk.cmd with
  | error e => rfl
  | ok i =>
    simp only
    cases checksOf i s with
    | some e => rfl
    | none => cases i <;> rfl

/-- The engine does not look at its pace. -/
theorem run_setPace (p : Option Nat) (n : Nat) (s : State) :
    run n (s.setPace p) = (run n s).mapNext (State.setPace p) := by
  refine run_commutes (State.setPace p) (fun _ => rfl) (fun t => ?_) n s
  have hph : (t.setPace p).phase = t.phase := rfl
  cases hp : t.phase <;> rw [hp] at hph
  · simp only [engineStep, hp, hph]; rfl
  · rw [engineStep_check _ hp, engineStep_check _ hph, checkStep_setPace]; rfl
  · rw [engineStep_fetch _ hp, engineStep_fetch _ hph]
    exact memRead_setPace p _ takeKeyByte (fun _ _ => rfl) t
  · rw [engineStep_init _ hp, engineStep_init _ hph]; rfl
  · rw [engineStep_mix _ hp, engineStep_mix _ hph]; rfl
  · rw [engineStep_commit _ hp, engineStep_commit _ hph]; rfl
  · rw [engineStep_read _ hp, engineStep_read _ hph]
    exact memRead_setPace p _ takeSourceByte (fun _ _ => rfl) t
  · rw [engineStep_whiten _ hp, engineStep_whiten _ hph]
    refine congrArg Host.Outcome.next ?_
    simp only [whitenStep, apply_ite (State.setPace p)]; rfl
  · rw [engineStep_round _ hp, engineStep_round _ hph]
    refine congrArg Host.Outcome.next ?_
    simp only [roundStep, apply_ite (State.setPace p)]; rfl
  · rw [engineStep_deliver _ hp, engineStep_deliver _ hph]
    refine congrArg Host.Outcome.next ?_
    simp only [deliverStep, apply_ite (State.setPace p)]; rfl
  · rw [engineStep_write _ hp, engineStep_write _ hph]
    refine memWrite_setPace p _ _ wroteByte (fun u => ?_) t
    simp only [wroteByte, apply_ite (State.setPace p)]; rfl
  · rw [engineStep_offer _ hp, engineStep_offer _ hph]; rfl
  · rw [engineStep_hold _ hp, engineStep_hold _ hph]
    refine congrArg Host.Outcome.next ?_
    have hs : (t.setPace p).sinkOut = t.sinkOut := rfl
    simp only [holdStep, hs]
    cases t.sinkOut with
    | none => rfl
    | some chunk => simp only [apply_ite (State.setPace p)]; rfl
  · rw [engineStep_finish _ hp, engineStep_finish _ hph]; rfl

end Sys2Proof.Machine
end

