-- ==== Sys2Proof/Laws/Schedule.lean ====
section
/-! SUPPORT. The key schedule: the sizes its loops keep, and that mixing never touches the words of the table
storage above the table (R131, R133, R135). -/

namespace Sys2Proof.Machine

@[simp] theorem length_keyRamp (n : Nat) (w : Word) : (keyRamp n w).length = n := by
  induction n generalizing w with
  | zero => rfl
  | succ n ih => simp [keyRamp, ih]

@[simp] theorem length_keyInit (r : Nat) : (keyInit r).length = tableWords r := by simp [keyInit]

@[simp] theorem length_keyPack (key : List Byte) : (keyPack key).length = keyWords key.length := by
  simp [keyPack]

/-- INIT fills the table storage: t words of KeyInit and the free words above them. -/
@[simp] theorem length_freeTail (t : Nat) (s : State) : (s.freeTail t).length = s.params.tMax - t := by
  simp [State.freeTail]

@[simp] theorem length_table_mixTimes (t c n : Nat) (x : Mix) :
    (mixTimes t c n x).table.length = x.table.length := by
  induction n generalizing x with
  | zero => rfl
  | succ n ih => rw [mixTimes, ih, length_table_mixStep]

@[simp] theorem length_l_mixTimes (t c n : Nat) (x : Mix) :
    (mixTimes t c n x).l.length = x.l.length := by
  induction n generalizing x with
  | zero => rfl
  | succ n ih => rw [mixTimes, ih, length_l_mixStep]

/-- The last of some mixing steps by itself. -/
theorem mixTimes_succ (t c n : Nat) (x : Mix) :
    mixTimes t c (n + 1) x = mixStep t c (mixTimes t c n x) := by
  induction n generalizing x with
  | zero => rfl
  | succ n ih => rw [mixTimes, ih, mixTimes]

/-- A mixing state with more words behind its table. -/
def Mix.extend (x : Mix) (rest : List Word) : Mix := { x with table := x.table ++ rest }

/-- A mixing step neither reads nor writes the words behind the table. -/
theorem mixStep_extend (t c : Nat) (x : Mix) (rest : List Word) (h : x.i < x.table.length) :
    mixStep t c (x.extend rest) = (mixStep t c x).extend rest := by
  have hget : (x.table ++ rest).getD x.i 0 = x.table.getD x.i 0 := by
    simp [List.getElem?_append_left h]
  simp only [mixStep, Mix.extend, mixA, mixB, hget, List.set_append_left _ _ h]

/-- Neither do any number of them. -/
theorem mixTimes_extend (t c n : Nat) (x : Mix) (rest : List Word) (ht : 0 < t)
    (hx : x.table.length = t) (hi : x.i < t) :
    mixTimes t c n (x.extend rest) = (mixTimes t c n x).extend rest := by
  induction n generalizing x with
  | zero => rfl
  | succ n ih =>
    rw [mixTimes, mixStep_extend _ _ _ _ (by omega), mixTimes]
    exact ih _ (by simpa using hx) (Nat.mod_lt _ ht)

@[simp] theorem length_keySchedule (key : List Byte) (r : Nat) :
    (keySchedule key r).length = tableWords r := by
  simp [keySchedule, keyMix, mixStart]

/-- All v mixing steps on KeyInit(r), with other words behind it, give the schedule and the same words behind
it (R134). -/
theorem table_mixTimes_keyInit (key : List Byte) (r : Nat) (rest : List Word) :
    (mixTimes (tableWords r) (keyWords key.length) (mixSteps (keyWords key.length) (tableWords r))
      (mixStart (keyInit r ++ rest) (keyPack key))).table = keySchedule key r ++ rest := by
  have h := mixTimes_extend (tableWords r) (keyWords key.length)
    (mixSteps (keyWords key.length) (tableWords r)) (mixStart (keyInit r) (keyPack key)) rest
    (by simp [tableWords]) (by simp [mixStart]) (by simp [mixStart, tableWords])
  have he : mixStart (keyInit r ++ rest) (keyPack key) = (mixStart (keyInit r) (keyPack key)).extend rest := rfl
  rw [he, h]
  simp [keySchedule, keyMix, Mix.extend]

end Sys2Proof.Machine
end

