-- ==== Sys2Proof/Tests/Slice0.lean ====
section
/-! SUPPORT. The author's tests. Each expected value is transcribed from spec/95_test_vectors.md (the vector is
named), from the opcode table, or is computed by hand from a rule that is named. Each test is one step.
After the tests, for every statement of Certificates/Slice0/Obligations.lean that has hypotheses, a
theorem `witness_<Name>` gives a concrete case that meets them together. -/

namespace Sys2Proof.Tests

-- One theorem at a time: each `decide +kernel` waits for the kernel, and would hold a thread while it does.
set_option Elab.async false

open Sys2Proof Sys2Proof.Machine

/-- Something of the next state, when there is one. -/
def after {α : Type} (x : Result) (f : State → α) : Option α :=
  match x with
  | .next s => some (f s)
  | .fault _ => none
  | .refused _ => none

/-- There is a next state. -/
def goesOn (x : Result) : Bool := (after x fun _ => ()).isSome

theorem goesOn_next (x : Result) (h : goesOn x = true) : ∃ t, x = .next t := by
  cases x with
  | next t => exact ⟨t, rfl⟩
  | fault f => simp [goesOn, after] at h
  | refused q => simp [goesOn, after] at h

/-- Bytes at ascending addresses in an otherwise empty memory. -/
def memOf (a : Nat) (bs : List Byte) : Memory := Memory.writeBytes [] a bs

/-- The V-KS-2 context: r = 1. -/
def small : State :=
  { State.reset with
    status := { Status.reset with keyvalid := true }
    rlatch := 1
    table := [0xE1DAFBD3, 0x4C61C947, 0x5578A7C7, 0x183FC8A1, 0x27B0C278, 0x36AC2924] }

/-- The table of V-KAT-1. -/
def katTable : List Word :=
  [0xB488E464, 0xD4F4817B, 0xDDA12CF9, 0xA27E89C8, 0x4A5E264F, 0x2A17B21D, 0x96F7ED39, 0x9851E498,
    0x6B8E84ED, 0x79A36017, 0x1FDBBD9F, 0x3C365DB0, 0x93864AB2, 0x930A2D37, 0x0F125A9A, 0xAB76ED41]
  ++ [0x4234AB4F, 0xCB634C81, 0x27CF2D3C, 0x7E002017, 0xD8886899, 0xA8DE45F7, 0x4E859BB9, 0x0F8A3FAB,
    0x3D1191A7, 0x63B89F4C, 0xF78E82D4, 0xFA119B7A, 0xB11D8E5B, 0xE0988EE5, 0xB3D4AB67, 0x17028C1A]
  ++ [0x4B61F0D4, 0x3B759334, 0x0504F992, 0x29FC147C, 0x0DE9008B, 0x7903D0FA, 0x0B31F4CF, 0x68D16E0C,
    0xEDA8E050, 0x78B451D6, 0x7952D4FE, 0xED0D268B]

/-- The KAT context with a buffer of one block at 0x2000, and DST = 0x3000. -/
def kat (bs : List Byte) : State :=
  { small with
    rlatch := 20, table := katTable, src := 0x2000, dst := 0x3000, len := 16, mem := memOf 0x2000 bs }

/-- Ciphertext block 0 of V-KAT-2. -/
def cipher0 : List Byte :=
  [0x2A, 0x99, 0xA2, 0x80, 0x46, 0xD0, 0x63, 0x98, 0x24, 0xA2, 0x62, 0x04, 0x93, 0x1E, 0x03, 0x95]

/-- Plaintext block 0 of V-KAT-2. -/
def plain0 : List Byte :=
  [0x49, 0x4D, 0x41, 0x47, 0x45, 0x57, 0x54, 0x59, 0x00, 0x01, 0x00, 0x00, 0x50, 0x00, 0x00, 0x00]

/-- Sixteen equal bytes. -/
def sixteen (b : Byte) : List Byte := List.replicate 16 b

/-! Decoding: the word of every row, bit by bit from the encoding of R91 and the table of R94. -/

theorem test_decode_expand : decode 0b00000000000000000000000000000001#32 = .ok .expand := by decide
theorem test_decode_encblk : decode 0b00000000000000000000000000000010#32 = .ok .encblk := by decide
theorem test_decode_decblk : decode 0b00000000000000000000000000000011#32 = .ok .decblk := by decide
theorem test_decode_enc : decode 0b00000000000000000000000000010000#32 = .ok .enc := by decide
theorem test_decode_dec : decode 0b00000000000000000000000000010001#32 = .ok .dec := by decide
theorem test_decode_enci : decode 0b00000000000000000000000000010010#32 = .ok .enci := by decide
theorem test_decode_deci : decode 0b00000000000000000000000000010011#32 = .ok .deci := by decide
theorem test_decode_encs : decode 0b00000000000000000000000000010100#32 = .ok .encs := by decide
theorem test_decode_decs : decode 0b00000000000000000000000000010101#32 = .ok .decs := by decide
theorem test_decode_encis : decode 0b00000000000000000000000000010110#32 = .ok .encis := by decide
theorem test_decode_decis : decode 0b00000000000000000000000000010111#32 = .ok .decis := by decide

/-- V-ERR-13 to V-ERR-15: illegal words are refused by name. -/
theorem test_decode_illegal :
    decode 0x00000000#32 = .error (.reservedOpcode 0) ∧ decode 0x00000101#32 = .error .rsvNotZero ∧
      decode 0x00000018#32 = .error (.reservedOpcode 0x18) := by decide

theorem test_decodeTableWord :
    decodeTableWord 32 0x17 = some .decis ∧ decodeTableWord 32 0x18 = none ∧
      decodeTableWord 32 0x101 = none := by decide

/-! WellFormed: each check refuses an ill-formed term. -/

theorem test_wellFormed_rsv : legalWord 0x00000110#32 = false := by decide
theorem test_wellFormed_opcode : legalWord 0x0000000F#32 = false := by decide
theorem test_wellFormed_rMax_zero : Params.wellFormed { rMax := 0 } = false := by decide
theorem test_wellFormed_rMax_wide : Params.wellFormed { rMax := 256 } = false := by decide
theorem test_wellFormed_keyMax_zero : Params.wellFormed { keyMaxBytes := 0 } = false := by decide
theorem test_wellFormed_keyMax_wide : Params.wellFormed { keyMaxBytes := 65536 } = false := by decide
theorem test_wellFormed_addrW : Params.wellFormed { addrW := 33 } = false := by decide

/-! Word arithmetic: V-WA-1 to V-WA-15. -/

theorem test_add : add 0xFFFFFFFF 1 = 0 ∧ add 0xB7E15163 0x9E3779B9 = 0x5618CB1C := by decide
theorem test_sub : sub 0 1 = 0xFFFFFFFF ∧ sub 0 0x9E3779B9 = 0x61C88647 := by decide
theorem test_mul : mul 0xFFFFFFFF 0xFFFFFFFF = 1 ∧ mul 0x00010000 0x00010000 = 0 ∧
    mul 3 0x55555556 = 2 := by decide
theorem test_xor : Machine.xor 0xFFFF0000 0x0F0F0F0F = 0xF0F00F0F := by decide
theorem test_rotl : rotl 0x80000001 1 = 3 ∧ rotl 0x12345678 0x24 = 0x23456781 ∧
    rotl 0x12345678 0x20 = 0x12345678 ∧ rotl 0x12345678 0xFFFFFFFF = 0x091A2B3C := by decide
theorem test_rotr : rotr 3 1 = 0x80000001 ∧ rotr 0x12345678 0 = 0x12345678 := by decide
theorem test_quad : quad 0 = 0 ∧ quad 1 = 0x60 ∧ quad 0xFFFFFFFF = 0x20 ∧ quad 0x80000000 = 0x10 := by
  decide

/-- The mixing trace of section 4 of the vectors, steps 0 and 1. -/
theorem test_mixing_trace :
    let x1 := mixStep 6 1 (mixStart (keyInit 1) (keyPack [1]))
    let x2 := mixStep 6 1 x1
    (x1.a, x1.b) = (0xBF0A8B1D#32, 0xD7E15163#32) ∧ (x2.a, x2.b) = (0x68253CE7#32, 0x9F7EB45F#32) := by
  decide +kernel

/-- V-KS-3: a secret that does not fill its last key-word. -/
theorem test_keySchedule_padded : keySchedule [1, 2, 3, 4, 5] 1 =
    [0xBFC11D28, 0x81BFF95D, 0xADF7AB30, 0x8B01A5C8, 0x78580889, 0x9DE434DF] := by decide +kernel

/-! One step for each command. -/

/-- V-KS-2 and P4 step 6. -/
theorem test_expand :
    after (step { State.reset with
        keyaddr := 0x1000, keylen := 1, rounds := 1, mem := [(0x1000, 1)]
        inbox := [.regWrite 0x010 0b1111 0x01] })
      (fun t => (t.table.take 6, t.rlatch, t.status.keyvalid, t.status.done, t.events)) =
    some ([0xE1DAFBD3, 0x4C61C947, 0x5578A7C7, 0x183FC8A1, 0x27B0C278, 0x36AC2924], 1, true, true,
      [.read 0x1000 (some 1)]) := by decide +kernel

/-- V-ERR-3. -/
theorem test_expand_too_long :
    after (exec .expand { State.reset with keylen := 257 }) (fun t => (t.rd 0x00C, t.rd 0x014)) =
      some (0x00000306, 0x00000101) := by decide +kernel

/-- V-RT-4. -/
theorem test_encblk : after (exec .encblk { small with din := ⟨1, 2, 3, 4⟩ }) State.dout =
    some ⟨0x098BBE4D, 0x222D7D7D, 0x830DF26F, 0x73640EB0⟩ := by decide +kernel

/-- V-ERR-6 and V-RT-8. -/
theorem test_encblk_no_key :
    after (exec .encblk State.reset) (fun t => (t.rd 0x00C, t.rd 0x014, t.dout)) =
      some (0x00000506, 0, ⟨0, 0, 0, 0⟩) := by decide +kernel

/-- V-RT-5. -/
theorem test_decblk : after
    (exec .decblk { small with din := ⟨0x098BBE4D, 0x222D7D7D, 0x830DF26F, 0x73640EB0⟩ }) State.dout =
    some ⟨1, 2, 3, 4⟩ := by decide +kernel

/-- V-BP-1. -/
theorem test_enc : after (exec .enc (kat [])) (fun t => (t.mem, t.blkdone)) =
    some (memOf 0x3000 [0xBD, 0xB3, 0xAF, 0x19, 0x7D, 0x3C, 0x55, 0x5B, 0x63, 0x62, 0x5D, 0x20, 0x43, 0x7A,
      0x37, 0x2C], 1) := by decide +kernel

/-- V-ERR-10. -/
theorem test_enc_overlap :
    after (exec .enc { kat [] with dst := 0x2008 }) (fun t => (t.rd 0x00C, t.rd 0x014, t.mem)) =
      some (0x0000070E, 0x00002008, []) := by decide +kernel

/-- V-BP-3. -/
theorem test_dec : after (exec .dec (kat [])) (fun t => t.mem.readBytes 0x3000 16) =
    some [0x7B, 0xD7, 0xA7, 0xC3, 0xD4, 0xBE, 0x8C, 0x45, 0x6D, 0xDA, 0x6B, 0x18, 0xB2, 0x0F, 0x58, 0x1F] := by
  decide +kernel

/-- R180 in a memory space of 256 bytes: an empty range at the top of memory. -/
theorem test_enc_empty_range :
    after (exec .enc { small with params := { addrW := 8 }, src := 0x100, dst := 0x100 })
      (fun t => (t.rd 0x00C, t.rd 0x014, t.rd 0x034, t.events)) = some (0x0000000A, 0, 0, []) := by decide +kernel

/-- R67 and R208 there: an empty range whose end is past 2^8. -/
theorem test_enc_empty_range_past :
    after (exec .enc { small with params := { addrW := 8 }, src := 0x101 })
      (fun t => (t.rd 0x00C, t.rd 0x014)) = some (0x0000060E, 0x101) := by decide +kernel

/-- V-ERR-16. -/
theorem test_dec_range :
    after (exec .dec { kat [] with dst := 0xFFFFFFF0, len := 32 }) (fun t => (t.rd 0x00C, t.rd 0x014)) =
      some (0x0000060E, 0xFFFFFFF0) := by decide +kernel

/-- V-BP-4. -/
theorem test_enci : after (exec .enci (kat (sixteen 0xFF))) (fun t => t.mem.readBytes 0x2000 16) =
    some [0xBD, 0x8D, 0x70, 0x7D, 0x55, 0x7B, 0x78, 0xD5, 0xC7, 0x14, 0x43, 0x25, 0xCB, 0x83, 0xC6, 0x6D] := by
  decide +kernel

/-- V-ERR-2 with LEN = 17. -/
theorem test_enci_length :
    after (exec .enci { kat [] with len := 17 }) (fun t => (t.rd 0x00C, t.rd 0x014, t.events)) =
      some (0x0000020E, 0x11, []) := by decide +kernel

/-- Block 0 of V-BP-6. -/
theorem test_deci : after (exec .deci (kat cipher0)) (fun t => t.mem.readBytes 0x2000 16) = some plain0 := by
  decide +kernel

/-- V-BP-10 in block 0: the write of byte 3 is answered with an error. -/
theorem test_deci_bus_error :
    after (exec .deci { kat cipher0 with errRegions := [⟨0x2003, 1, false, true⟩] })
      (fun t => (t.rd 0x00C, t.rd 0x014, t.rd 0x034, t.mem.readBytes 0x2000 5)) =
    some (0x0000080E, 0x2003, 0, [0x49, 0x4D, 0x41, 0x80, 0x46]) := by decide +kernel

/-- V-RT-1 as a chunk. -/
theorem test_encs : after (exec .encs (kat [])) (fun t => (t.sunk, t.mem)) =
    some ([[0xBD, 0xB3, 0xAF, 0x19, 0x7D, 0x3C, 0x55, 0x5B, 0x63, 0x62, 0x5D, 0x20, 0x43, 0x7A, 0x37, 0x2C]],
      []) := by decide +kernel

/-- Block 0 of V-BP-5. -/
theorem test_decs : after (exec .decs (kat cipher0)) (fun t => (t.sunk, t.blkdone)) = some ([plain0], 1) := by
  decide +kernel

/-- P5 steps 2 and 3: the sink does not accept; a second command is dropped. -/
theorem test_decs_stall :
    after (Result.andThen (exec .decs { kat cipher0 with sinkReady := false }) (exec .enc))
      (fun t => (t.rd 0x00C, t.sinkValid, t.sunk)) = some (0x00000019, true, []) := by decide +kernel

/-- V-BP-4 with the chunk after the write (R177). -/
theorem test_encis : after (exec .encis (kat (sixteen 0xFF))) (fun t => (t.sunk, (t.events.drop 31).take 2)) =
    some ([[0xBD, 0x8D, 0x70, 0x7D, 0x55, 0x7B, 0x78, 0xD5, 0xC7, 0x14, 0x43, 0x25, 0xCB, 0x83, 0xC6, 0x6D]],
      [.write 0x200F 0x6D true,
       .emit [0xBD, 0x8D, 0x70, 0x7D, 0x55, 0x7B, 0x78, 0xD5, 0xC7, 0x14, 0x43, 0x25, 0xCB, 0x83, 0xC6, 0x6D]]) := by
  decide +kernel

/-- Block 0 of V-BP-8. -/
theorem test_decis : after (exec .decis (kat cipher0)) (fun t => (t.sunk, t.mem.readBytes 0x2000 16)) =
    some ([plain0], plain0) := by decide +kernel

/-- V-ERR-13: an illegal word (P4 step 3). -/
theorem test_illegal_word :
    after (step { State.reset with inbox := [.regWrite 0x010 0b1111 0x101] }) (fun t => (t.rd 0x00C, t.rd 0x014)) =
      some (0x00000906, 0x101) := by decide +kernel

/-- The host's way to a first instruction (notes/assumptions/9.md). -/
theorem test_withFetchWord :
    after (step (State.reset.withFetchWord 32 0x01)) (fun t => t.rd 0x00C) = some 0x00000106 := by decide +kernel

/-- R74: another agent's read of a memory byte. -/
theorem test_memRead : after (step { State.reset with mem := [(5, 0xAB)], inbox := [.memRead 5] })
    (fun t => t.readData) = some 0xAB := by decide +kernel

/-- P1 step 8 and step 10 with the small table: STAB reads the table up to t, then 0. -/
theorem test_stab : (small.rd 0x400, small.rd 0x414, small.rd 0x418) = (0xE1DAFBD3, 0x36AC2924, 0) := by decide

/-- R75: byte m of a chunk is on bits 8m+7 to 8m. -/
theorem test_sinkBits : sinkBits plain0 = 0x00000050000001005954574547414D49#128 := by decide +kernel

/-! Witnesses: a case that meets the hypotheses of each statement. -/

/-- A two-block buffer in the small context; SRC = 0x20 and DST = 0x40. -/
def buf : State := { small with src := 0x20, dst := 0x40, len := 32 }

/-- The buffer's operands are in order for every mode. -/
theorem buf_fits (x : Modes) : buf.BufferFits x := by
  refine ⟨by decide, by decide, fun _ => ?_, fun _ _ _ => .inl (by decide)⟩
  unfold Modes.out
  split <;> decide

/-- Every buffer command can run on it. -/
theorem buf_ready (x : Modes) : buf.Ready x :=
  ⟨buf_fits x, rfl, rfl, rfl, fun _ _ _ => rfl, fun _ _ _ _ => rfl, fun _ => ⟨rfl, rfl⟩⟩

/-- A two-byte secret at 0x10 for one round. -/
def secretAt : State := { State.reset with keyaddr := 0x10, keylen := 2, rounds := 1 }

theorem secretAt_fits : secretAt.KeyFits := ⟨by decide, by decide, by decide⟩

theorem runs_of_unpaced {s : State} (h : s.pace = none) : s.engineRuns := by simp [State.engineRuns, h]

/-- A machine whose command, ENCBLK, has just been accepted. -/
def started : State := State.reset.accept 0x02

theorem witness_DecoderIsTotalAsTabled :
    256 ≤ (0x100#32).toNat ∧ (0x17#32).toNat = 0x17 ∧ 0x04 ≤ (0x04#32).toNat ∧ (0x0F#32).toNat ≤ 0x0F ∧
      0x18 ≤ (0x18#32).toNat ∧ (0xFF#32).toNat ≤ 0xFF := by decide

theorem witness_StepRunsTheDecodedCommand :
    let s := { State.reset with inbox := [.regWrite (0 + 0x010) 0b1111 0x10] };
    s.rst = false ∧ s.inbox = .regWrite (s.params.base + 0x010) 0b1111#4 0x10 :: [] ∧
      decode 0x10 = .ok .enc := ⟨rfl, rfl, by decide⟩

theorem witness_IllegalWordEndsWithBadcmd :
    let s := { State.reset with inbox := [.regWrite (0 + 0x010) 0b1111 0x0F] };
    s.rst = false ∧ s.inbox = .regWrite (s.params.base + 0x010) 0b1111#4 0x0F :: [] ∧ s.status.busy = false ∧
      decode 0x0F = .error (.reservedOpcode 0x0F) := ⟨rfl, rfl, rfl, by decide⟩

theorem witness_CommandWhileBusyIsDropped :
    started.status.busy = true ∧ started.dropCommand.status.cmdlost = true ∧
      goesOn (step started.dropCommand) = true := ⟨rfl, rfl, by decide +kernel⟩

theorem witness_AcceptanceChangesOnlyThis :
    let s := { State.reset with pace := some 0 };
    s.status.busy = false ∧ s.pace = some 0 := ⟨rfl, rfl⟩

theorem witness_OperandRegistersHoldWhatIsWritten :
    State.reset.rst = false ∧ 0x018 ∈ [0x018, 0x020, 0x024, 0x028, 0x02C, 0x030, 0x040, 0x044, 0x048, 0x04C] ∧
      0xFFC < 4096 ∧ 0xFFC % 4 = 0 ∧ 0xFFC ≠ 0x018 := by decide

/-- The accesses of the same statement: to SRC, to CMD while rst is asserted, and a read. -/
theorem witness_OperandRegistersHoldWhatIsWritten_access :
    (let s := { State.reset with inbox := [.regWrite 0x028 0b1111 5] };
      s.inbox = .regWrite 0x028 0b1111#4 5 :: [] ∧ reached s.params 0x028 0b1111#4 ≠ some .cmd ∧
        s.phase = .idle) ∧
    (let s := { State.reset with rst := true, inbox := [.regWrite 0x010 0b1111 1] };
      s.inbox = .regWrite 0x010 0b1111#4 1 :: [] ∧ s.rst ≠ false ∧ s.phase = .idle) ∧
    (let s := { State.reset with inbox := [.regRead 0x028 0b1111] };
      s.inbox = .regRead 0x028 0b1111#4 :: [] ∧ s.phase = .idle) :=
  ⟨⟨rfl, by decide, rfl⟩, ⟨rfl, by decide, rfl⟩, rfl, rfl⟩

theorem witness_CtrlHoldsOnlyTheInterruptEnable : State.reset.rst = false := rfl

theorem witness_StatusWriteClearsDoneAndCmdlostOnly : State.reset.rst = false := rfl

theorem witness_IdAndParamAreHardwired : State.reset.params.wellFormed = true := by decide

theorem witness_ReservedOffsetsReadZeroIgnoreWrites :
    State.reset.params.rMax = 255 ∧ 0x03C % 4 = 0 ∧ (0x038 ≤ 0x03C ∧ 0x03C ≤ 0x03C) ∧
      (0x060 ≤ 0x3FC ∧ 0x3FC ≤ 0x3FC) ∧ (0xC08 ≤ 0xC08 ∧ 0xC08 ≤ 0xFFC) := by decide

theorem witness_OnlyAlignedWordAccessesReachARegister :
    (0x013 < 4096 ∧ 0x013 % 4 ≠ 0) ∧ (0x010 < 4096 ∧ 0b0111#4 ≠ 0b1111#4) := by decide

theorem witness_TableWindowReadsTheValidTable :
    State.reset.params.wellFormed = true ∧ 513 < 2 * State.reset.params.rMax + 4 := by decide

theorem witness_ResetValuesOfTheAperture : 0xFFC < 4096 ∧ 0xFFC % 4 = 0 := by decide

theorem witness_RstAbandonsTheRunningCommand :
    ({ started with inbox := [.rst true] }.inbox = .rst true :: []) ∧
    (let s := { State.reset with rst := true, inbox := [.regWrite 0x010 0b1111 1] };
      s.rst = true ∧ s.phase = .idle ∧ s.inbox = .regWrite 0x010 0b1111 1 :: []) ∧
    (let s := { State.reset with rst := true, inbox := [.rst false] };
      s.phase = .idle ∧ s.inbox = .rst false :: []) := ⟨rfl, ⟨rfl, rfl, rfl⟩, rfl, rfl⟩

theorem witness_InterruptLineIsEnableAndDone : State.reset.rst = false ∧ (2#32).getLsbD 1 = true := by decide

theorem witness_ExpandRejectsBadKeyLengthAndRounds :
    State.reset.status.busy = false ∧ State.reset.engineRuns ∧
    State.reset.keylen = 0 ∧
    (let s := { State.reset with keylen := 257 };
      s.keylen ≠ 0 ∧ s.params.keyMaxBytes < s.keylen.toNat) ∧
    (let s := { State.reset with keylen := 256, rounds := 256 };
      s.keylen ≠ 0 ∧ s.keylen.toNat ≤ s.params.keyMaxBytes ∧ s.params.rMax < s.rounds.toNat) ∧
    (let s := { State.reset with keylen := 1, rounds := 0 };
      s.keylen ≠ 0 ∧ s.keylen.toNat ≤ s.params.keyMaxBytes ∧ s.rounds = 0) :=
  ⟨rfl, runs_of_unpaced rfl, rfl, by decide, by decide, by decide⟩

theorem witness_BadLengthIsRejectedByEveryBufferCommand :
    let s := { State.reset with len := 15 };
    s.status.busy = false ∧ s.engineRuns ∧ s.len.toNat % 16 ≠ 0 ∧
      Instr.decis ∈ [Instr.enc, .dec, .enci, .deci, .encs, .decs, .encis, .decis] :=
  ⟨rfl, runs_of_unpaced rfl, by decide, by decide⟩

theorem witness_RangePastMemoryIsRejected :
    (let s := { State.reset with keylen := 2, keyaddr := 0xFFFFFFFF };
      s.status.busy = false ∧ s.engineRuns ∧ 1 ≤ s.keylen.toNat ∧ s.keylen.toNat ≤ s.params.keyMaxBytes ∧
        1 ≤ s.rounds.toNat ∧ s.rounds.toNat ≤ s.params.rMax ∧
        2 ^ s.params.addrW < s.keyaddr.toNat + s.keylen.toNat) ∧
    (let s := { State.reset with len := 16, src := 0xFFFFFFF1 };
      s.len.toNat % 16 = 0 ∧ 2 ^ s.params.addrW < s.src.toNat + s.len.toNat) ∧
    (let s := { State.reset with params := { addrW := 8 }, src := 0x101 };
      s.len.toNat = 0 ∧ s.len.toNat % 16 = 0 ∧
        2 ^ s.params.addrW < s.src.toNat + s.len.toNat) ∧
    (let s := { State.reset with len := 16, src := 0xFFFFFFF0, dst := 0xFFFFFFF1 };
      s.len.toNat % 16 = 0 ∧ s.src.toNat + s.len.toNat ≤ 2 ^ s.params.addrW ∧
        2 ^ s.params.addrW < s.dst.toNat + s.len.toNat) :=
  ⟨⟨rfl, runs_of_unpaced rfl, by decide⟩, by decide, by decide, by decide⟩

theorem witness_OverlappingCopyIsRejected :
    let s := { State.reset with len := 16, src := 0x2000, dst := 0x200F };
    s.status.busy = false ∧ s.engineRuns ∧ s.len.toNat % 16 = 0 ∧
      s.src.toNat + s.len.toNat ≤ 2 ^ s.params.addrW ∧ s.dst.toNat + s.len.toNat ≤ 2 ^ s.params.addrW ∧
      0 < s.len.toNat ∧ s.src.toNat < s.dst.toNat + s.len.toNat ∧ s.dst.toNat < s.src.toNat + s.len.toNat :=
  ⟨rfl, runs_of_unpaced rfl, by decide⟩

theorem witness_NoTableIsRejected :
    (let s := { State.reset with len := 16, dst := 16 };
      s.status.busy = false ∧ s.engineRuns ∧ s.status.keyvalid = false ∧ s.len.toNat % 16 = 0 ∧
        s.src.toNat + s.len.toNat ≤ 2 ^ s.params.addrW ∧ s.dst.toNat + s.len.toNat ≤ 2 ^ s.params.addrW ∧
        s.src.toNat + s.len.toNat ≤ s.dst.toNat) ∧
    (let s := { State.reset with len := 16, src := 16 };
      s.dst.toNat + s.len.toNat ≤ s.src.toNat) ∧
    (let s := { State.reset with params := { addrW := 8 }, src := 0x100, dst := 0x100 };
      s.len.toNat = 0 ∧ s.len.toNat % 16 = 0 ∧ s.src.toNat + s.len.toNat ≤ 2 ^ s.params.addrW ∧
        s.dst.toNat + s.len.toNat ≤ 2 ^ s.params.addrW) :=
  ⟨⟨rfl, runs_of_unpaced rfl, by decide⟩, by decide, by decide⟩

/-- V-ERR-9 among them: one key byte at the last address. -/
theorem witness_ExpandLeavesTheKeySchedule :
    let s := { State.reset with keylen := 1, keyaddr := 0xFFFFFFFF, rounds := 255 };
    s.status.busy = false ∧ s.pace = none ∧ s.KeyFits ∧ s.answersAll .read s.keyaddr.toNat s.keylen.toNat :=
  ⟨rfl, rfl, ⟨by decide, by decide, by decide⟩, fun _ _ _ => rfl⟩

theorem witness_EncblkEncryptsDinIntoDout :
    small.status.busy = false ∧ small.pace = none ∧ small.status.keyvalid = true ∧
      State.reset.status.busy = false ∧ State.reset.pace = none ∧ State.reset.status.keyvalid = false :=
  ⟨rfl, rfl, rfl, rfl, rfl, rfl⟩

theorem witness_DecblkDecryptsDinIntoDout :
    small.status.busy = false ∧ small.pace = none ∧ small.status.keyvalid = true ∧
      (∃ t u, exec .encblk small = .next t ∧ exec .decblk { t with din := t.dout } = .next u) ∧
      State.reset.status.busy = false ∧ State.reset.pace = none ∧ State.reset.status.keyvalid = false := by
  obtain ⟨u, hu⟩ := goesOn_next
    (Result.andThen (exec .encblk small) fun t => exec .decblk { t with din := t.dout }) (by decide +kernel)
  obtain ⟨t, ht, hu⟩ := Result.andThen_eq_next _ _ _ hu
  exact ⟨rfl, rfl, rfl, ⟨t, u, ht, hu⟩, rfl, rfl, rfl⟩

theorem witness_CopyCommandsTransformTheBuffer :
    buf.Ready ⟨false, false, false⟩ ∧ buf.Ready ⟨true, false, false⟩ := ⟨buf_ready _, buf_ready _⟩

theorem witness_InPlaceCommandsTransformTheBuffer :
    buf.Ready ⟨false, true, false⟩ ∧ buf.Ready ⟨true, true, false⟩ := ⟨buf_ready _, buf_ready _⟩

theorem witness_StreamCommandsEmitTheBuffer :
    buf.Ready ⟨false, false, true⟩ ∧ buf.Ready ⟨true, false, true⟩ := ⟨buf_ready _, buf_ready _⟩

theorem witness_InPlaceStreamCommandsWriteThenEmit :
    buf.Ready ⟨false, true, true⟩ ∧ buf.Ready ⟨true, true, true⟩ := ⟨buf_ready _, buf_ready _⟩

/-- For each of the two cases, at the boundary. -/
theorem witness_EmptyBufferCompletesWithNoAccess :
    (let s := { small with src := 0xFFFFFFFF, dst := 0xFFFFFFFF };
      s.status.busy = false ∧ s.pace = none ∧ s.len = 0 ∧ 32 ≤ s.params.addrW ∧ s.status.keyvalid = true) ∧
    (let s := { small with params := { addrW := 8 }, src := 0x100, dst := 0x100 };
      s.len = 0 ∧ s.src.toNat ≤ 2 ^ s.params.addrW ∧ s.dst.toNat ≤ 2 ^ s.params.addrW) ∧
    State.reset.len = 0 ∧ State.reset.status.keyvalid = false := by decide

theorem witness_BusErrorWhileFetchingTheKey :
    let s := { secretAt with errRegions := [⟨0x11, 1, true, false⟩] };
    s.status.busy = false ∧ s.pace = none ∧ s.KeyFits ∧ 1 < s.keylen.toNat ∧
      s.answersAll .read s.keyaddr.toNat 1 ∧ s.answersError .read (s.keyaddr.toNat + 1) = true := by
  refine ⟨rfl, rfl, ⟨by decide, by decide, by decide⟩, by decide, fun x h1 h2 => ?_, by decide⟩
  have hk : (0x10#32).toNat = 16 := rfl
  have hx : x = 16 := by
    have h1' : 16 ≤ x := h1
    have h2' : x < 16 + 1 := h2
    omega
  subst hx
  decide

theorem witness_BusErrorWhileReadingABlock :
    let s := { buf with errRegions := [⟨0x3F, 1, true, false⟩] };
    State.BufferFits ⟨false, true, true⟩ s ∧ s.status.busy = false ∧ s.pace = none ∧
      s.status.keyvalid = true ∧ 1 < s.bufferBlocks ∧ 15 < 16 ∧ s.answersAll .read s.src.toNat (16 * 1 + 15) ∧
      s.answersError .read (s.src.toNat + 16 * 1 + 15) = true ∧
      s.answersAll .write (Modes.out ⟨false, true, true⟩ s) (16 * 1) ∧ s.sinkReady = true ∧ s.sinkOut = none := by
  have hf := buf_fits ⟨false, true, true⟩
  refine ⟨⟨hf.whole, hf.source, hf.target, hf.apart⟩, rfl, rfl, rfl, by decide, by decide, fun x h1 h2 => ?_,
    by decide, fun x _ _ => ?_, rfl, rfl⟩
  · have h2' : x < 32 + 31 := h2
    simp [State.answersError, ErrorRegion.hits]
    omega
  · simp [State.answersError, ErrorRegion.hits]

theorem witness_BusErrorWhileWritingABlock :
    let s := { buf with errRegions := [⟨0x50, 16, false, true⟩] };
    State.BufferFits ⟨false, false, false⟩ s ∧ s.status.busy = false ∧ s.pace = none ∧
      s.status.keyvalid = true ∧ 1 < s.bufferBlocks ∧ 0 < 16 ∧ Modes.writes ⟨false, false, false⟩ = true ∧
      s.answersAll .read s.src.toNat (16 * 1 + 16) ∧
      s.answersAll .write (Modes.out ⟨false, false, false⟩ s) (16 * 1 + 0) ∧
      s.answersError .write (Modes.out ⟨false, false, false⟩ s + 16 * 1 + 0) = true := by
  have hf := buf_fits ⟨false, false, false⟩
  refine ⟨⟨hf.whole, hf.source, hf.target, hf.apart⟩, rfl, rfl, rfl, by decide, by decide, rfl,
    fun x _ _ => ?_, fun x h1 h2 => ?_, by decide⟩
  · simp [State.answersError, ErrorRegion.hits]
  · have h2' : x < 64 + 16 := h2
    simp [State.answersError, ErrorRegion.hits]
    omega

theorem witness_NoBusErrorWhenMemoryNeverAnswersOne :
    let s := { State.reset with params := { busErr := false }, inbox := [cmdWriteEvent {} 0x01] };
    s.params.busErr = false ∧ s.status.errcode ≠ .bus ∧ ∃ t, step s = .next t :=
  ⟨rfl, by decide, goesOn_next _ (by decide +kernel)⟩

theorem witness_StreamWaitsForTheSinkThenCompletes :
    (let s := { buf with sinkReady := false };
      State.Ready ⟨false, false, true⟩ { s with sinkReady := true } ∧ s.sinkReady = false ∧
        0 < s.bufferBlocks) ∧
    (buf.Ready ⟨false, true, true⟩ ∧ 0 < buf.bufferBlocks ∧ 1 < buf.bufferBlocks) ∧
    (let s := { State.reset with sinkOut := some plain0 };
      s.sinkOut = some plain0 ∧ plain0.length = 16 ∧ 0 < 16 ∧ 15 < 16) ∧
    State.reset.sinkOut = none :=
  ⟨⟨buf_ready _, rfl, by decide⟩, ⟨buf_ready _, by decide, by decide⟩, ⟨rfl, rfl, by decide, by decide⟩, rfl⟩

theorem witness_StreamedChunksAreTheCopiedBytes :
    buf.mem.wf = true ∧ buf.Ready ⟨false, false, false⟩ ∧ buf.Ready ⟨false, false, true⟩ ∧
      buf.Ready ⟨false, true, true⟩ ∧ (∃ t, exec .enc buf = .next t) ∧ (∃ u, exec .encs buf = .next u) ∧
      ∃ v, exec .encis buf = .next v :=
  ⟨rfl, buf_ready _, buf_ready _, buf_ready _, goesOn_next _ (by decide +kernel),
    goesOn_next _ (by decide +kernel), goesOn_next _ (by decide +kernel)⟩

theorem witness_BlocksAreTransformedIndependently :
    buf.params.wellFormed = true ∧ buf.mem.wf = true ∧ buf.len = 32 ∧ buf.Ready ⟨false, true, true⟩ ∧
      (∃ t, exec .encis buf = .next t) ∧ (∃ t0, exec .encis { buf with len := 16 } = .next t0) ∧
      ∃ t1, exec .encis { buf with len := 16, src := buf.src + 16 } = .next t1 :=
  ⟨by decide, rfl, rfl, buf_ready _, goesOn_next _ (by decide +kernel), goesOn_next _ (by decide +kernel),
    goesOn_next _ (by decide +kernel)⟩

theorem witness_InPlaceRoundTripRestoresMemory :
    buf.mem.wf = true ∧ buf.Ready ⟨false, true, false⟩ ∧
      ∃ t u, exec .enci buf = .next t ∧ exec .deci t = .next u := by
  obtain ⟨u, hu⟩ := goesOn_next (Result.andThen (exec .enci buf) (exec .deci)) (by decide +kernel)
  obtain ⟨t, ht, hu⟩ := Result.andThen_eq_next _ _ _ hu
  exact ⟨rfl, buf_ready _, t, u, ht, hu⟩

theorem witness_CopyRoundTripRestoresTheBuffer :
    buf.mem.wf = true ∧ buf.Ready ⟨false, false, false⟩ ∧ ∃ t u, exec .enc buf = .next t ∧
      State.Ready ⟨true, false, false⟩ { t with src := buf.dst, dst := 0x20 } ∧
      exec .dec { t with src := buf.dst, dst := 0x20 } = .next u := by
  obtain ⟨u, hu⟩ := goesOn_next
    (Result.andThen (exec .enc buf) fun t => exec .dec { t with src := buf.dst, dst := 0x20 }) (by decide +kernel)
  obtain ⟨t, ht, hu⟩ := Result.andThen_eq_next _ _ _ hu
  have hbits : after (exec .enc buf) (fun t => (t.status.busy, t.status.keyvalid)) = some (false, true) := by
    decide +kernel
  rw [ht] at hbits
  simp only [after, Option.some.injEq, Prod.mk.injEq] at hbits
  have hs : buf.SameInputs t := by
    rw [exec_of_idle _ _ rfl] at ht
    obtain ⟨n, hn, -⟩ := resume_eq_run (buf.accept (encode .enc))
    have h0 : buf.SameInputs (buf.accept (encode .enc)) := by constructor <;> rfl
    exact h0.trans (State.SameInputs.run n _ t (hn ▸ ht))
  have hlen : t.len = 32 := hs.len
  have hpar : t.params = {} := hs.params
  have herr : t.errRegions = [] := hs.errRegions
  refine ⟨rfl, buf_ready _, t, u, ht, ⟨⟨?_, ?_, fun _ => ?_, fun _ _ _ => .inr ?_⟩, hbits.1, hs.pace, hbits.2, ?_, ?_,
    fun h => by simp at h⟩, hu⟩
  · simp only [hlen]; decide
  · simp only [hlen, hpar]; decide
  · simp only [hlen, hpar, Modes.out]; decide
  · simp only [hlen]; decide
  · intro x _ _; simp [State.answersError, herr]
  · intro _ x _ _; simp [State.answersError, herr]

theorem witness_RotationsMoveTheBitPattern : 31 % 32 ≠ 0 ∧ 33 % 32 ≠ 0 ∧ 32 % 32 = 0 := by decide

theorem witness_BlockBytesAreLittleEndian : (sixteen 0xFF).length = 16 := by decide

theorem witness_KeyIsPackedWithZeroPadding :
    let key : List Byte := [1, 2, 3, 4, 5]
    1 < (key.length + 3) / 4 ∧ 0 < 4 ∧ 3 < 4 ∧ 4 * 1 + 0 < key.length ∧ ¬ 4 * 1 + 1 < key.length := by decide

theorem witness_KeyInitIsTheRampOfPAndQ : 5 < 2 * 1 + 4 := by decide

theorem witness_MixingStepWritesOneWordOfEach :
    (let x := mixStart (keyInit 1) (keyPack [1]);
      x.i < x.table.length ∧ x.j < x.l.length ∧ 1 ≠ x.i ∧ 1 ≠ x.j) ∧
    (let x := fun n => mixTimes (2 * 1 + 4) (keyPack [1]).length n (mixStart (keyInit 1) (keyPack [1]));
      x 0 = ⟨keyInit 1, keyPack [1], 0, 0, 0, 0⟩ ∧
        ∀ n, n < 3 * max (keyPack [1]).length (2 * 1 + 4) →
          x (n + 1) = mixStep (2 * 1 + 4) (keyPack [1]).length (x n)) :=
  ⟨by decide, rfl, fun n _ => mixTimes_succ _ _ n _⟩

/-- The rounds of V-RT-4, r = 1: the block after whitening, and after its one round. -/
theorem witness_DecryptionInvertsEncryption :
    let x : Block := ⟨1, 2, 3, 4⟩
    let table := small.table
    let y := fun i => encRounds table i 1 (encWhiten table x)
    y 0 = ⟨x.a, x.b + table.getD 0 0, x.c, x.d + table.getD 1 0⟩ ∧
      ∀ i, i < 1 → y (i + 1) =
        ⟨(y i).b,
         ((y i).c ^^^ quad (y i).d).rotateLeft ((quad (y i).b).toNat % 32) + table.getD (2 * (i + 1) + 1) 0,
         (y i).d,
         ((y i).a ^^^ quad (y i).b).rotateLeft ((quad (y i).d).toNat % 32) + table.getD (2 * (i + 1)) 0⟩ := by
  decide +kernel

theorem witness_NoCommandChangesTheOperandRegisters :
    (∃ t, exec .decblk small = .next t) ∧ ∃ t, exec .expand started = .next t :=
  ⟨goesOn_next _ (by decide +kernel), goesOn_next _ (by decide +kernel)⟩

theorem witness_EachCommandLeavesTheRestAlone :
    buf.status.busy = false ∧ (∃ t, exec .encblk buf = .next t) ∧ (∃ t, exec .enc buf = .next t) ∧
      (∃ t, exec .encs buf = .next t) ∧ ∃ t, exec .expand buf = .next t :=
  ⟨rfl, goesOn_next _ (by decide +kernel), goesOn_next _ (by decide +kernel), goesOn_next _ (by decide +kernel),
    goesOn_next _ (by decide +kernel)⟩

theorem witness_BufferCommandsWriteOnlyTheirTarget :
    buf.status.busy = false ∧ (∃ t, exec .enc buf = .next t) ∧ (∃ t, exec .encis buf = .next t) ∧
      0x3F < buf.dst.toNat ∧ buf.dst.toNat + buf.len.toNat ≤ 0x60 ∧ 0x1F < buf.src.toNat ∧
      buf.src.toNat + buf.len.toNat ≤ 0x40 :=
  ⟨rfl, goesOn_next _ (by decide +kernel), goesOn_next _ (by decide +kernel), by decide, by decide, by decide,
    by decide⟩

/-- At both ends of the range: 2 + 2 and 2 + 2 + 3·6 engine steps. -/
theorem witness_TableIsHiddenWhileItIsBuilt :
    ∀ m ∈ [4, 22], let s := { secretAt with pace := some m };
      s.status.busy = false ∧ s.KeyFits ∧ s.answersAll .read s.keyaddr.toNat s.keylen.toNat ∧
        s.pace = some m ∧ s.keylen.toNat + 2 ≤ m ∧
        m ≤ s.keylen.toNat + 2 + 3 * max ((s.keylen.toNat + 3) / 4) (2 * s.rounds.toNat + 4) ∧
        ∃ t, exec .expand s = .next t := by
  intro m hm
  have hf := secretAt_fits
  refine ⟨rfl, ⟨hf.keylen, hf.rounds, hf.range⟩, fun _ _ _ => rfl, rfl, ?_, ?_, ?_⟩
  · simp at hm
    rcases hm with rfl | rfl <;> decide
  · simp at hm
    rcases hm with rfl | rfl <;> decide
  · simp at hm
    rcases hm with rfl | rfl <;> exact goesOn_next _ (by decide +kernel)

/-- A command of the two-block buffer, or the EXPAND, in a phase at its first byte. -/
def accessing (w : Word) (p : Phase) : State :=
  { { buf with keyaddr := 0x10, keylen := 2 }.accept w with phase := p }

/-- The same with one byte written by the engine, and the host about to read it. -/
def readingBack : State :=
  { accessing 0x10 .write with
    events := [.write 0x40 7 true], inbox := [.memRead 0x40], pace := some 0 }

/-- R74: the host's write to a source byte is remembered, one to another byte is not. -/
theorem test_hostWrite_race :
    ((accessing 0x10 .read).hostWrite 0x20 5).hostBytes 0x20 = [5] ∧
      ((accessing 0x10 .read).hostWrite 0x60 5).span.hostWrites = [] := by decide

/-- R73: a read of a destination byte once the command has ended is the byte in memory. -/
theorem test_hostRead_after_done :
    after (exec .enc (kat [])) (fun t => (t.hostRead 0x3000).readData) = some 0xBD := by decide +kernel

theorem witness_RacingHostWriteIsSeenOrNot :
    (let s := accessing 0x01 .fetch;
      s.Unwritten 0x10 0 ∧ s.phase = .fetch ∧ s.ownsByte 0x10 = true ∧
        0x10 = s.hidden.lk.keyaddr.toNat + s.hidden.kse.key.length ∧
        0x10 < 2 ^ s.params.addrW ∧ s.answersError .read 0x10 = false) ∧
    (let s := accessing 0x12 .read;
      s.Unwritten 0x20 0 ∧ s.phase = .read ∧ s.ownsByte 0x20 = true ∧
        0x20 = s.hidden.lk.src.toNat + 16 * s.hidden.bsp.k + s.hidden.bsp.inp.length ∧
        0x20 < 2 ^ s.params.addrW ∧ s.answersError .read 0x20 = false) ∧
    (let s := accessing 0x10 .write;
      s.Unwritten 0x40 0 ∧ s.phase = .write ∧ s.targetsByte 0x40 = true ∧
        0 = s.hidden.bsp.out.getD s.hidden.bsp.m 0 ∧
        0x40 = s.hidden.lk.outAddr + 16 * s.hidden.bsp.k + s.hidden.bsp.m ∧
        0x40 < 2 ^ s.params.addrW ∧ s.answersError .write 0x40 = false) ∧
    (let s := readingBack;
      s.inbox = .memRead 0x40 :: [] ∧ s.pace = some 0 ∧ 0x40 < 2 ^ s.params.addrW ∧
        s.targetsByte 0x40 = true ∧ s.engineBytes 0x40 ++ s.hostBytes 0x40 ≠ []) ∧
    (let s := { accessing 0x10 .write with inbox := [.memWrite 0x60 1], pace := some 0 };
      s.pace = some 0 ∧ 0x60 < 2 ^ s.params.addrW ∧ s.inbox = .memWrite 0x60 1 :: [] ∧
        s.ownsByte 0x60 = false) ∧
    (let s := { accessing 0x10 .write with inbox := [.memRead 0x20], pace := some 0 };
      s.pace = some 0 ∧ 0x20 < 2 ^ s.params.addrW ∧ s.inbox = .memRead 0x20 :: [] ∧
        s.targetsByte 0x20 = false) := by
  refine ⟨⟨?_, by decide⟩, ⟨?_, by decide⟩, ⟨?_, by decide⟩, by decide, by decide, by decide⟩ <;>
    constructor <;> decide

theorem witness_IdleBlockStaysAsItIs : State.reset.phase = .idle ∧ State.reset.inbox = [] := ⟨rfl, rfl⟩

/-- An accepted ENCBLK is a state of the invariant. -/
theorem started_inv : started.Inv where
  params := by decide
  memory := rfl
  inside := by intro c hc; cases hc
  storage := List.length_replicate
  busy := by simp [started]
  running := by simp [started]
  error := by simp [started]
  info := by simp [started]
  sink := rfl
  quiet := by intro h; cases h
  context := by intro h; cases h
  position := ⟨⟨.encblk, by decide⟩, rfl⟩
  reset := by intro h; cases h

theorem witness_EveryStepKeepsTheInvariant : started.Inv ∧ ∃ t, step started = .next t :=
  ⟨started_inv, goesOn_next _ (by decide +kernel)⟩

theorem witness_EngineNeverLeavesTheMemorySpace : started.Inv := started_inv

theorem witness_EveryCommandEndsOrWaitsForTheSink :
    started.Inv ∧ started.pace = none ∧ ∃ t, started.resume = .next t :=
  ⟨started_inv, rfl, goesOn_next _ (by decide +kernel)⟩

/-- The block with its interrupt enabled, before any command. -/
def armed : State := { State.reset with ie := true }

theorem witness_AcceptedCommandShowsBusyOrDone :
    armed.Inv ∧ armed.status.busy = false ∧ ∃ t, exec .expand armed = .next t := by
  refine ⟨⟨by decide, rfl, ?_, List.length_replicate, ?_, ?_, ?_, ?_, rfl, fun _ => rfl, ?_, trivial, ?_⟩, rfl,
    goesOn_next _ (by decide +kernel)⟩
  · intro c hc; cases hc
  · exact ⟨(by intro h; cases h), fun h => absurd rfl h⟩
  · intro h; cases h
  · exact ⟨(by intro h; cases h), fun h => absurd rfl h⟩
  · intro _; rfl
  · intro h; cases h
  · intro h; cases h

end Sys2Proof.Tests
end

section
/-! SUPPORT. The decoder read backwards (spec/30_encoding.md R91, R96): a word that decodes to a command is that
command's own word, so its mode bits are the command's. -/

namespace Sys2Proof.Machine

theorem rsvField_append_opField (w : Word) : rsvField w ++ opField w = w := by
  simp only [rsvField, opField, BitVec.extractLsb]
  rw [BitVec.extractLsb'_append_extractLsb'_eq_extractLsb' (by rfl)]
  simp

theorem getLsbD_opField (w : Word) (k : Nat) (h : k < 8) : (opField w).getLsbD k = w.getLsbD k := by
  simp [opField, h]

theorem eq_blockOpcode : ∀ x : BitVec 8, x = 0x02#8 ∨ x = 0x03#8 → x = blockOpcode (x.getLsbD 0) := by
  decide

theorem eq_bufferOpcode : ∀ x : BitVec 8, 0x10#8 ≤ x ∧ x ≤ 0x17#8 →
    x = bufferOpcode (x.getLsbD 2) (x.getLsbD 1) (x.getLsbD 0) := by
  decide

theorem encode_blockCommand (d : Bool) : encode (blockCommand d) = 0#24 ++ blockOpcode d := by
  cases d <;> rfl

theorem encode_bufferCommand (m i d : Bool) : encode (bufferCommand m i d) = 0#24 ++ bufferOpcode m i d := by
  cases m <;> cases i <;> cases d <;> rfl

/-- The decoder accepts only a command's own word (R96). -/
theorem eq_encode_of_decode (w : Word) (i : Instr) (h : decode w = .ok i) : w = encode i := by
  have hw : rsvField w ++ opField w = w := rsvField_append_opField w
  unfold decode at h
  split_ifs at h with hrsv hexpand hblock hbuffer <;> cases h <;> rw [not_not.1 hrsv] at hw
  · rw [← hw, hexpand]; rfl
  · have hop := eq_blockOpcode _ hblock
    rw [getLsbD_opField w 0 (by omega)] at hop
    rw [encode_blockCommand, ← hop]; exact hw.symm
  · have hop := eq_bufferOpcode _ hbuffer
    rw [getLsbD_opField w 0 (by omega), getLsbD_opField w 1 (by omega), getLsbD_opField w 2 (by omega)] at hop
    rw [encode_bufferCommand, ← hop]; exact hw.symm

/-- Every command is EXPAND, a block command or a buffer command (R91). -/
theorem instr_kinds (i : Instr) :
    i = .expand ∨ (∃ d, i = blockCommand d) ∨ ∃ m p d, i = bufferCommand m p d := by
  cases i
  case expand => exact .inl rfl
  case encblk => exact .inr (.inl ⟨false, rfl⟩)
  case decblk => exact .inr (.inl ⟨true, rfl⟩)
  case enc => exact .inr (.inr ⟨false, false, false, rfl⟩)
  case dec => exact .inr (.inr ⟨false, false, true, rfl⟩)
  case enci => exact .inr (.inr ⟨false, true, false, rfl⟩)
  case deci => exact .inr (.inr ⟨false, true, true, rfl⟩)
  case encs => exact .inr (.inr ⟨true, false, false, rfl⟩)
  case decs => exact .inr (.inr ⟨true, false, true, rfl⟩)
  case encis => exact .inr (.inr ⟨true, true, false, rfl⟩)
  case decis => exact .inr (.inr ⟨true, true, true, rfl⟩)

/-- A latched block command is no buffer command. -/
theorem isBuffer_of_blockCommand (lk : Latches) (d : Bool) (h : decode lk.cmd = .ok (blockCommand d)) :
    lk.isBuffer = false := by
  rw [Latches.isBuffer, eq_encode_of_decode _ _ h, encode_group_blockCommand]; rfl

/-- The modes of a latched buffer command are the bits of its word. -/
theorem modes_of_bufferCommand (lk : Latches) (m i d : Bool) (h : decode lk.cmd = .ok (bufferCommand m i d)) :
    lk.modes = ⟨d, i, m⟩ := by
  obtain ⟨h0, h1, h2⟩ := encode_bits_bufferCommand m i d
  rw [← eq_encode_of_decode _ _ h] at h0 h1 h2
  simp only [Latches.modes, Latches.decrypts, Latches.inPlace, Latches.streams, h0, h1, h2]

end Sys2Proof.Machine
end

section
/-! SUPPORT. A step of the whole machine in its parts: the CMD write, the other outside events, the engine's share;
and the induction over a step packaged once. -/

namespace Sys2Proof.Machine

theorem step_of_nothing (s : State) (h : s.inbox = []) : step s = s.resume := by
  simp only [step, h]

/-- A CMD write is issued, whether its word is legal or not. -/
theorem step_of_command (s : State) (e : Event) (rest : List Event) (w : Word) (h : s.inbox = e :: rest)
    (hw : (s.popInbox rest).commandWord e = some w) : step s = issue w (s.popInbox rest) := by
  simp only [step, h, hw]
  cases hd : decode w with
  | ok i => exact (exec_eq_issue i _).trans (by rw [eq_encode_of_decode w i hd])
  | error x => rfl

theorem step_of_event (s : State) (e : Event) (rest : List Event) (h : s.inbox = e :: rest)
    (hn : (s.popInbox rest).commandWord e = none) :
    step s = Result.andThen ((s.popInbox rest).outside e) State.resume := by
  simp only [step, h, hn]

/-- What every engine step keeps, the engine's share keeps. -/
theorem resume_keeps (P : State → Prop) (hengine : ∀ s t, P s → engineStep s = .next t → P t)
    (s t : State) (hs : P s) (h : s.resume = .next t) : P t := by
  obtain ⟨n, hn, -⟩ := resume_eq_run s
  exact run_keeps P hengine n s t hs (hn ▸ h)

/-- What the CMD write, every other outside event and every engine step keep, a step keeps. -/
theorem step_keeps (P : State → Prop) (hpop : ∀ rest s, P s → P (s.popInbox rest))
    (hcmd : ∀ w s, s.rst = false → P s → P (s.writeCmd w))
    (hout : ∀ e s t, P s → s.outside e = .next t → P t)
    (hengine : ∀ s t, P s → engineStep s = .next t → P t)
    (s t : State) (hs : P s) (h : step s = .next t) : P t := by
  cases hi : s.inbox with
  | nil => exact resume_keeps P hengine s t hs (step_of_nothing s hi ▸ h)
  | cons e rest =>
    have hp : P (s.popInbox rest) := hpop rest s hs
    cases hw : (s.popInbox rest).commandWord e with
    | some w =>
      rw [step_of_command s e rest w hi hw] at h
      exact resume_keeps P hengine _ t (hcmd w _ (rst_of_commandWord _ e w hw) hp) h
    | none =>
      rw [step_of_event s e rest hi hw] at h
      obtain ⟨u, hu, ht⟩ := Result.andThen_eq_next _ _ _ h
      exact resume_keeps P hengine u t (hout e _ u hp hu) ht

/-- Everything a CMD write can do (R200, R201, R211). -/
theorem writeCmd_cases (w : Word) (s : State) :
    (s.status.busy = true ∧ s.writeCmd w = s.dropCommand) ∨
    (s.status.busy = false ∧ (∃ i, decode w = .ok i) ∧ s.writeCmd w = s.accept w) ∨
    (s.status.busy = false ∧ (∃ x, decode w = .error x) ∧ s.writeCmd w = (s.accept w).raiseError .badcmd w) := by
  unfold State.writeCmd
  cases s.status.busy with
  | true => exact .inl ⟨rfl, rfl⟩
  | false =>
    cases hd : decode w with
    | ok i => exact .inr (.inl ⟨rfl, ⟨i, rfl⟩, rfl⟩)
    | error x => exact .inr (.inr ⟨rfl, ⟨x, rfl⟩, rfl⟩)

/-- `t` has the engine of `s`: its place, its hidden registers, the parameters and the error code. -/
structure State.SameEngine (s t : State) : Prop where
  params : t.params = s.params
  phase : t.phase = s.phase
  hidden : t.hidden = s.hidden
  errcode : t.status.errcode = s.status.errcode

theorem sameEngine_portWrite (addr : Nat) (lanes : BitVec 4) (v : Word) (s : State) :
    s.SameEngine (s.portWrite addr lanes v) := by
  unfold State.portWrite
  split_ifs
  · constructor <;> rfl
  · split
    · rename_i x _
      cases x <;> constructor <;> rfl
    · constructor <;> rfl

theorem sameEngine_portRead (addr : Nat) (lanes : BitVec 4) (s : State) :
    s.SameEngine (s.portRead addr lanes) := by
  unfold State.portRead
  split
  · constructor <;> rfl
  · split_ifs <;> constructor <;> rfl

theorem sameEngine_hostWrite (a : Nat) (v : Byte) (s : State) : s.SameEngine (s.hostWrite a v) := by
  by_cases ho : s.ownsByte a = true
  · obtain ⟨b, -, n, hs⟩ := hostWrite_of_owned a v s ho
    rw [hs]; constructor <;> rfl
  · rw [hostWrite_of_free a v s (by simpa using ho)]; constructor <;> rfl

theorem sameEngine_hostRead (a : Nat) (s : State) : s.SameEngine (s.hostRead a) := by
  obtain ⟨b, n, hs, -⟩ := hostRead_cases a s
  rw [hs]; constructor <;> rfl

/-- Everything an outside event other than a CMD write can do to the engine: nothing, or the reset of the block. -/
theorem outside_cases (e : Event) (s t : State) (h : s.outside e = .next t) :
    s.SameEngine t ∨ (e = .rst true ∧ t = { s.resetBlock with rst := true }) := by
  cases e with
  | regWrite addr lanes v => cases h; exact .inl (sameEngine_portWrite addr lanes v s)
  | regRead addr lanes => cases h; exact .inl (sameEngine_portRead addr lanes s)
  | memWrite addr v =>
    simp only [State.outside] at h
    split_ifs at h
    cases h; exact .inl (sameEngine_hostWrite addr v s)
  | memRead addr =>
    simp only [State.outside] at h
    split_ifs at h
    cases h; exact .inl (sameEngine_hostRead addr s)
  | sinkReady level => cases h; exact .inl (by constructor <;> rfl)
  | busErrors regions => cases h; exact .inl (by constructor <;> rfl)
  | pace n => cases h; exact .inl (by constructor <;> rfl)
  | rst level =>
    cases level with
    | true => cases h; exact .inr ⟨rfl, rfl⟩
    | false => cases h; exact .inl (by constructor <;> rfl)

/-- An outside event is answered, or it is another agent's access past the memory space. -/
theorem outside_answers (e : Event) (s : State) :
    (∃ t, s.outside e = .next t) ∨
    ∃ addr, (e = .memRead addr ∨ ∃ v, e = .memWrite addr v) ∧ 2 ^ s.params.addrW ≤ addr ∧
      s.outside e = .fault (.outsideMemory addr) := by
  have hpast : ∀ addr, s.inMemory addr ≠ true → 2 ^ s.params.addrW ≤ addr := fun addr hm => by
    simpa [State.inMemory] using hm
  cases e with
  | memWrite addr v =>
    by_cases hm : s.inMemory addr = true
    · exact .inl ⟨_, if_pos hm⟩
    · exact .inr ⟨addr, .inr ⟨v, rfl⟩, hpast addr hm, if_neg hm⟩
  | memRead addr =>
    by_cases hm : s.inMemory addr = true
    · exact .inl ⟨_, if_pos hm⟩
    · exact .inr ⟨addr, .inl rfl, hpast addr hm, if_neg hm⟩
  | _ => exact .inl ⟨_, rfl⟩

end Sys2Proof.Machine
end

section
/-! PROOF. With BUS_ERR = never the memory answers no access with an error, the only source of E_BUS (R210): every part
of a step keeps an error code other than E_BUS. -/

namespace Sys2Proof.Machine

/-- The memory answers no access with an error, and ERRCODE is not E_BUS. -/
structure State.BusSafe (s : State) : Prop where
  never : s.params.busErr = false
  code : s.status.errcode ≠ .bus

theorem answersError_of_never (kind : Access) (addr : Nat) (s : State) (h : s.params.busErr = false) :
    s.answersError kind addr = false := by
  simp [State.answersError, h]

namespace State.BusSafe

/-- The parameters and the error code decide. -/
theorem congr {s t : State} (h : s.BusSafe) (hp : t.params = s.params)
    (hc : t.status.errcode = s.status.errcode) : t.BusSafe :=
  ⟨hp ▸ h.never, hc ▸ h.code⟩

/-- An error other than E_BUS. -/
theorem raiseError {s : State} (h : s.BusSafe) (code : ErrCode) (info : Word) (hc : code ≠ .bus) :
    (s.raiseError code info).BusSafe :=
  ⟨h.never, hc⟩

theorem complete {s : State} (h : s.BusSafe) : s.complete.BusSafe :=
  ⟨h.never, by simp⟩

theorem startOf {s : State} (h : s.BusSafe) (i : Instr) : (startOf i s).BusSafe := by
  cases i <;> exact h.congr rfl rfl

theorem wroteByte {s : State} (h : s.BusSafe) : (wroteByte s).BusSafe := by
  unfold Machine.wroteByte
  split_ifs <;> exact h.congr rfl rfl

theorem whitenStep {s : State} (h : s.BusSafe) : (whitenStep s).BusSafe := by
  unfold Machine.whitenStep
  cases s.hidden.lk.decrypts <;> exact h.congr rfl rfl

theorem roundStep {s : State} (h : s.BusSafe) : (roundStep s).BusSafe := by
  unfold Machine.roundStep
  cases s.hidden.lk.decrypts <;> exact h.congr rfl rfl

theorem deliverStep {s : State} (h : s.BusSafe) : (deliverStep s).BusSafe := by
  unfold Machine.deliverStep
  cases s.hidden.lk.isBuffer
  · exact h.complete.congr rfl rfl
  · exact h.congr rfl rfl

theorem holdStep {s : State} (h : s.BusSafe) : (holdStep s).BusSafe := by
  unfold Machine.holdStep
  split
  · split_ifs
    · exact h.congr rfl rfl
    · exact h
  · exact h

/-- The memory answers the read, so only what follows it counts. -/
theorem memRead {s t : State} (h : s.BusSafe) (a : Nat) (k : Byte → State → State)
    (hk : ∀ (b : Byte) (u : State), u.BusSafe → (k b u).BusSafe) (ht : s.memRead a k = .next t) : t.BusSafe := by
  obtain ⟨-, ⟨hbad, -⟩ | ⟨-, b, n, rfl⟩⟩ := memRead_cases _ _ _ _ ht
  · simp [answersError_of_never _ _ s h.never] at hbad
  · exact hk b _ (h.congr rfl rfl)

theorem memWrite {s t : State} (h : s.BusSafe) (a : Nat) (v : Byte) (k : State → State)
    (hk : ∀ u : State, u.BusSafe → (k u).BusSafe) (ht : s.memWrite a v k = .next t) : t.BusSafe := by
  obtain ⟨-, ⟨hbad, -⟩ | ⟨-, b, n, rfl⟩⟩ := memWrite_cases _ _ _ _ _ ht
  · simp [answersError_of_never _ _ s h.never] at hbad
  · exact hk _ (h.congr rfl rfl)

theorem engineStep {s t : State} (h : s.BusSafe) (ht : engineStep s = .next t) : t.BusSafe := by
  obtain ⟨-, rfl⟩ | ⟨-, (⟨c, i, rfl, hc, -⟩ | ⟨i, -, -, rfl⟩)⟩ | ⟨-, ht⟩ | ⟨-, rfl⟩ | ⟨-, rfl⟩ | ⟨-, rfl⟩ |
    ⟨-, ht⟩ | ⟨-, rfl⟩ | ⟨-, rfl⟩ | ⟨-, rfl⟩ | ⟨-, ht⟩ | ⟨-, rfl⟩ | ⟨-, rfl⟩ | ⟨-, rfl⟩ := engineStep_cases s t ht
  · exact h
  · exact h.raiseError c i hc
  · exact h.startOf i
  · exact h.memRead _ takeKeyByte (fun _ _ hu => hu.congr rfl rfl) ht
  · exact h.congr rfl rfl
  · exact h.congr rfl rfl
  · exact h.congr rfl rfl
  · exact h.memRead _ takeSourceByte (fun _ _ hu => hu.congr rfl rfl) ht
  · exact h.whitenStep
  · exact h.roundStep
  · exact h.deliverStep
  · exact h.memWrite _ _ _ (fun _ hu => hu.wroteByte) ht
  · exact h.congr rfl rfl
  · exact h.holdStep
  · exact h.complete

theorem writeCmd {s : State} (h : s.BusSafe) (w : Word) : (s.writeCmd w).BusSafe := by
  have ha : (s.accept w).BusSafe := ⟨h.never, by simp⟩
  obtain ⟨-, hw⟩ | ⟨-, -, hw⟩ | ⟨-, -, hw⟩ := writeCmd_cases w s <;> rw [hw]
  · exact h.congr rfl rfl
  · exact ha
  · exact ha.raiseError _ _ (by decide)

theorem outside {s t : State} (h : s.BusSafe) (e : Event) (ht : s.outside e = .next t) : t.BusSafe := by
  obtain he | ⟨-, rfl⟩ := outside_cases e s t ht
  · exact h.congr he.params he.errcode
  · exact ⟨h.never, by simp [State.resetBlock, Status.reset]⟩

end State.BusSafe

/-- Settles O37: `State.BusSafe` is kept by every part of a step. -/
theorem noBusErrorWhenMemoryNeverAnswersOne : Obligations.NoBusErrorWhenMemoryNeverAnswersOne := by
  intro s t hnever hcode ht
  have hsafe : t.BusSafe := step_keeps State.BusSafe (fun _ _ h => h.congr rfl rfl)
    (fun w _ _ h => h.writeCmd w) (fun e _ _ h hu => h.outside e hu) (fun _ _ h hu => h.engineStep hu)
    s t ⟨hnever, hcode⟩ ht
  exact hsafe.code

end Sys2Proof.Machine
end

section
/-! PROOF. The checks keep every access of the engine inside the memory space (R67, R208): `State.Inside` says it of the
accesses the running command still makes, holds wherever State.Inv does, and is kept while every part of a step is
answered. -/

namespace Sys2Proof.Machine

/-- Every block of the latched buffer is inside the memory space, where it is read and where it is written. -/
structure State.BlocksInside (s : State) : Prop where
  source : ∀ k < s.hidden.lk.blocks,
    s.hidden.lk.src.toNat + Config.blockBytes * k + Config.blockBytes ≤ 2 ^ s.params.addrW
  target : s.hidden.lk.writesMem = true → ∀ k < s.hidden.lk.blocks,
    s.hidden.lk.outAddr + Config.blockBytes * k + Config.blockBytes ≤ 2 ^ s.params.addrW

/-- The engine is at work on a block of a buffer that is inside the memory space. -/
structure State.BlockInside (s : State) : Prop extends State.BlocksInside s where
  block : s.hidden.bsp.k < s.hidden.lk.blocks

/-- The accesses that the running command makes from its place on are inside the memory space. -/
def State.Inside (s : State) : Prop :=
  match s.phase with
  | .fetch => s.hidden.kse.key.length < s.hidden.lk.keylen.toNat ∧
      s.hidden.lk.keyaddr.toNat + s.hidden.lk.keylen.toNat ≤ 2 ^ s.params.addrW
  | .read => s.BlockInside ∧ s.hidden.bsp.inp.length < Config.blockBytes
  | .whiten | .round | .deliver => s.hidden.lk.isBuffer = true → s.BlockInside
  | .write => s.BlockInside ∧ s.hidden.lk.writesMem = true ∧ s.hidden.bsp.m < Config.blockBytes
  | .offer | .hold => s.BlockInside
  | .idle | .check | .init | .mix | .commit | .finish => True

/-! `State.Inside` at each place of the engine. -/

theorem inside_fetch {s : State} (hp : s.phase = .fetch) :
    s.Inside ↔ s.hidden.kse.key.length < s.hidden.lk.keylen.toNat ∧
      s.hidden.lk.keyaddr.toNat + s.hidden.lk.keylen.toNat ≤ 2 ^ s.params.addrW := by
  simp only [State.Inside, hp]

theorem inside_read {s : State} (hp : s.phase = .read) :
    s.Inside ↔ s.BlockInside ∧ s.hidden.bsp.inp.length < Config.blockBytes := by
  simp only [State.Inside, hp]

theorem inside_transform {s : State} (hp : s.phase = .whiten ∨ s.phase = .round ∨ s.phase = .deliver) :
    s.Inside ↔ (s.hidden.lk.isBuffer = true → s.BlockInside) := by
  obtain hp | hp | hp := hp <;> simp only [State.Inside, hp]

theorem inside_write {s : State} (hp : s.phase = .write) :
    s.Inside ↔ s.BlockInside ∧ s.hidden.lk.writesMem = true ∧ s.hidden.bsp.m < Config.blockBytes := by
  simp only [State.Inside, hp]

theorem inside_sink {s : State} (hp : s.phase = .offer ∨ s.phase = .hold) : s.Inside ↔ s.BlockInside := by
  obtain hp | hp := hp <;> simp only [State.Inside, hp]

/-- No access of the engine comes before the next check. -/
theorem inside_of_other {s : State} (hp : s.phase = .idle ∨ s.phase = .check ∨ s.phase = .init ∨ s.phase = .mix ∨
    s.phase = .commit ∨ s.phase = .finish) : s.Inside := by
  obtain hp | hp | hp | hp | hp | hp := hp <;> simp only [State.Inside, hp]

/-- A range inside the memory space holds every block of it. -/
theorem block_le_of_range (a len bound k : Nat) (hk : k < len / Config.blockBytes)
    (h : 0 < len → a + len ≤ bound) : a + Config.blockBytes * k + Config.blockBytes ≤ bound := by
  simp only [Config.blockBytes] at hk ⊢
  omega

/-- The blocks are inside when the ranges that the command reads and writes are. -/
theorem blocksInside_of_ranges (s : State)
    (hsrc : 0 < s.hidden.lk.len.toNat →
      s.hidden.lk.src.toNat + s.hidden.lk.len.toNat ≤ 2 ^ s.params.addrW)
    (hdst : s.hidden.lk.inPlace = false → s.hidden.lk.streams = false → 0 < s.hidden.lk.len.toNat →
      s.hidden.lk.dst.toNat + s.hidden.lk.len.toNat ≤ 2 ^ s.params.addrW) : s.BlocksInside where
  source k hk := block_le_of_range _ _ _ k hk hsrc
  target hw k hk := by
    refine block_le_of_range _ _ _ k hk fun hlen => ?_
    cases hi : s.hidden.lk.inPlace with
    | true => simpa [Latches.outAddr, hi] using hsrc hlen
    | false => simpa [Latches.outAddr, hi] using hdst hi (by simpa [Latches.writesMem, hi] using hw) hlen

/-! Where the invariant holds. -/

theorem State.Buffering.blocksInside {s : State} (h : s.Buffering) : s.BlocksInside :=
  blocksInside_of_ranges s h.source h.target

theorem State.InBlock.blockInside {s : State} (h : s.InBlock) : s.BlockInside :=
  ⟨h.toBuffering.blocksInside, h.block⟩

/-- The RTE's place in a block command or in a block of a buffer command. -/
theorem blockInside_of_blocking_or (s : State) (h : s.Blocking ∨ s.InBlock) (hb : s.hidden.lk.isBuffer = true) :
    s.BlockInside := by
  obtain ⟨⟨d, hcmd⟩, -⟩ | h := h
  · rw [isBuffer_of_blockCommand _ d hcmd] at hb; cases hb
  · exact h.blockInside

theorem State.Positioned.inside {s : State} (h : s.Positioned) : s.Inside := by
  unfold State.Positioned at h
  unfold State.Inside
  cases hp : s.phase <;> rw [hp] at h <;> dsimp only at h ⊢
  case fetch => exact ⟨h.2, h.1.range⟩
  case read => exact ⟨h.1.blockInside, h.2⟩
  case whiten => exact blockInside_of_blocking_or s (h.imp_right And.left)
  case round => exact blockInside_of_blocking_or s h.1
  case deliver => exact blockInside_of_blocking_or s h
  case write =>
    obtain ⟨hb, hw, -, hm⟩ := h
    exact ⟨hb.blockInside, hw, hm⟩
  case offer => exact h.1.blockInside
  case hold => exact h.1.blockInside

/-! What the checks have compared (R208, R215). -/

theorem range_of_expandChecks (s : State) (h : expandChecks s = none) :
    0 < s.hidden.lk.keylen.toNat ∧
      s.hidden.lk.keyaddr.toNat + s.hidden.lk.keylen.toNat ≤ 2 ^ s.params.addrW := by
  unfold expandChecks at h
  split_ifs at h with hlen _ _ hrange
  refine ⟨?_, (rangeLegal_iff _ _ _).1 (by simpa using hrange)⟩
  exact Nat.pos_of_ne_zero fun h0 => hlen (BitVec.eq_of_toNat_eq h0)

theorem ranges_of_copyChecks (s : State) (h : copyChecks s = none) :
    s.hidden.lk.src.toNat + s.hidden.lk.len.toNat ≤ 2 ^ s.params.addrW ∧
      s.hidden.lk.dst.toNat + s.hidden.lk.len.toNat ≤ 2 ^ s.params.addrW := by
  unfold copyChecks at h
  split_ifs at h with _ hsrc hdst
  exact ⟨(rangeLegal_iff _ _ _).1 (by simpa using hsrc), (rangeLegal_iff _ _ _).1 (by simpa using hdst)⟩

theorem range_of_sourceChecks (s : State) (h : sourceChecks s = none) :
    s.hidden.lk.src.toNat + s.hidden.lk.len.toNat ≤ 2 ^ s.params.addrW := by
  unfold sourceChecks at h
  split_ifs at h with _ hsrc
  exact (rangeLegal_iff _ _ _).1 (by simpa using hsrc)

/-- ENC and DEC make the copy checks, the other buffer commands those of the source. -/
theorem checksOf_bufferCommand_eq (m i d : Bool) :
    checksOf (bufferCommand m i d) = if m || i then sourceChecks else copyChecks := by
  cases m <;> cases i <;> cases d <;> rfl

theorem blocksInside_of_checks (s : State) (m i d : Bool)
    (hcmd : decode s.hidden.lk.cmd = .ok (bufferCommand m i d))
    (hc : checksOf (bufferCommand m i d) s = none) : s.BlocksInside := by
  have hmodes := modes_of_bufferCommand _ m i d hcmd
  have hi : s.hidden.lk.inPlace = i := congrArg Modes.inPlace hmodes
  have hm : s.hidden.lk.streams = m := congrArg Modes.stream hmodes
  rw [checksOf_bufferCommand_eq] at hc
  by_cases hs : (m || i) = true
  · rw [if_pos hs] at hc
    refine blocksInside_of_ranges s (fun _ => range_of_sourceChecks s hc) fun h1 h2 => ?_
    simp [← hi, ← hm, h1, h2] at hs
  · rw [if_neg hs] at hc
    obtain ⟨hsrc, hdst⟩ := ranges_of_copyChecks s hc
    exact blocksInside_of_ranges s (fun _ => hsrc) fun _ _ _ => hdst

/-! An access inside the memory space is answered. -/

theorem memRead_answers (addr : Nat) (k : Byte → State → State) (s : State) (h : addr < 2 ^ s.params.addrW) :
    ∃ t, s.memRead addr k = .next t := by
  have hm : s.inMemory addr = true := decide_eq_true h
  simp only [State.memRead, hm, Bool.not_true, Bool.false_eq_true, if_false]
  split_ifs <;> exact ⟨_, rfl⟩

theorem memWrite_answers (addr : Nat) (v : Byte) (k : State → State) (s : State) (h : addr < 2 ^ s.params.addrW) :
    ∃ t, s.memWrite addr v k = .next t := by
  have hm : s.inMemory addr = true := decide_eq_true h
  simp only [State.memWrite, hm, Bool.not_true, Bool.false_eq_true, if_false]
  split_ifs <;> exact ⟨_, rfl⟩

/-! What each step of the engine keeps. -/

/-- The blocks are inside by the latched operands and the parameters alone. -/
theorem State.BlocksInside.congr {s t : State} (h : s.BlocksInside) (hp : t.params = s.params)
    (hlk : t.hidden.lk = s.hidden.lk) : t.BlocksInside :=
  ⟨by rw [hp, hlk]; exact h.source, by rw [hp, hlk]; exact h.target⟩

theorem State.BlockInside.congr {s t : State} (h : s.BlockInside) (hp : t.params = s.params)
    (hlk : t.hidden.lk = s.hidden.lk) (hk : t.hidden.bsp.k = s.hidden.bsp.k) : t.BlockInside :=
  ⟨h.toBlocksInside.congr hp hlk, by rw [hlk, hk]; exact h.block⟩

theorem State.BlocksInside.toBlock {s : State} (h : s.BlocksInside) (k : Nat) : (s.toBlock k).Inside := by
  by_cases hk : k < s.hidden.lk.blocks
  · exact (inside_read (if_pos hk)).2 ⟨⟨h.congr rfl rfl, hk⟩, (by decide : 0 < Config.blockBytes)⟩
  · exact inside_of_other (by simp [State.toBlock, hk])

namespace State.Inside

/-- The engine's place, its hidden registers and the parameters decide. -/
theorem congr {s t : State} (h : s.Inside) (hp : t.params = s.params) (hph : t.phase = s.phase)
    (hh : t.hidden = s.hidden) : t.Inside := by
  have hblocks : s.BlockInside → t.BlockInside := fun hb => hb.congr hp (by rw [hh]) (by rw [hh])
  unfold State.Inside at h ⊢
  rw [hph, hh, hp]
  cases hs : s.phase <;> rw [hs] at h <;> dsimp only at h ⊢
  case fetch => exact h
  case read => exact h.imp_left hblocks
  case whiten | round | deliver => exact fun hb => hblocks (h hb)
  case write => exact h.imp_left hblocks
  case offer | hold => exact hblocks h

theorem of_idle {s : State} (h : s.phase = .idle) : s.Inside := inside_of_other (.inl h)

theorem startOf {s : State} (i : Instr) (hcmd : decode s.hidden.lk.cmd = .ok i) (hc : checksOf i s = none) :
    (startOf i s).Inside := by
  obtain rfl | ⟨d, rfl⟩ | ⟨m, p, d, rfl⟩ := instr_kinds i
  · exact range_of_expandChecks s hc
  · have hb := isBuffer_of_blockCommand _ d hcmd
    cases d <;> exact (inside_transform (.inl rfl)).2 fun h => absurd (hb.symm.trans h) (by decide)
  · rw [startOf_bufferCommand]
    exact (blocksInside_of_checks s m p d hcmd hc).toBlock 0

theorem fetchStep {s t : State} (h : s.Inside) (hp : s.phase = .fetch) (ht : fetchStep s = .next t) :
    t.Inside := by
  obtain ⟨-, hrange⟩ := (inside_fetch hp).1 h
  obtain ⟨-, ⟨-, rfl⟩ | ⟨-, b, n, rfl⟩⟩ := memRead_cases _ _ _ _ ht
  · exact of_idle rfl
  · by_cases hmore : s.hidden.kse.key.length + 1 < s.hidden.lk.keylen.toNat
    · exact (inside_fetch (if_pos hmore)).2 ⟨by simpa [takeKeyByte, State.setFree] using hmore, hrange⟩
    · exact inside_of_other (.inr (.inr (.inl (if_neg hmore))))

theorem readStep {s t : State} (h : s.Inside) (hp : s.phase = .read) (ht : readStep s = .next t) :
    t.Inside := by
  obtain ⟨hb, -⟩ := (inside_read hp).1 h
  obtain ⟨-, ⟨-, rfl⟩ | ⟨-, b, n, rfl⟩⟩ := memRead_cases _ _ _ _ ht
  · exact of_idle rfl
  · by_cases hmore : s.hidden.bsp.inp.length + 1 < Config.blockBytes
    · exact (inside_read (if_pos hmore)).2
        ⟨hb.congr rfl rfl rfl, by simpa [takeSourceByte, State.setFree] using hmore⟩
    · exact (inside_transform (.inl (if_neg hmore))).2 fun _ => hb.congr rfl rfl rfl

theorem whitenStep {s : State} (h : s.Inside) (hp : s.phase = .whiten) : (whitenStep s).Inside := by
  have hb := (inside_transform (.inl hp)).1 h
  have hnext := ite_eq_or_eq (s.r = 0) Phase.deliver .round
  unfold Machine.whitenStep
  cases s.hidden.lk.decrypts <;>
    exact (inside_transform (.inr hnext.symm)).2 fun hbuf => (hb hbuf).congr rfl rfl rfl

theorem roundStep {s : State} (h : s.Inside) (hp : s.phase = .round) : (roundStep s).Inside := by
  have hb := (inside_transform (.inr (.inl hp))).1 h
  unfold Machine.roundStep
  cases s.hidden.lk.decrypts <;>
    exact (inside_transform (.inr (ite_eq_or_eq _ _ _))).2 fun hbuf => (hb hbuf).congr rfl rfl rfl

theorem deliverStep {s : State} (h : s.Inside) (hp : s.phase = .deliver) : (deliverStep s).Inside := by
  have hb := (inside_transform (.inr (.inr hp))).1 h
  unfold Machine.deliverStep
  split_ifs with hbuf
  · by_cases hw : s.hidden.lk.writesMem = true
    · exact (inside_write (if_pos hw)).2
        ⟨(hb hbuf).congr rfl rfl rfl, hw, (by decide : 0 < Config.blockBytes)⟩
    · exact (inside_sink (.inl (if_neg hw))).2 ((hb hbuf).congr rfl rfl rfl)
  · exact of_idle rfl

theorem blockDone {s : State} (h : s.BlockInside) : s.blockDone.Inside :=
  (h.toBlocksInside.toBlock (s.hidden.bsp.k + 1)).congr rfl rfl rfl

theorem wroteByte {s : State} (h : s.Inside) (hp : s.phase = .write) : (wroteByte s).Inside := by
  obtain ⟨hb, hw, -⟩ := (inside_write hp).1 h
  unfold Machine.wroteByte
  split_ifs with hmore
  · refine (inside_write ?_).2 ⟨hb.congr rfl rfl rfl, hw, hmore⟩
    exact hp
  · exact (inside_sink (.inl rfl)).2 (hb.congr rfl rfl rfl)
  · exact blockDone hb

theorem writeStep {s t : State} (h : s.Inside) (hp : s.phase = .write) (ht : writeStep s = .next t) :
    t.Inside := by
  obtain ⟨-, ⟨-, rfl⟩ | ⟨-, b, n, rfl⟩⟩ := memWrite_cases _ _ _ _ _ ht
  · exact of_idle rfl
  · exact wroteByte (h.congr rfl rfl rfl) hp

theorem holdStep {s : State} (h : s.Inside) (hp : s.phase = .hold) : (holdStep s).Inside := by
  have hb := (inside_sink (.inr hp)).1 h
  unfold Machine.holdStep
  split
  · split_ifs
    · exact (blockDone (hb.congr rfl rfl rfl)).congr rfl rfl rfl
    · exact h
  · exact h

theorem engineStep {s t : State} (h : s.Inside) (ht : engineStep s = .next t) : t.Inside := by
  obtain ⟨-, rfl⟩ | ⟨-, (⟨c, i, rfl, -⟩ | ⟨i, hcmd, hc, rfl⟩)⟩ | ⟨hp, ht⟩ | ⟨-, rfl⟩ | ⟨-, rfl⟩ | ⟨-, rfl⟩ |
    ⟨hp, ht⟩ | ⟨hp, rfl⟩ | ⟨hp, rfl⟩ | ⟨hp, rfl⟩ | ⟨hp, ht⟩ | ⟨hp, rfl⟩ | ⟨hp, rfl⟩ | ⟨-, rfl⟩ :=
    engineStep_cases s t ht
  · exact h
  · exact of_idle rfl
  · exact startOf i hcmd hc
  · exact h.fetchStep hp ht
  · exact inside_of_other (by simp [initStep])
  · have hnext := ite_eq_or_eq
      (s.hidden.kse.s + 1 < mixSteps s.hidden.kse.l.length (tableWords s.hidden.lk.r)) Phase.mix .commit
    exact inside_of_other (.inr (.inr (.inr (hnext.imp_right .inl))))
  · exact inside_of_other (by simp [commitStep])
  · exact h.readStep hp ht
  · exact h.whitenStep hp
  · exact h.roundStep hp
  · exact h.deliverStep hp
  · exact h.writeStep hp ht
  · exact (inside_sink (.inr rfl)).2 (((inside_sink (.inl hp)).1 h).congr rfl rfl rfl)
  · exact h.holdStep hp
  · exact of_idle rfl

theorem writeCmd {s : State} (h : s.Inside) (w : Word) : (s.writeCmd w).Inside := by
  obtain ⟨-, hw⟩ | ⟨-, -, hw⟩ | ⟨-, -, hw⟩ := writeCmd_cases w s <;> rw [hw]
  · exact h.congr rfl rfl rfl
  · exact inside_of_other (.inr (.inl rfl))
  · exact of_idle rfl

theorem outside {s t : State} (h : s.Inside) (e : Event) (ht : s.outside e = .next t) : t.Inside := by
  obtain he | ⟨-, rfl⟩ := outside_cases e s t ht
  · exact h.congr he.params he.phase he.hidden
  · exact of_idle rfl

/-! The engine's accesses are answered, with a byte or with an error response. -/

theorem engineStep_answers {s : State} (h : s.Inside) : ∃ t, Machine.engineStep s = .next t := by
  cases hp : s.phase
  case fetch =>
    obtain ⟨hkey, hrange⟩ := (inside_fetch hp).1 h
    rw [engineStep_fetch s hp]
    exact memRead_answers _ _ s (by omega)
  case read =>
    obtain ⟨hb, hinp⟩ := (inside_read hp).1 h
    have hend := hb.source _ hb.block
    rw [engineStep_read s hp]
    exact memRead_answers _ _ s (by omega)
  case write =>
    obtain ⟨hb, hw, hm⟩ := (inside_write hp).1 h
    have hend := hb.target hw _ hb.block
    rw [engineStep_write s hp]
    exact memWrite_answers _ _ _ s (by omega)
  all_goals
    simp only [Machine.engineStep, hp]
    exact ⟨_, rfl⟩

theorem run_answers (n : Nat) {s : State} (h : s.Inside) : ∃ t, run n s = .next t := by
  induction n generalizing s with
  | zero => exact ⟨s, rfl⟩
  | succ n ih =>
    cases hm : s.canMove with
    | true =>
      obtain ⟨u, hu⟩ := h.engineStep_answers
      rw [run_next n s u hm hu]
      exact ih (h.engineStep hu)
    | false => exact ⟨s, run_of_not_canMove _ _ hm⟩

theorem resume_answers {s : State} (h : s.Inside) : ∃ t, s.resume = .next t := by
  obtain ⟨n, hn, -⟩ := resume_eq_run s
  exact hn ▸ h.run_answers n

end State.Inside

/-- Settles O58: `State.Inside` holds wherever State.Inv does, and with it the engine's share is answered, so that
only another agent's access is left to stop. -/
theorem engineNeverLeavesTheMemorySpace : Obligations.EngineNeverLeavesTheMemorySpace := by
  intro s hinv
  have hin : s.Inside := hinv.position.inside
  cases hi : s.inbox with
  | nil => exact .inl (step_of_nothing s hi ▸ hin.resume_answers)
  | cons e rest =>
    have hpop : (s.popInbox rest).Inside := hin.congr rfl rfl rfl
    cases hw : (s.popInbox rest).commandWord e with
    | some w =>
      rw [step_of_command s e rest w hi hw]
      exact .inl (hpop.writeCmd w).resume_answers
    | none =>
      rw [step_of_event s e rest hi hw]
      obtain ⟨u, hu⟩ | ⟨addr, he, hpast, hfault⟩ := outside_answers e (s.popInbox rest)
      · rw [hu, Result.next_andThen]
        exact .inl (hpop.outside e hu).resume_answers
      · rw [hfault, Result.fault_andThen]
        exact .inr ⟨addr, e, rest, rfl, he, hpast, rfl⟩

end Sys2Proof.Machine
end

section
/-! SUPPORT. The register port in its parts (spec/10_state.md R23, R42): which register an aligned access reaches, and
what a read and a write of it are. -/

namespace Sys2Proof.Machine

/-- An aligned access with all four lanes reaches the register at its offset. -/
theorem reached_of_aligned (p : Params) (off : Nat) (hoff : off < 4096) (hal : off % 4 = 0) :
    reached p (p.base + off) 0b1111#4 = some (regAt p off) := by
  simp [reached, inAperture, Config.apertureBytes, hoff, hal]

/-- A misaligned or narrow access reaches no register. -/
theorem reached_of_malformed (p : Params) (off : Nat) (lanes : BitVec 4) (h : off % 4 ≠ 0 ∨ lanes ≠ 0b1111#4) :
    reached p (p.base + off) lanes = none := by
  unfold reached
  rw [if_neg]
  simp only [Nat.add_sub_cancel_left, Bool.and_eq_true, decide_eq_true_eq, beq_iff_eq]
  rintro ⟨⟨-, hal⟩, hlanes⟩
  exact h.elim (· hal) (· hlanes)

theorem inAperture_of_offset (p : Params) (off : Nat) (hoff : off < 4096) : inAperture p (p.base + off) = true := by
  simp [inAperture, Config.apertureBytes, hoff]

theorem portWrite_of_reached (s : State) (addr : Nat) (lanes : BitVec 4) (v : Word) (x : Reg) (hr : s.rst = false)
    (h : reached s.params addr lanes = some x) : s.portWrite addr lanes v = s.writeReg v x := by
  simp [State.portWrite, hr, h]

theorem portWrite_of_unreached (s : State) (addr : Nat) (lanes : BitVec 4) (v : Word)
    (h : reached s.params addr lanes = none) : s.portWrite addr lanes v = s := by
  simp [State.portWrite, h]

theorem portRead_of_reached (s : State) (addr : Nat) (lanes : BitVec 4) (x : Reg)
    (h : reached s.params addr lanes = some x) : s.portRead addr lanes = { s with readData := s.readReg x } := by
  simp [State.portRead, h]

theorem portRead_of_unreached (s : State) (addr : Nat) (lanes : BitVec 4)
    (h : reached s.params addr lanes = none) (ha : inAperture s.params addr = true) :
    s.portRead addr lanes = { s with readData := 0 } := by
  simp [State.portRead, h, ha]

/-- A read changes nothing but what was read. -/
theorem portRead_eq (s : State) (addr : Nat) (lanes : BitVec 4) :
    s.portRead addr lanes = { s with readData := (s.portRead addr lanes).readData } := by
  unfold State.portRead
  split
  · rfl
  · split_ifs <;> rfl

theorem rd_eq_readReg (s : State) (off : Nat) (hoff : off < 4096) (hal : off % 4 = 0) :
    s.rd off = s.readReg (regAt s.params off) := by
  rw [State.rd, portRead_of_reached _ _ _ _ (reached_of_aligned _ _ hoff hal)]

theorem wr_eq_writeReg (s : State) (off : Nat) (v : Word) (hr : s.rst = false) (hoff : off < 4096)
    (hal : off % 4 = 0) : s.wr off v = s.writeReg v (regAt s.params off) :=
  portWrite_of_reached _ _ _ _ _ hr (reached_of_aligned _ _ hoff hal)

/-- The registers that ignore writes (R28, R41, R43). -/
def Reg.fixed : Reg → Bool
  | .id | .param | .cmd | .errinfo | .rlatch | .blkdone | .dout0 | .dout1 | .dout2 | .dout3 | .stab _
  | .reserved => true
  | .ctrl | .status | .rounds | .keyaddr | .keylen | .src | .dst | .len | .din0 | .din1 | .din2 | .din3 => false

theorem writeReg_of_fixed (s : State) (v : Word) (x : Reg) (h : x.fixed = true) : s.writeReg v x = s := by
  cases x
  case ctrl | status | rounds | keyaddr | keylen | src | dst | len | din0 | din1 | din2 | din3 => cases h
  all_goals rfl

/-- A write to such a register changes nothing, whether rst is asserted or not. -/
theorem wr_of_fixed (s : State) (off : Nat) (v : Word) (hoff : off < 4096) (hal : off % 4 = 0)
    (h : (regAt s.params off).fixed = true) : s.wr off v = s := by
  cases hr : s.rst with
  | true => simp [State.wr, State.portWrite, hr]
  | false => rw [wr_eq_writeReg s off v hr hoff hal, writeReg_of_fixed s v _ h]

/-- The offset of a register (R23). -/
def Reg.offset : Reg → Nat
  | .id => 0x000
  | .param => 0x004
  | .ctrl => 0x008
  | .status => 0x00C
  | .cmd => 0x010
  | .errinfo => 0x014
  | .rounds => 0x018
  | .rlatch => 0x01C
  | .keyaddr => 0x020
  | .keylen => 0x024
  | .src => 0x028
  | .dst => 0x02C
  | .len => 0x030
  | .blkdone => 0x034
  | .din0 => 0x040
  | .din1 => 0x044
  | .din2 => 0x048
  | .din3 => 0x04C
  | .dout0 => 0x050
  | .dout1 => 0x054
  | .dout2 => 0x058
  | .dout3 => 0x05C
  | .stab k => 0x400 + 4 * k
  | .reserved => 0x038

/-- Every register but a reserved one stands at its own offset, and at no other. -/
theorem offset_of_regAt (p : Params) (off : Nat) (x : Reg) (hal : off % 4 = 0) (hx : x ≠ .reserved)
    (h : regAt p off = x) : off = x.offset := by
  subst h
  unfold regAt at hx ⊢
  split_ifs at hx ⊢ with hwin hk
  · simp only [Reg.offset]; omega
  · exact absurd rfl hx
  · split at hx
    rotate_right
    · exact absurd rfl hx
    all_goals rfl

/-- The table window (R40). -/
theorem regAt_window (p : Params) (k : Nat) :
    regAt p (0x400 + 4 * k) = if k < p.tMax then .stab k else .reserved := by
  simp [regAt]

end Sys2Proof.Machine
end

section
/-! SUPPORT. The place of the running command, `State.Positioned` of Safety.lean, by the phase; every engine step keeps
it by itself, whatever else holds of the state. -/

namespace Sys2Proof.Machine

/-! What decides each clause of the place. -/

theorem State.Expanding.congr {s t : State} (h : s.Expanding) (hp : t.params = s.params)
    (hlk : t.hidden.lk = s.hidden.lk) : t.Expanding :=
  ⟨hlk ▸ h.cmd, by rw [hlk, hp]; exact h.keylen, by rw [hlk, hp]; exact h.rounds,
    by rw [hlk, hp]; exact h.range⟩

theorem State.Blocking.congr {s t : State} (h : s.Blocking) (hlk : t.hidden.lk = s.hidden.lk)
    (hkey : t.status.keyvalid = s.status.keyvalid) : t.Blocking :=
  ⟨hlk ▸ h.cmd, hkey ▸ h.key⟩

/-- BLKDONE has to count the finished blocks anew. -/
theorem State.Buffering.congr {s t : State} (h : s.Buffering) (hp : t.params = s.params)
    (hlk : t.hidden.lk = s.hidden.lk) (hkey : t.status.keyvalid = s.status.keyvalid)
    (hcount : t.blkdone = BitVec.ofNat 32 t.hidden.bsp.k) : t.Buffering :=
  ⟨hlk ▸ h.cmd, hkey ▸ h.key, hlk ▸ h.whole, by rw [hlk, hp]; exact h.source, by rw [hlk, hp]; exact h.target,
    hcount⟩

theorem State.InBlock.congr {s t : State} (h : s.InBlock) (hp : t.params = s.params)
    (hlk : t.hidden.lk = s.hidden.lk) (hkey : t.status.keyvalid = s.status.keyvalid)
    (hk : t.hidden.bsp.k = s.hidden.bsp.k) (hblk : t.blkdone = s.blkdone) : t.InBlock :=
  ⟨h.toBuffering.congr hp hlk hkey (by rw [hblk, hk]; exact h.counted), by rw [hlk, hk]; exact h.block⟩

theorem State.HoldsSchedule.congr {s t : State} {r : Nat} (h : s.HoldsSchedule r) (hp : t.params = s.params)
    (htab : t.table = s.table) : t.HoldsSchedule r := by
  unfold State.HoldsSchedule
  rw [hp, htab]
  exact h

/-! `State.Positioned` at each place of the engine. -/

section
variable {s : State}

theorem positioned_idle (hp : s.phase = .idle) : s.Positioned := by simp only [State.Positioned, hp]

theorem positioned_check (hp : s.phase = .check) :
    s.Positioned ↔ (∃ i, decode s.hidden.lk.cmd = .ok i) ∧ s.blkdone = 0 := by
  simp only [State.Positioned, hp]

theorem positioned_fetch (hp : s.phase = .fetch) :
    s.Positioned ↔ s.Expanding ∧ s.hidden.kse.key.length < s.hidden.lk.keylen.toNat := by
  simp only [State.Positioned, hp]

theorem positioned_init (hp : s.phase = .init) :
    s.Positioned ↔ s.Expanding ∧ s.hidden.kse.key.length = s.hidden.lk.keylen.toNat := by
  simp only [State.Positioned, hp]

theorem positioned_mix (hp : s.phase = .mix) :
    s.Positioned ↔ s.Expanding ∧ s.status.keyvalid = false ∧ s.Mixing ∧
      s.hidden.kse.s < mixSteps s.hidden.kse.l.length (tableWords s.hidden.lk.r) := by
  simp only [State.Positioned, hp]

theorem positioned_commit (hp : s.phase = .commit) :
    s.Positioned ↔ s.Expanding ∧ s.status.keyvalid = false ∧ s.HoldsSchedule s.hidden.lk.r := by
  simp only [State.Positioned, hp]

theorem positioned_read (hp : s.phase = .read) :
    s.Positioned ↔ s.InBlock ∧ s.hidden.bsp.inp.length < Config.blockBytes := by
  simp only [State.Positioned, hp]

theorem positioned_whiten (hp : s.phase = .whiten) :
    s.Positioned ↔ s.Blocking ∨ (s.InBlock ∧ s.hidden.bsp.inp.length = Config.blockBytes) := by
  simp only [State.Positioned, hp]

theorem positioned_round (hp : s.phase = .round) :
    s.Positioned ↔ (s.Blocking ∨ s.InBlock) ∧ 1 ≤ s.hidden.rte.i ∧ s.hidden.rte.i ≤ s.r := by
  simp only [State.Positioned, hp]

theorem positioned_deliver (hp : s.phase = .deliver) : s.Positioned ↔ s.Blocking ∨ s.InBlock := by
  simp only [State.Positioned, hp]

theorem positioned_write (hp : s.phase = .write) :
    s.Positioned ↔ s.InBlock ∧ s.hidden.lk.writesMem = true ∧ s.hidden.bsp.out.length = Config.blockBytes ∧
      s.hidden.bsp.m < Config.blockBytes := by
  simp only [State.Positioned, hp]

theorem positioned_sink (hp : s.phase = .offer ∨ s.phase = .hold) :
    s.Positioned ↔ s.InBlock ∧ s.hidden.lk.streams = true ∧ s.hidden.bsp.out.length = Config.blockBytes := by
  obtain hp | hp := hp <;> simp only [State.Positioned, hp]

theorem positioned_finish (hp : s.phase = .finish) :
    s.Positioned ↔ decode s.hidden.lk.cmd = .ok .expand ∨ (s.Buffering ∧ s.hidden.bsp.k = s.hidden.lk.blocks) := by
  simp only [State.Positioned, hp]

end

/-- The place is decided by these fields. -/
theorem State.Positioned.congr {s t : State} (h : s.Positioned) (hparams : t.params = s.params)
    (hphase : t.phase = s.phase) (hhidden : t.hidden = s.hidden) (hkey : t.status.keyvalid = s.status.keyvalid)
    (hblk : t.blkdone = s.blkdone) (htab : t.table = s.table) (hr : t.r = s.r) : t.Positioned := by
  have hlk : t.hidden.lk = s.hidden.lk := congrArg Hidden.lk hhidden
  have hexp : s.Expanding → t.Expanding := fun hx => hx.congr hparams hlk
  have hblock : s.Blocking → t.Blocking := fun hx => hx.congr hlk hkey
  have hin : s.InBlock → t.InBlock := fun hx => hx.congr hparams hlk hkey (by rw [hhidden]) hblk
  have hmixing : t.mixing = s.mixing := by simp only [State.mixing, hhidden, htab]
  unfold State.Positioned at h ⊢
  rw [hphase]
  cases hs : s.phase <;> rw [hs] at h <;> dsimp only at h ⊢
  case check => rw [hhidden, hblk]; exact h
  case fetch | init => rw [hhidden]; exact h.imp_left hexp
  case mix =>
    obtain ⟨hx, hk, hmix, hlt⟩ := h
    rw [hhidden]
    refine ⟨hexp hx, hkey.trans hk, ?_, hlt⟩
    unfold State.Mixing
    rw [hhidden, hparams, hmixing]
    exact hmix
  case commit =>
    obtain ⟨hx, hk, hold⟩ := h
    rw [hhidden]
    exact ⟨hexp hx, hkey.trans hk, hold.congr hparams htab⟩
  case read | write | offer | hold => rw [hhidden]; exact h.imp_left hin
  case whiten => rw [hhidden]; exact h.imp hblock (And.imp_left hin)
  case round => rw [hhidden, hr]; exact h.imp_left (Or.imp hblock hin)
  case deliver => exact h.imp hblock hin
  case finish =>
    have hbuf : s.Buffering → t.Buffering := fun hx =>
      hx.congr hparams hlk hkey (by rw [hblk, hhidden]; exact hx.counted)
    rw [hhidden]
    exact h.imp_right (And.imp_left hbuf)

/-! From the checks of R215 to the first place after them. -/

theorem expanding_of_checks (s : State) (hcmd : decode s.hidden.lk.cmd = .ok .expand)
    (h : expandChecks s = none) : s.Expanding := by
  obtain ⟨hpos, hrange⟩ := range_of_expandChecks s h
  unfold expandChecks at h
  split_ifs at h with _ hlong hrounds
  obtain ⟨hzero, hmax⟩ := not_or.1 hrounds
  refine ⟨hcmd, ⟨hpos, Nat.le_of_not_lt hlong⟩, ⟨?_, Nat.le_of_not_lt hmax⟩, hrange⟩
  exact Nat.pos_of_ne_zero fun h0 => hzero (BitVec.eq_of_toNat_eq h0)

theorem keyvalid_of_blockChecks (s : State) (h : blockChecks s = none) : s.status.keyvalid = true := by
  unfold blockChecks at h
  split_ifs at h with hk
  exact hk

/-- Both kinds of buffer checks ask for whole blocks and for a table. -/
theorem whole_keyvalid_of_checks (s : State) (m i d : Bool) (h : checksOf (bufferCommand m i d) s = none) :
    s.hidden.lk.len.toNat % Config.blockBytes = 0 ∧ s.status.keyvalid = true := by
  rw [checksOf_bufferCommand_eq] at h
  cases hs : m || i <;> simp only [hs, if_true, Bool.false_eq_true, if_false] at h
  · unfold copyChecks at h
    split_ifs at h with hw _ _ _ hk
    exact ⟨by simpa [wholeBlocks] using hw, by simpa using hk⟩
  · unfold sourceChecks at h
    split_ifs at h with hw _ hk
    exact ⟨by simpa [wholeBlocks] using hw, by simpa using hk⟩

/-- The range that a copy command's checks have compared is the one it writes. -/
theorem target_of_checks (s : State) (m i d : Bool) (hcmd : decode s.hidden.lk.cmd = .ok (bufferCommand m i d))
    (hc : checksOf (bufferCommand m i d) s = none) (hi : s.hidden.lk.inPlace = false)
    (hm : s.hidden.lk.streams = false) :
    s.hidden.lk.dst.toNat + s.hidden.lk.len.toNat ≤ 2 ^ s.params.addrW := by
  have hmodes := modes_of_bufferCommand _ m i d hcmd
  have hi' : i = false := (congrArg Modes.inPlace hmodes).symm.trans hi
  have hm' : m = false := (congrArg Modes.stream hmodes).symm.trans hm
  subst hi' hm'
  rw [checksOf_bufferCommand_eq] at hc
  exact (ranges_of_copyChecks s hc).2

theorem source_of_checks (s : State) (m i d : Bool) (hc : checksOf (bufferCommand m i d) s = none) :
    s.hidden.lk.src.toNat + s.hidden.lk.len.toNat ≤ 2 ^ s.params.addrW := by
  rw [checksOf_bufferCommand_eq] at hc
  cases hs : m || i <;> simp only [hs, if_true, Bool.false_eq_true, if_false] at hc
  · exact (ranges_of_copyChecks s hc).1
  · exact range_of_sourceChecks s hc

/-- A buffer command between its blocks stands before the next one, or before its completion (R170). -/
theorem positioned_between_blocks {s : State} (h : s.Buffering) (hinp : s.hidden.bsp.inp = [])
    (hk : s.hidden.bsp.k ≤ s.hidden.lk.blocks)
    (hphase : s.phase = if s.hidden.bsp.k < s.hidden.lk.blocks then .read else .finish) : s.Positioned := by
  split_ifs at hphase with hlt
  · exact (positioned_read hphase).2 ⟨⟨h, hlt⟩, by rw [hinp]; decide⟩
  · exact (positioned_finish hphase).2 (.inr ⟨h, by omega⟩)

/-! What each step of the engine keeps. -/

namespace State.Positioned

theorem startOf {s : State} (i : Instr) (hcmd : decode s.hidden.lk.cmd = .ok i) (hc : checksOf i s = none)
    (hblk : s.blkdone = 0) : (startOf i s).Positioned := by
  obtain rfl | ⟨d, rfl⟩ | ⟨m, p, d, rfl⟩ := instr_kinds i
  · have hx : s.Expanding := expanding_of_checks s hcmd hc
    exact (positioned_fetch rfl).2 ⟨hx.congr rfl rfl, hx.keylen.1⟩
  · have hkey : s.status.keyvalid = true := by cases d <;> exact keyvalid_of_blockChecks s hc
    cases d <;> exact (positioned_whiten rfl).2 (.inl ⟨⟨_, hcmd⟩, hkey⟩)
  · rw [startOf_bufferCommand]
    obtain ⟨hwhole, hkey⟩ := whole_keyvalid_of_checks s m p d hc
    exact positioned_between_blocks ⟨⟨d, p, m, hcmd⟩, hkey, hwhole, fun _ => source_of_checks s m p d hc,
      fun hi hs _ => target_of_checks s m p d hcmd hc hi hs, hblk⟩ rfl (Nat.zero_le _) rfl

theorem answered {s : State} (h : s.Positioned) (e : PortEvent) (n : Nat) : ((s.setFree n).note e).Positioned :=
  h.congr rfl rfl rfl rfl rfl rfl rfl

theorem takeKeyByte {s : State} (h : s.Positioned) (hp : s.phase = .fetch) (b : Byte) :
    (takeKeyByte b s).Positioned := by
  obtain ⟨hx, hlt⟩ := (positioned_fetch hp).1 h
  by_cases hmore : s.hidden.kse.key.length + 1 < s.hidden.lk.keylen.toNat
  · exact (positioned_fetch (if_pos hmore)).2 ⟨hx.congr rfl rfl, by simpa [Machine.takeKeyByte] using hmore⟩
  · refine (positioned_init (if_neg hmore)).2 ⟨hx.congr rfl rfl, ?_⟩
    simp only [Machine.takeKeyByte, List.length_append, List.length_singleton]
    omega

theorem fetchStep {s t : State} (h : s.Positioned) (hp : s.phase = .fetch) (ht : fetchStep s = .next t) :
    t.Positioned := by
  obtain ⟨-, ⟨-, rfl⟩ | ⟨-, b, n, rfl⟩⟩ := memRead_cases _ _ _ _ ht
  · exact positioned_idle rfl
  · exact (h.answered _ n).takeKeyByte hp b

theorem initStep {s : State} (h : s.Positioned) (hp : s.phase = .init) : (initStep s).Positioned := by
  obtain ⟨hx, hlen⟩ := (positioned_init hp).1 h
  have hbytes := hx.keylen
  rw [← hlen] at hbytes
  refine (positioned_mix rfl).2 ⟨hx.congr rfl rfl, rfl, ?_, by simp [Machine.initStep, mixSteps, tableWords]⟩
  exact ⟨s.hidden.kse.key, s.freeTail (tableWords s.hidden.lk.r), hbytes.1, hbytes.2, length_keyPack _, hlen, rfl⟩

theorem mixPhaseStep {s : State} (h : s.Positioned) (hp : s.phase = .mix) : (mixPhaseStep s).Positioned := by
  obtain ⟨hx, hkey, ⟨key, rest, hpos, hmax, hwords, hlen, hmix⟩, hlt⟩ := (positioned_mix hp).1 h
  have hnext : (Machine.mixPhaseStep s).mixing = mixTimes (tableWords s.hidden.lk.r) (keyWords key.length)
      (s.hidden.kse.s + 1) (mixStart (keyInit s.hidden.lk.r ++ rest) (keyPack key)) := by
    rw [mixTimes_succ, ← hmix, ← hwords]
    rfl
  have hwords' : (Machine.mixPhaseStep s).hidden.kse.l.length = keyWords key.length :=
    (length_l_mixStep (tableWords s.hidden.lk.r) s.hidden.kse.l.length s.mixing).trans hwords
  by_cases hmore : s.hidden.kse.s + 1 < mixSteps s.hidden.kse.l.length (tableWords s.hidden.lk.r)
  · refine (positioned_mix (if_pos hmore)).2 ⟨hx.congr rfl rfl, hkey, ⟨key, rest, hpos, hmax, hwords', hlen, hnext⟩, ?_⟩
    rw [hwords', ← hwords]
    exact hmore
  · refine (positioned_commit (if_neg hmore)).2 ⟨hx.congr rfl rfl, hkey, key, hpos, hmax, ?_⟩
    have hlast : s.hidden.kse.s + 1 = mixSteps (keyWords key.length) (tableWords s.hidden.lk.r) := by
      rw [← hwords]; omega
    have htab : (Machine.mixPhaseStep s).table = keySchedule key s.hidden.lk.r ++ rest := by
      rw [← table_mixTimes_keyInit, ← hlast, ← hnext]
      rfl
    rw [htab]
    exact List.take_left' (length_keySchedule _ _)

theorem takeSourceByte {s : State} (h : s.Positioned) (hp : s.phase = .read) (b : Byte) :
    (takeSourceByte b s).Positioned := by
  obtain ⟨hb, hlt⟩ := (positioned_read hp).1 h
  have hb' : (Machine.takeSourceByte b s).InBlock := hb.congr rfl rfl rfl rfl rfl
  by_cases hmore : s.hidden.bsp.inp.length + 1 < Config.blockBytes
  · exact (positioned_read (if_pos hmore)).2 ⟨hb', by simpa [Machine.takeSourceByte] using hmore⟩
  · refine (positioned_whiten (if_neg hmore)).2 (.inr ⟨hb', ?_⟩)
    simp only [Machine.takeSourceByte, setBsp_hidden, List.length_append, List.length_singleton]
    omega

theorem readStep {s t : State} (h : s.Positioned) (hp : s.phase = .read) (ht : readStep s = .next t) :
    t.Positioned := by
  obtain ⟨-, ⟨-, rfl⟩ | ⟨-, b, n, rfl⟩⟩ := memRead_cases _ _ _ _ ht
  · exact positioned_idle rfl
  · exact (h.answered _ n).takeSourceByte hp b

/-- A step of the RTE goes on with a round the command has, or delivers. -/
theorem of_rteStep {s t : State} (h : s.Blocking ∨ s.InBlock) (hparams : t.params = s.params)
    (hlk : t.hidden.lk = s.hidden.lk) (hkey : t.status.keyvalid = s.status.keyvalid)
    (hbsp : t.hidden.bsp = s.hidden.bsp) (hblk : t.blkdone = s.blkdone)
    (hphase : t.phase = .deliver ∨ (t.phase = .round ∧ 1 ≤ t.hidden.rte.i ∧ t.hidden.rte.i ≤ t.r)) :
    t.Positioned := by
  have hunit : t.Blocking ∨ t.InBlock :=
    h.imp (fun hx => hx.congr hlk hkey) fun hx => hx.congr hparams hlk hkey (by rw [hbsp]) hblk
  obtain hp | ⟨hp, hi⟩ := hphase
  · exact (positioned_deliver hp).2 hunit
  · exact (positioned_round hp).2 ⟨hunit, hi⟩

theorem whitenStep {s : State} (h : s.Positioned) (hp : s.phase = .whiten) : (whitenStep s).Positioned := by
  have hunit := ((positioned_whiten hp).1 h).imp_right And.left
  unfold Machine.whitenStep
  by_cases hr : s.r = 0
  · cases s.hidden.lk.decrypts <;> exact of_rteStep hunit rfl rfl rfl rfl rfl (.inl (if_pos hr))
  · have hpos : 1 ≤ s.r := by omega
    cases s.hidden.lk.decrypts
    · exact of_rteStep hunit rfl rfl rfl rfl rfl (.inr ⟨if_neg hr, Nat.le_refl 1, hpos⟩)
    · exact of_rteStep hunit rfl rfl rfl rfl rfl (.inr ⟨if_neg hr, hpos, Nat.le_refl s.r⟩)

theorem roundStep {s : State} (h : s.Positioned) (hp : s.phase = .round) : (roundStep s).Positioned := by
  obtain ⟨hunit, -, hhigh⟩ := (positioned_round hp).1 h
  unfold Machine.roundStep
  cases s.hidden.lk.decrypts <;> refine of_rteStep hunit rfl rfl rfl rfl rfl ?_
  · by_cases hmore : s.hidden.rte.i < s.r
    · exact .inr ⟨if_pos hmore, (Nat.le_add_left 1 _).trans_eq (if_pos hmore).symm, (if_pos hmore).trans_le hmore⟩
    · exact .inl (if_neg hmore)
  · by_cases hmore : 1 < s.hidden.rte.i
    · have hlow : 1 ≤ s.hidden.rte.i - 1 := by omega
      exact .inr ⟨if_pos hmore, hlow.trans_eq (if_pos hmore).symm,
        (if_pos hmore).trans_le ((Nat.sub_le _ 1).trans hhigh)⟩
    · exact .inl (if_neg hmore)

theorem deliverStep {s : State} (h : s.Positioned) (hp : s.phase = .deliver) : (deliverStep s).Positioned := by
  have hunit := (positioned_deliver hp).1 h
  unfold Machine.deliverStep
  split_ifs with hbuf
  · obtain ⟨⟨d, hcmd⟩, -⟩ | hb := hunit
    · rw [isBuffer_of_blockCommand _ d hcmd] at hbuf; cases hbuf
    · cases hw : s.hidden.lk.writesMem
      · refine (positioned_sink (.inl (if_neg (by simp [hw])))).2
          ⟨hb.congr rfl rfl rfl rfl rfl, ?_, length_bytesOfBlock _⟩
        simp only [Latches.writesMem, Bool.or_eq_false_iff, Bool.not_eq_false'] at hw
        exact hw.2
      · exact (positioned_write (if_pos hw)).2
          ⟨hb.congr rfl rfl rfl rfl rfl, hw, length_bytesOfBlock _, (by decide : 0 < Config.blockBytes)⟩
  · exact positioned_idle rfl

theorem blockDone {s : State} (h : s.InBlock) : s.blockDone.Positioned :=
  positioned_between_blocks (h.toBuffering.congr rfl rfl rfl rfl) rfl h.block rfl

theorem wroteByte {s : State} (h : s.Positioned) (hp : s.phase = .write) : (wroteByte s).Positioned := by
  obtain ⟨hb, hw, hout, -⟩ := (positioned_write hp).1 h
  unfold Machine.wroteByte
  split_ifs with hmore hstream
  · refine (positioned_write ?_).2 ⟨hb.congr rfl rfl rfl rfl rfl, hw, hout, hmore⟩
    exact hp
  · exact (positioned_sink (.inl rfl)).2 ⟨hb.congr rfl rfl rfl rfl rfl, hstream, hout⟩
  · exact blockDone hb

theorem writeStep {s t : State} (h : s.Positioned) (hp : s.phase = .write) (ht : writeStep s = .next t) :
    t.Positioned := by
  obtain ⟨-, ⟨-, rfl⟩ | ⟨-, b, n, rfl⟩⟩ := memWrite_cases _ _ _ _ _ ht
  · exact positioned_idle rfl
  · exact wroteByte (h.congr rfl rfl rfl rfl rfl rfl rfl) hp

theorem holdStep {s : State} (h : s.Positioned) (hp : s.phase = .hold) : (holdStep s).Positioned := by
  obtain ⟨hb, -, -⟩ := (positioned_sink (.inr hp)).1 h
  unfold Machine.holdStep
  split
  · split_ifs
    · exact (blockDone (hb.congr rfl rfl rfl rfl rfl)).congr rfl rfl rfl rfl rfl rfl rfl
    · exact h
  · exact h

theorem engineStep {s t : State} (h : s.Positioned) (ht : engineStep s = .next t) : t.Positioned := by
  obtain ⟨-, rfl⟩ | ⟨hp, (⟨c, i, rfl, -⟩ | ⟨i, hcmd, hc, rfl⟩)⟩ | ⟨hp, ht⟩ | ⟨hp, rfl⟩ | ⟨hp, rfl⟩ | ⟨hp, rfl⟩ |
    ⟨hp, ht⟩ | ⟨hp, rfl⟩ | ⟨hp, rfl⟩ | ⟨hp, rfl⟩ | ⟨hp, ht⟩ | ⟨hp, rfl⟩ | ⟨hp, rfl⟩ | ⟨-, rfl⟩ :=
    engineStep_cases s t ht
  · exact h
  · exact positioned_idle rfl
  · exact startOf i hcmd hc ((positioned_check hp).1 h).2
  · exact h.fetchStep hp ht
  · exact h.initStep hp
  · exact h.mixPhaseStep hp
  · exact (positioned_finish rfl).2 (.inl ((positioned_commit hp).1 h).1.cmd)
  · exact h.readStep hp ht
  · exact h.whitenStep hp
  · exact h.roundStep hp
  · exact h.deliverStep hp
  · exact h.writeStep hp ht
  · obtain ⟨hb, hstream, hout⟩ := (positioned_sink (.inl hp)).1 h
    exact (positioned_sink (.inr rfl)).2 ⟨hb.congr rfl rfl rfl rfl rfl, hstream, hout⟩
  · exact h.holdStep hp
  · exact positioned_idle rfl

/-- A CMD write puts an accepted command before its checks. -/
theorem writeCmd {s : State} (h : s.Positioned) (w : Word) : (s.writeCmd w).Positioned := by
  obtain ⟨-, hw⟩ | ⟨-, ⟨i, hi⟩, hw⟩ | ⟨-, -, hw⟩ := writeCmd_cases w s <;> rw [hw]
  · exact h.congr rfl rfl rfl rfl rfl rfl rfl
  · exact (positioned_check rfl).2 ⟨⟨i, hi⟩, rfl⟩
  · exact positioned_idle rfl

end State.Positioned

end Sys2Proof.Machine
end

section
/-! PROOF. The host's side of the registers, which the engine neither looks at nor changes: the operand registers,
CTRL.IE and CMDLOST (R22, R44, R201). Changing it before a run of the engine or after it is the same. -/

namespace Sys2Proof.Machine

/-- The host's side. -/
structure HostSide where
  ie : Bool
  cmdlost : Bool
  rounds : Word
  keyaddr : Word
  keylen : Word
  src : Word
  dst : Word
  len : Word
  din : Block

def State.hostSide (s : State) : HostSide :=
  ⟨s.ie, s.status.cmdlost, s.rounds, s.keyaddr, s.keylen, s.src, s.dst, s.len, s.din⟩

def State.setHostSide (x : HostSide) (s : State) : State :=
  { s with
    ie := x.ie, status := { s.status with cmdlost := x.cmdlost }, rounds := x.rounds, keyaddr := x.keyaddr
    keylen := x.keylen, src := x.src, dst := x.dst, len := x.len, din := x.din }

/-- The machine with the host's side changed by `f`. -/
def State.mapHostSide (f : HostSide → HostSide) (s : State) : State := s.setHostSide (f s.hostSide)

/-- What a register write stores on the host's side. -/
def HostSide.written (v : Word) (x : HostSide) : Reg → HostSide
  | .ctrl => { x with ie := v.getLsbD 0 }
  | .rounds => { x with rounds := v }
  | .keyaddr => { x with keyaddr := v }
  | .keylen => { x with keylen := v }
  | .src => { x with src := v }
  | .dst => { x with dst := v }
  | .len => { x with len := v }
  | .din0 => { x with din := { x.din with a := v } }
  | .din1 => { x with din := { x.din with b := v } }
  | .din2 => { x with din := { x.din with c := v } }
  | .din3 => { x with din := { x.din with d := v } }
  | _ => x

/-- A register write reaches the host's side only, but for DONE. -/
theorem writeReg_eq_mapHostSide (s : State) (v : Word) (x : Reg) (h : x ≠ .status) :
    s.writeReg v x = s.mapHostSide fun y => y.written v x := by
  cases x
  case status => exact absurd rfl h
  all_goals rfl

theorem dropCommand_eq_mapHostSide (s : State) :
    s.dropCommand = s.mapHostSide fun y => { y with cmdlost := true } := rfl

theorem mapNext_ite (c : Prop) [Decidable c] (x y : Result) (k : State → State) :
    (if c then x else y).mapNext k = if c then x.mapNext k else y.mapNext k := by
  split_ifs <;> rfl

section
variable (f : HostSide → HostSide)

theorem seeByte_mapHostSide (w : List Byte) (a : Nat) (k : Byte → State → State)
    (hk : ∀ b t, k b (t.mapHostSide f) = (k b t).mapHostSide f) (s : State) :
    (s.mapHostSide f).seeByte w a k = (s.seeByte w a k).mapHostSide f := by
  cases w with
  | nil => exact hk _ s
  | cons b bs => exact hk _ (s.setFree (s.freeIdx + 1))

theorem putByte_mapHostSide (w : List Byte) (a : Nat) (v : Byte) (s : State) :
    (s.mapHostSide f).putByte w a v = (s.putByte w a v).mapHostSide f := by
  cases w <;> rfl

theorem memRead_mapHostSide (a : Nat) (k : Byte → State → State)
    (hk : ∀ b t, k b (t.mapHostSide f) = (k b t).mapHostSide f) (s : State) :
    (s.mapHostSide f).memRead a k = (s.memRead a k).mapNext (State.mapHostSide f) := by
  have hsee := seeByte_mapHostSide f (s.hostBytes a) a (fun b t => k b (t.note (.read a (some b))))
    (fun b t => hk b (t.note (.read a (some b)))) s
  simp only [State.memRead, mapNext_ite]
  exact ite_congr rfl (fun _ => rfl) fun _ => ite_congr rfl (fun _ => rfl) fun _ => congrArg Host.Outcome.next hsee

theorem memWrite_mapHostSide (a : Nat) (v : Byte) (k : State → State)
    (hk : ∀ t, k (t.mapHostSide f) = (k t).mapHostSide f) (s : State) :
    (s.mapHostSide f).memWrite a v k = (s.memWrite a v k).mapNext (State.mapHostSide f) := by
  have hput : k (((s.mapHostSide f).putByte ((s.hostBytes a).take 1) a v).note (.write a v true)) =
      (k ((s.putByte ((s.hostBytes a).take 1) a v).note (.write a v true))).mapHostSide f := by
    rw [putByte_mapHostSide]
    exact hk ((s.putByte _ a v).note (.write a v true))
  have hbytes : (s.mapHostSide f).hostBytes a = s.hostBytes a := rfl
  simp only [State.memWrite, mapNext_ite, hbytes]
  exact ite_congr rfl (fun _ => rfl) fun _ => ite_congr rfl (fun _ => rfl) fun _ => congrArg Host.Outcome.next hput

theorem checkStep_mapHostSide (s : State) : checkStep (s.mapHostSide f) = (checkStep s).mapHostSide f := by
  have hc : ∀ i, checksOf i (s.mapHostSide f) = checksOf i s := fun i => by cases i <;> rfl
  have hl : (s.mapHostSide f).hidden.lk.cmd = s.hidden.lk.cmd := rfl
  simp only [checkStep, hc, hl]
  cases decode s.hidden.lk.cmd with
  | error e => rfl
  | ok i =>
    simp only
    cases checksOf i s with
    | some e => rfl
    | none => cases i <;> rfl

theorem holdStep_mapHostSide (s : State) : holdStep (s.mapHostSide f) = (holdStep s).mapHostSide f := by
  have hs : (s.mapHostSide f).sinkOut = s.sinkOut := rfl
  simp only [holdStep, hs]
  cases s.sinkOut with
  | none => rfl
  | some chunk =>
    simp only [apply_ite (State.mapHostSide f)]
    refine ite_congr rfl (fun _ => ?_) fun _ => rfl
    simp only [State.mapHostSide, State.setHostSide, State.blockDone, State.toBlock]
    rfl

/-- One engine step neither looks at the host's side nor changes it. -/
theorem engineStep_mapHostSide (s : State) :
    engineStep (s.mapHostSide f) = (engineStep s).mapNext (State.mapHostSide f) := by
  have hph : (s.mapHostSide f).phase = s.phase := rfl
  unfold engineStep
  rw [hph]
  cases s.phase
  case idle | init | mix | commit | offer | finish => rfl
  case check => exact congrArg Host.Outcome.next (checkStep_mapHostSide f s)
  case fetch => exact memRead_mapHostSide f _ takeKeyByte (fun _ _ => rfl) s
  case read => exact memRead_mapHostSide f _ takeSourceByte (fun _ _ => rfl) s
  case write =>
    refine memWrite_mapHostSide f _ _ wroteByte (fun t => ?_) s
    simp only [wroteByte, apply_ite (State.mapHostSide f)]; rfl
  case hold => exact congrArg Host.Outcome.next (holdStep_mapHostSide f s)
  case whiten =>
    refine congrArg Host.Outcome.next ?_
    simp only [whitenStep, apply_ite (State.mapHostSide f)]; rfl
  case round =>
    refine congrArg Host.Outcome.next ?_
    simp only [roundStep, apply_ite (State.mapHostSide f)]; rfl
  case deliver =>
    refine congrArg Host.Outcome.next ?_
    simp only [deliverStep, apply_ite (State.mapHostSide f)]; rfl

theorem run_mapHostSide (n : Nat) (s : State) :
    run n (s.mapHostSide f) = (run n s).mapNext (State.mapHostSide f) :=
  run_commutes (State.mapHostSide f) (fun _ => rfl) (engineStep_mapHostSide f) n s

end

/-- Settles O8: an operand register is on the host's side, which a run of the engine commutes with. -/
theorem operandWritesDoNotReachTheRunningCommand : Obligations.OperandWritesDoNotReachTheRunningCommand := by
  refine ⟨fun w s => rfl, fun n s v x hx => ?_⟩
  have hstatus : x ≠ .status := by rintro rfl; simp at hx
  have hwrite : ∀ t : State, t.writeReg v x = t.mapHostSide fun y => y.written v x :=
    fun t => writeReg_eq_mapHostSide t v x hstatus
  simp only [hwrite]
  exact run_mapHostSide _ n s

end Sys2Proof.Machine
end

section
/-! PROOF. State.Inv is kept by every step of the whole machine. It is taken in three parts: what the running command
does not decide (`State.Store`), the flags of a running command (`State.Running`), and its place
(`State.Positioned`). -/

namespace Sys2Proof.Machine

/-- The parts of State.Inv that hold whether a command runs or not: memory, the table storage and its context. -/
structure State.Store (s : State) : Prop where
  params : s.params.wellFormed = true
  memory : s.mem.wf = true
  inside : ∀ c ∈ s.mem, c.1 < 2 ^ s.params.addrW
  storage : s.table.length = s.params.tMax
  context : s.status.keyvalid = true → 1 ≤ s.r ∧ s.r ≤ s.params.rMax ∧ s.HoldsSchedule s.r

/-- The flags and ERRINFO while a command runs (R200). -/
structure State.Running (s : State) : Prop where
  released : s.rst = false
  busy : s.status.busy = true
  done : s.status.done = false
  err : s.status.err = false
  errcode : s.status.errcode = .noError
  errinfo : s.errinfo = 0

/-- In these phases a command runs and no chunk is on offer. -/
def Phase.working : Phase → Bool
  | .idle | .hold => false
  | .check | .fetch | .init | .mix | .commit | .read | .whiten | .round | .deliver | .write | .offer
  | .finish => true

theorem working_ite (c : Prop) [Decidable c] (p q : Phase) (hp : p.working = true) (hq : q.working = true) :
    (if c then p else q).working = true := by
  split_ifs
  · exact hp
  · exact hq

theorem ne_of_working {p : Phase} (h : p.working = true) : p ≠ .idle ∧ p ≠ .hold := by
  constructor <;> rintro rfl <;> cases h

namespace State.Store

/-- With other contents of memory inside the memory space. -/
theorem congr_mem {s t : State} (h : s.Store) (hmem : t.mem.wf = true ∧ ∀ c ∈ t.mem, c.1 < 2 ^ s.params.addrW)
    (hparams : t.params = s.params) (htab : t.table = s.table) (hr : t.r = s.r)
    (hkey : t.status.keyvalid = s.status.keyvalid) : t.Store where
  params := hparams ▸ h.params
  memory := hmem.1
  inside := hparams ▸ hmem.2
  storage := by rw [htab, hparams]; exact h.storage
  context hk := by
    obtain ⟨hlow, hhigh, hold⟩ := h.context (hkey ▸ hk)
    rw [hr, hparams]
    exact ⟨hlow, hhigh, hold.congr hparams htab⟩

theorem congr {s t : State} (h : s.Store) (hmem : t.mem = s.mem) (hparams : t.params = s.params)
    (htab : t.table = s.table) (hr : t.r = s.r) (hkey : t.status.keyvalid = s.status.keyvalid) : t.Store :=
  h.congr_mem (by rw [hmem]; exact ⟨h.memory, h.inside⟩) hparams htab hr hkey

/-- Without a table to answer for, only the size of the storage counts. -/
theorem of_keyvalid_false {s t : State} (h : s.Store) (hmem : t.mem = s.mem) (hparams : t.params = s.params)
    (hlen : t.table.length = s.params.tMax) (hkey : t.status.keyvalid = false) : t.Store where
  params := hparams ▸ h.params
  memory := hmem ▸ h.memory
  inside := by rw [hmem, hparams]; exact h.inside
  storage := by rw [hlen, hparams]
  context hk := by rw [hkey] at hk; cases hk

/-- A byte written inside the memory space. -/
theorem mem_write {s : State} (h : s.Store) (a : Nat) (b : Byte) (ha : s.inMemory a = true) :
    (s.mem.write a b).wf = true ∧ ∀ c ∈ s.mem.write a b, c.1 < 2 ^ s.params.addrW :=
  ⟨Memory.wf_write _ _ _ h.memory, Memory.write_below _ _ _ _ (of_decide_eq_true ha) h.inside⟩

theorem blockDone {s : State} (h : s.Store) : s.blockDone.Store := h.congr rfl rfl rfl rfl rfl

end State.Store

theorem State.Running.congr {s t : State} (h : s.Running) (hrst : t.rst = s.rst)
    (hstatus : t.status = { s.status with keyvalid := t.status.keyvalid }) (hinfo : t.errinfo = s.errinfo) :
    t.Running :=
  ⟨hrst ▸ h.released, hstatus ▸ h.busy, hstatus ▸ h.done, hstatus ▸ h.err, hstatus ▸ h.errcode, hinfo ▸ h.errinfo⟩

namespace State.Inv

/-! The parts of the invariant, and the invariant from its parts. -/

theorem store {s : State} (h : s.Inv) : s.Store := ⟨h.params, h.memory, h.inside, h.storage, h.context⟩

/-- While rst is asserted no command runs. -/
theorem phase_of_rst {s : State} (h : s.Inv) (hr : s.rst = true) : s.phase = .idle :=
  (congrArg State.phase (h.reset hr)).symm

theorem isRunning {s : State} (h : s.Inv) (hp : s.phase ≠ .idle) : s.Running := by
  have hbusy := h.busy.2 hp
  obtain ⟨hdone, herr⟩ := h.running hbusy
  refine ⟨?_, hbusy, hdone, herr, ?_, h.info herr⟩
  · exact Bool.eq_false_iff.2 fun hr => hp (h.phase_of_rst hr)
  · by_contra hc
    exact absurd (h.error.2 hc) (by simp [herr])

theorem of_running {s : State} (hstore : s.Store) (hrun : s.Running) (hphase : s.phase ≠ .idle)
    (hsink : s.sinkOut = if s.phase = .hold then some s.hidden.bsp.out else none) (hpos : s.Positioned) : s.Inv where
  params := hstore.params
  memory := hstore.memory
  inside := hstore.inside
  storage := hstore.storage
  busy := ⟨fun _ => hphase, fun _ => hrun.busy⟩
  running _ := ⟨hrun.done, hrun.err⟩
  error := by simp [hrun.err, hrun.errcode]
  info _ := hrun.errinfo
  sink := hsink
  quiet hp := absurd hp hphase
  context := hstore.context
  position := hpos
  reset hr := by rw [hrun.released] at hr; cases hr

/-- The end of a command with an error (R212). -/
theorem raiseError {s : State} (hstore : s.Store) (hrst : s.rst = false) (hsink : s.sinkOut = none) (code : ErrCode)
    (info : Word) (hc : code ≠ .noError) : (s.raiseError code info).Inv where
  params := hstore.params
  memory := hstore.memory
  inside := hstore.inside
  storage := hstore.storage
  busy := by simp
  running := by simp
  error := by simp [hc]
  info := by simp
  sink := hsink
  quiet _ := rfl
  context := (hstore.congr rfl rfl rfl rfl rfl : (s.raiseError code info).Store).context
  position := positioned_idle rfl
  reset hr := by rw [State.raiseError_rst, hrst] at hr; cases hr

/-- The end of a command without an error (R213), whatever it puts into DOUT. -/
theorem complete {s : State} (hstore : s.Store) (hrst : s.rst = false) (hsink : s.sinkOut = none) (y : Block) :
    State.Inv { s.complete with dout := y } where
  params := hstore.params
  memory := hstore.memory
  inside := hstore.inside
  storage := hstore.storage
  busy := by simp
  running := by simp
  error := by simp
  info _ := rfl
  sink := hsink
  quiet _ := rfl
  context := (hstore.congr rfl rfl rfl rfl rfl : State.Store { s.complete with dout := y }).context
  position := positioned_idle rfl
  reset hr := by rw [State.complete_rst, hrst] at hr; cases hr

/-! The steps of the engine. -/

/-- No chunk is on offer while the engine works. -/
theorem sinkOut_of_working {s : State} (h : s.Inv) (hp : s.phase.working = true) : s.sinkOut = none :=
  h.sink.trans (if_neg (ne_of_working hp).2)

/-- From one working phase to the next. -/
theorem goes_on {s t : State} (h : s.Inv) (hp : s.phase.working = true) (hp' : t.phase.working = true)
    (hstore : t.Store) (hpos : t.Positioned) (hrst : t.rst = s.rst)
    (hstatus : t.status = { s.status with keyvalid := t.status.keyvalid }) (hinfo : t.errinfo = s.errinfo)
    (hsink : t.sinkOut = s.sinkOut) : t.Inv := by
  refine of_running hstore ((h.isRunning (ne_of_working hp).1).congr hrst hstatus hinfo) (ne_of_working hp').1 ?_ hpos
  rw [if_neg (ne_of_working hp').2, hsink, h.sinkOut_of_working hp]

theorem startOf {s : State} (h : s.Inv) (hp : s.phase = .check) (i : Instr) (hpos : (startOf i s).Positioned) :
    (startOf i s).Inv := by
  have hw : s.phase.working = true := by rw [hp]; rfl
  obtain rfl | ⟨d, rfl⟩ | ⟨m, p, d, rfl⟩ := instr_kinds i
  · exact h.goes_on hw rfl (h.store.congr rfl rfl rfl rfl rfl) hpos rfl rfl rfl rfl
  · cases d <;> exact h.goes_on hw rfl (h.store.congr rfl rfl rfl rfl rfl) hpos rfl rfl rfl rfl
  · rw [startOf_bufferCommand] at hpos ⊢
    exact h.goes_on hw (working_ite _ _ _ rfl rfl) (h.store.congr rfl rfl rfl rfl rfl) hpos rfl rfl rfl rfl

/-- An access of a working engine that the memory answers with an error. -/
theorem bus_error {s : State} (h : s.Inv) (hp : s.phase.working = true) (e : PortEvent) (addr : Nat) :
    ((s.note e).raiseError .bus (BitVec.ofNat 32 addr)).Inv :=
  raiseError (s := s.note e) (h.store.congr rfl rfl rfl rfl rfl) (h.isRunning (ne_of_working hp).1).released
    (h.sinkOut_of_working hp) .bus _ (by decide)

/-- An access of a working engine that the memory has answered. -/
theorem answered {s : State} (h : s.Inv) (hp : s.phase.working = true) (e : PortEvent) (n : Nat) :
    ((s.setFree n).note e).Inv :=
  h.goes_on hp hp (h.store.congr rfl rfl rfl rfl rfl) (h.position.congr rfl rfl rfl rfl rfl rfl rfl) rfl rfl rfl rfl

theorem takeKeyByte {s : State} (h : s.Inv) (hp : s.phase.working = true) (b : Byte)
    (hpos : (takeKeyByte b s).Positioned) : (takeKeyByte b s).Inv :=
  h.goes_on hp (working_ite _ _ _ rfl rfl) (h.store.congr rfl rfl rfl rfl rfl) hpos rfl rfl rfl rfl

theorem fetchStep {s t : State} (h : s.Inv) (hp : s.phase = .fetch) (hpos : t.Positioned)
    (ht : fetchStep s = .next t) : t.Inv := by
  have hw : s.phase.working = true := by rw [hp]; rfl
  obtain ⟨-, ⟨-, rfl⟩ | ⟨-, b, n, rfl⟩⟩ := memRead_cases _ _ _ _ ht
  · exact h.bus_error hw _ _
  · exact (h.answered hw _ n).takeKeyByte hw b hpos

theorem takeSourceByte {s : State} (h : s.Inv) (hp : s.phase.working = true) (b : Byte)
    (hpos : (takeSourceByte b s).Positioned) : (takeSourceByte b s).Inv :=
  h.goes_on hp (working_ite _ _ _ rfl rfl) (h.store.congr rfl rfl rfl rfl rfl) hpos rfl rfl rfl rfl

theorem readStep {s t : State} (h : s.Inv) (hp : s.phase = .read) (hpos : t.Positioned)
    (ht : readStep s = .next t) : t.Inv := by
  have hw : s.phase.working = true := by rw [hp]; rfl
  obtain ⟨-, ⟨-, rfl⟩ | ⟨-, b, n, rfl⟩⟩ := memRead_cases _ _ _ _ ht
  · exact h.bus_error hw _ _
  · exact (h.answered hw _ n).takeSourceByte hw b hpos

theorem wroteByte {s : State} (h : s.Inv) (hp : s.phase = .write) (hpos : (wroteByte s).Positioned) :
    (wroteByte s).Inv := by
  have hw : s.phase.working = true := by rw [hp]; rfl
  unfold Machine.wroteByte at hpos ⊢
  split_ifs at hpos ⊢
  · exact h.goes_on hw hw (h.store.congr rfl rfl rfl rfl rfl) hpos rfl rfl rfl rfl
  · exact h.goes_on hw rfl (h.store.congr rfl rfl rfl rfl rfl) hpos rfl rfl rfl rfl
  · exact h.goes_on hw (working_ite _ _ _ rfl rfl) h.store.blockDone hpos rfl rfl rfl rfl

theorem writeStep {s t : State} (h : s.Inv) (hp : s.phase = .write) (hpos : t.Positioned)
    (ht : writeStep s = .next t) : t.Inv := by
  have hw : s.phase.working = true := by rw [hp]; rfl
  obtain ⟨hin, ⟨-, rfl⟩ | ⟨-, b, n, rfl⟩⟩ := memWrite_cases _ _ _ _ _ ht
  · exact h.bus_error hw _ _
  · refine wroteByte ?_ hp hpos
    exact h.goes_on hw hw (h.store.congr_mem (h.store.mem_write _ b hin) rfl rfl rfl rfl)
      (h.position.congr rfl rfl rfl rfl rfl rfl rfl) rfl rfl rfl rfl

/-- INIT fills the whole table storage, since r is at most R_MAX (R45, R206). -/
theorem initStep {s : State} (h : s.Inv) (hp : s.phase = .init) (hpos : (initStep s).Positioned) :
    (initStep s).Inv := by
  have hmax := ((positioned_init hp).1 h.position).1.rounds.2
  have hlen : (Machine.initStep s).table.length = s.params.tMax := by
    simp only [Machine.initStep, List.length_append, length_keyInit, length_freeTail, tableWords, Params.tMax]
    omega
  exact h.goes_on (by rw [hp]; rfl) rfl (h.store.of_keyvalid_false rfl rfl hlen rfl) hpos rfl rfl rfl rfl

theorem mixPhaseStep {s : State} (h : s.Inv) (hp : s.phase = .mix) (hpos : (mixPhaseStep s).Positioned) :
    (mixPhaseStep s).Inv := by
  obtain ⟨-, hkey, -⟩ := (positioned_mix hp).1 h.position
  have hlen : (Machine.mixPhaseStep s).table.length = s.params.tMax :=
    (length_table_mixStep (tableWords s.hidden.lk.r) s.hidden.kse.l.length s.mixing).trans h.storage
  exact h.goes_on (by rw [hp]; rfl) (working_ite _ _ _ rfl rfl) (h.store.of_keyvalid_false rfl rfl hlen hkey) hpos
    rfl rfl rfl rfl

/-- COMMIT makes valid the table that mixing has left (R135, R136). -/
theorem commitStep {s : State} (h : s.Inv) (hp : s.phase = .commit) (hpos : (commitStep s).Positioned) :
    (commitStep s).Inv := by
  obtain ⟨hx, -, hold⟩ := (positioned_commit hp).1 h.position
  have hstore : (Machine.commitStep s).Store :=
    ⟨h.params, h.memory, h.inside, h.storage, fun _ => ⟨hx.rounds.1, hx.rounds.2, hold⟩⟩
  exact h.goes_on (by rw [hp]; rfl) rfl hstore hpos rfl rfl rfl rfl

theorem whitenStep {s : State} (h : s.Inv) (hp : s.phase = .whiten) (hpos : (whitenStep s).Positioned) :
    (whitenStep s).Inv := by
  have hw : s.phase.working = true := by rw [hp]; rfl
  unfold Machine.whitenStep at hpos ⊢
  split_ifs at hpos ⊢ <;>
    exact h.goes_on hw rfl (h.store.congr rfl rfl rfl rfl rfl) hpos rfl rfl rfl rfl

theorem roundStep {s : State} (h : s.Inv) (hp : s.phase = .round) (hpos : (roundStep s).Positioned) :
    (roundStep s).Inv := by
  have hw : s.phase.working = true := by rw [hp]; rfl
  unfold Machine.roundStep at hpos ⊢
  cases hd : s.hidden.lk.decrypts <;> rw [hd] at hpos <;>
    exact h.goes_on hw (working_ite _ _ _ rfl rfl) (h.store.congr rfl rfl rfl rfl rfl) hpos rfl rfl rfl rfl

theorem deliverStep {s : State} (h : s.Inv) (hp : s.phase = .deliver) (hpos : (deliverStep s).Positioned) :
    (deliverStep s).Inv := by
  have hw : s.phase.working = true := by rw [hp]; rfl
  unfold Machine.deliverStep at hpos ⊢
  split_ifs at hpos ⊢
  · exact h.goes_on hw (working_ite _ _ _ rfl rfl) (h.store.congr rfl rfl rfl rfl rfl) hpos rfl rfl rfl rfl
  · exact complete h.store (h.isRunning (ne_of_working hw).1).released (h.sinkOut_of_working hw) _

/-- The chunk goes on offer as the engine enters the sink holding state (R53, R75). -/
theorem offerStep {s : State} (h : s.Inv) (hp : s.phase = .offer) (hpos : (offerStep s).Positioned) :
    (offerStep s).Inv :=
  of_running (h.store.congr rfl rfl rfl rfl rfl) ((h.isRunning (by simp [hp])).congr rfl rfl rfl)
    (by simp [Machine.offerStep]) rfl hpos

/-- The chunk is withdrawn as it is accepted. -/
theorem holdStep {s : State} (h : s.Inv) (hp : s.phase = .hold) (hpos : (holdStep s).Positioned) :
    (holdStep s).Inv := by
  have hrun := h.isRunning (by simp [hp])
  unfold Machine.holdStep at hpos ⊢
  split at hpos
  · rename_i chunk _
    split_ifs at hpos ⊢
    · have hwork : (s.note (.emit chunk)).blockDone.phase.working = true := working_ite _ _ _ rfl rfl
      obtain ⟨hnidle, hnhold⟩ := ne_of_working hwork
      have hstore : (s.note (.emit chunk)).blockDone.Store := State.Store.blockDone (h.store.congr rfl rfl rfl rfl rfl)
      have hrun' : (s.note (.emit chunk)).blockDone.Running := hrun.congr rfl rfl rfl
      exact of_running (hstore.congr rfl rfl rfl rfl rfl) (hrun'.congr rfl rfl rfl) hnidle (if_neg hnhold).symm hpos
    · exact h
  · exact h

theorem engineStep {s t : State} (h : s.Inv) (ht : engineStep s = .next t) : t.Inv := by
  have hpos : t.Positioned := h.position.engineStep ht
  obtain ⟨-, rfl⟩ | ⟨hp, (⟨c, i, rfl, -, hc⟩ | ⟨i, -, -, rfl⟩)⟩ | ⟨hp, ht⟩ | ⟨hp, rfl⟩ | ⟨hp, rfl⟩ | ⟨hp, rfl⟩ |
    ⟨hp, ht⟩ | ⟨hp, rfl⟩ | ⟨hp, rfl⟩ | ⟨hp, rfl⟩ | ⟨hp, ht⟩ | ⟨hp, rfl⟩ | ⟨hp, rfl⟩ | ⟨hp, rfl⟩ :=
    engineStep_cases s t ht
  · exact h
  · have hw : s.phase.working = true := by rw [hp]; rfl
    exact raiseError h.store (h.isRunning (ne_of_working hw).1).released (h.sinkOut_of_working hw) c i hc
  · exact h.startOf hp i hpos
  · exact h.fetchStep hp hpos ht
  · exact h.initStep hp hpos
  · exact h.mixPhaseStep hp hpos
  · exact h.commitStep hp hpos
  · exact h.readStep hp hpos ht
  · exact h.whitenStep hp hpos
  · exact h.roundStep hp hpos
  · exact h.deliverStep hp hpos
  · exact h.writeStep hp hpos ht
  · exact h.offerStep hp hpos
  · exact h.holdStep hp hpos
  · have hw : s.phase.working = true := by rw [hp]; rfl
    exact complete h.store (h.isRunning (ne_of_working hw).1).released (h.sinkOut_of_working hw) s.dout

/-! The CMD write and the other outside events. -/

/-- A register write on the host's side, or a dropped CMD write, while rst is released. -/
theorem mapHostSide {s : State} (h : s.Inv) (hrst : s.rst = false) (f : HostSide → HostSide) :
    (s.mapHostSide f).Inv where
  params := h.params
  memory := h.memory
  inside := h.inside
  storage := h.storage
  busy := h.busy
  running := h.running
  error := h.error
  info := h.info
  sink := h.sink
  quiet := h.quiet
  context := h.context
  position := h.position.congr rfl rfl rfl rfl rfl rfl rfl
  reset hr := by
    have hr : s.rst = true := hr
    rw [hrst] at hr; cases hr

theorem writeCmd {s : State} (h : s.Inv) (hrst : s.rst = false) (w : Word) : (s.writeCmd w).Inv := by
  have hpos := h.position.writeCmd w
  have hstore : (s.accept w).Store := h.store.congr rfl rfl rfl rfl rfl
  obtain ⟨-, hw⟩ | ⟨hbusy, -, hw⟩ | ⟨hbusy, -, hw⟩ := writeCmd_cases w s <;> rw [hw] at hpos ⊢
  · exact h.mapHostSide hrst fun x => { x with cmdlost := true }
  all_goals
    have hidle : s.phase = .idle := by
      by_contra hp
      rw [h.busy.2 hp] at hbusy; cases hbusy
    have hsink : s.sinkOut = none := h.sink.trans (if_neg (by simp [hidle]))
  · exact of_running hstore ⟨hrst, rfl, rfl, rfl, rfl, rfl⟩ (by simp) hsink hpos
  · exact raiseError hstore hrst hsink _ _ (by decide)

theorem writeReg {s : State} (h : s.Inv) (hrst : s.rst = false) (v : Word) (x : Reg) : (s.writeReg v x).Inv := by
  by_cases hx : x = .status
  · subst hx
    exact
      { h with
        running := fun hb => ⟨by simp [State.writeReg, (h.running hb).1], (h.running hb).2⟩
        position := h.position.congr rfl rfl rfl rfl rfl rfl rfl
        reset := fun hr => by
          have hr : s.rst = true := hr
          rw [hrst] at hr; cases hr }
  · rw [writeReg_eq_mapHostSide s v x hx]
    exact h.mapHostSide hrst _

theorem portWrite {s : State} (h : s.Inv) (addr : Nat) (lanes : BitVec 4) (v : Word) :
    (s.portWrite addr lanes v).Inv := by
  unfold State.portWrite
  split_ifs with hrst
  · exact h
  · split
    · exact h.writeReg (by simpa using hrst) v _
    · exact h

end State.Inv

/-- `s` with what surrounds the block as in `t`: the inputs from outside that rst does not reach, what was read, and the
counter of the free values. -/
def State.surroundedAs (t s : State) : State :=
  { s with
    sinkReady := t.sinkReady, errRegions := t.errRegions, readData := t.readData, inbox := t.inbox, pace := t.pace
    freeIdx := t.freeIdx }

namespace State.Inv

/-- What surrounds the block is no part of the invariant. -/
theorem surroundedAs {s t : State} (h : s.Inv) (ht : t = State.surroundedAs t s) : t.Inv := by
  rw [ht]
  exact
    { h with
      position := h.position.congr rfl rfl rfl rfl rfl rfl rfl
      reset := fun hr => congrArg (State.surroundedAs t) (h.reset hr) }

/-- Another agent's write of a byte that is not the engine's. -/
theorem mem_write {s : State} (h : s.Inv) (a : Nat) (b : Byte) (ha : s.inMemory a = true) :
    State.Inv { s with mem := s.mem.write a b } :=
  { h with
    memory := (h.store.mem_write a b ha).1
    inside := (h.store.mem_write a b ha).2
    position := h.position.congr rfl rfl rfl rfl rfl rfl rfl
    reset := fun hr => congrArg (fun x : State => { x with mem := s.mem.write a b }) (h.reset hr) }

/-- A byte is the engine's only while a command runs. -/
theorem phase_of_ownsByte {s : State} (h : s.Inv) (a : Nat) (ha : s.ownsByte a = true) : s.phase ≠ .idle := by
  simp only [State.ownsByte, Bool.and_eq_true] at ha
  exact h.busy.1 ha.1

theorem hostWrite {s : State} (h : s.Inv) (a : Nat) (v : Byte) (ha : s.inMemory a = true) : (s.hostWrite a v).Inv := by
  cases ho : s.ownsByte a with
  | false => rw [hostWrite_of_free a v s ho]; exact h.mem_write a v ha
  | true =>
    obtain ⟨b, -, n, hs⟩ := hostWrite_of_owned a v s ho
    have hp := h.phase_of_ownsByte a ho
    rw [hs]
    exact of_running (h.store.congr_mem (h.store.mem_write a b ha) rfl rfl rfl rfl)
      ((h.isRunning hp).congr rfl rfl rfl) hp h.sink (h.position.congr rfl rfl rfl rfl rfl rfl rfl)

theorem hostRead {s : State} (h : s.Inv) (a : Nat) : (s.hostRead a).Inv := by
  obtain ⟨b, n, hs, -⟩ := hostRead_cases a s
  rw [hs]
  exact h.surroundedAs rfl

/-- The reset state of the block, with any memory and any surroundings (R240, R241). -/
theorem resetBlock {s : State} (h : s.Inv) : State.Inv { s.resetBlock with rst := true } where
  params := h.params
  memory := h.memory
  inside := h.inside
  storage := List.length_replicate
  busy := by simp [Status.reset]
  running := by simp [Status.reset]
  error := by simp [Status.reset]
  info _ := rfl
  sink := rfl
  quiet _ := rfl
  context := by simp [Status.reset]
  position := positioned_idle rfl
  reset _ := rfl

theorem driveRst {s : State} (h : s.Inv) (level : Bool) : (s.driveRst level).Inv := by
  cases level with
  | true => exact h.resetBlock
  | false =>
    exact
      { h with
        position := h.position.congr rfl rfl rfl rfl rfl rfl rfl
        reset := fun hr => by cases hr }

theorem outside {s t : State} (h : s.Inv) (e : Event) (ht : s.outside e = .next t) : t.Inv := by
  cases e with
  | regWrite addr lanes v => cases ht; exact h.portWrite addr lanes v
  | regRead addr lanes =>
    cases ht
    rw [portRead_eq s addr lanes]
    exact h.surroundedAs rfl
  | memWrite addr v =>
    simp only [State.outside] at ht
    split_ifs at ht with ha
    cases ht; exact h.hostWrite addr v ha
  | memRead addr =>
    simp only [State.outside] at ht
    split_ifs at ht
    cases ht; exact h.hostRead addr
  | sinkReady level => cases ht; exact h.surroundedAs rfl
  | busErrors regions => cases ht; exact h.surroundedAs rfl
  | pace n => cases ht; exact h.surroundedAs rfl
  | rst level => cases ht; exact h.driveRst level

end State.Inv

/-- Settles O57: State.Inv is kept by the CMD write, by every other outside event and by every engine step. -/
theorem everyStepKeepsTheInvariant : Obligations.EveryStepKeepsTheInvariant := by
  intro s t hinv ht
  exact step_keeps State.Inv (fun _ _ h => h.surroundedAs rfl) (fun w _ hrst h => h.writeCmd hrst w)
    (fun e _ _ h hu => h.outside e hu) (fun _ _ h hu => h.engineStep hu) s t hinv ht

end Sys2Proof.Machine
end

section
/-! PROOF. The registers of the aperture one by one (spec/10_state.md R24 to R43, R241). -/

namespace Sys2Proof.Machine

/-! Which accesses reach a register, and the table window. -/

/-- Settles O16: such an access reaches no register, and a read only shows. -/
theorem onlyAlignedWordAccessesReachARegister : Obligations.OnlyAlignedWordAccessesReachARegister := by
  refine ⟨fun s off lanes v hoff hbad => ?_, portRead_eq⟩
  have hnone := reached_of_malformed s.params off lanes hbad
  refine ⟨portWrite_of_unreached s _ lanes v hnone, ?_,
    portRead_of_unreached s _ lanes hnone (inAperture_of_offset s.params off hoff)⟩
  simp [State.commandWord, hnone]

/-- Settles O17: the whole window lies in the aperture. -/
theorem tableWindowReadsTheValidTable : Obligations.TableWindowReadsTheValidTable := by
  intro s k v hwf hk
  have hoff : 0x400 + 4 * k < 4096 := by
    simp only [Params.wellFormed, Bool.and_eq_true, decide_eq_true_eq] at hwf
    omega
  have hreg : regAt s.params (0x400 + 4 * k) = .stab k := (regAt_window s.params k).trans (if_pos hk)
  refine ⟨?_, wr_of_fixed s _ v hoff (by omega) (by rw [hreg]; rfl)⟩
  rw [rd_eq_readReg s _ hoff (by omega), hreg]
  exact if_congr (by rw [Bool.and_eq_true, decide_eq_true_iff]; rfl) rfl rfl

/-! CTRL, STATUS and PARAM, put together from their fields. -/

/-- CTRL as read is its one bit (R26). -/
theorem ctrlWord_getLsbD (v : Word) : ctrlWord (v.getLsbD 0) = v &&& 1 := by
  apply BitVec.eq_of_getLsbD_eq
  intro i hi
  rw [ctrlWord, BitVec.getLsbD_append, BitVec.getLsbD_and]
  cases i <;> simp [BitVec.getLsbD_one]

/-- Settles O10: a CTRL write and its read-back. -/
theorem ctrlHoldsOnlyTheInterruptEnable : Obligations.CtrlHoldsOnlyTheInterruptEnable := by
  refine ⟨fun s v hr => ?_, rfl⟩
  have hw : s.wr 0x008 v = { s with ie := v.getLsbD 0 } := wr_eq_writeReg s _ v hr (by decide) (by decide)
  refine ⟨hw, ?_⟩
  rw [hw, rd_eq_readReg _ _ (by decide) (by decide)]
  exact ctrlWord_getLsbD v

/-- Settles O11: STATUS is reached, and `Status.written` says the rest. -/
theorem statusWriteClearsDoneAndCmdlostOnly : Obligations.StatusWriteClearsDoneAndCmdlostOnly := fun s v hr =>
  wr_eq_writeReg s 0x00C v hr (by decide) (by decide)

theorem toNat_append_eq_add {n m : Nat} (x : BitVec n) (y : BitVec m) :
    (x ++ y).toNat = x.toNat * 2 ^ m + y.toNat := by
  rw [BitVec.toNat_append, ← Nat.shiftLeft_add_eq_or_of_lt y.isLt, Nat.shiftLeft_eq]

theorem toNat_statusWord (x : Status) : x.toWord.toNat =
    x.busy.toNat + 2 * x.done.toNat + 4 * x.err.toNat + 8 * x.keyvalid.toNat + 16 * x.cmdlost.toNat
      + 256 * x.errcode.toByte.toNat := by
  simp only [Status.toWord, toNat_append_eq_add, BitVec.toNat_ofBool, BitVec.toNat_ofNat]
  omega

/-- Settles O12, by the number of the word of STATUS. -/
theorem statusReadsItsFields : Obligations.StatusReadsItsFields := by
  refine ⟨fun s => ?_, rfl, rfl, rfl, rfl, rfl, rfl, rfl, rfl, rfl, rfl⟩
  rw [rd_eq_readReg s _ (by decide) (by decide)]
  exact toNat_statusWord s.status

/-- The parameters that an implementation may have fit their fields (R25). -/
theorem toNat_paramWord (p : Params) (h : p.wellFormed = true) :
    (paramWord p).toNat = p.rMax + 256 * p.keyMaxBytes := by
  simp only [Params.wellFormed, Bool.and_eq_true, decide_eq_true_eq] at h
  simp only [paramWord, toNat_append_eq_add, BitVec.toNat_ofNat]
  omega

/-- Settles O13, by the number of the word of PARAM. -/
theorem idAndParamAreHardwired : Obligations.IdAndParamAreHardwired := by
  intro s v hwf
  refine ⟨rd_eq_readReg s _ (by decide) (by decide), ?_, wr_of_fixed s _ v (by decide) (by decide) rfl,
    wr_of_fixed s _ v (by decide) (by decide) rfl⟩
  rw [rd_eq_readReg s _ (by decide) (by decide)]
  exact toNat_paramWord s.params hwf

/-! Read-only and reserved offsets, and the reset values. -/

/-- Settles O14: the offsets are those of registers that ignore writes. -/
theorem readOnlyRegistersIgnoreWrites : Obligations.ReadOnlyRegistersIgnoreWrites := by
  intro s v
  have hread : ∀ off, off < 4096 → off % 4 = 0 → s.rd off = s.readReg (regAt s.params off) := rd_eq_readReg s
  refine ⟨fun off hoff => ?_, hread _ (by decide) (by decide), hread _ (by decide) (by decide),
    hread _ (by decide) (by decide), hread _ (by decide) (by decide), hread _ (by decide) (by decide),
    hread _ (by decide) (by decide), hread _ (by decide) (by decide)⟩
  fin_cases hoff <;> exact wr_of_fixed s _ v (by decide) (by decide) rfl

/-- A word of the window is one of the table storage (R40). -/
theorem lt_of_regAt_stab (p : Params) (off k : Nat) (h : regAt p off = .stab k) : k < p.tMax := by
  unfold regAt at h
  split_ifs at h with _ hk
  · cases h; exact hk
  · split at h <;> cases h

/-- The reserved offsets with the default table window (R41). -/
theorem regAt_reserved (p : Params) (off : Nat) (hp : p.rMax = 255) (hal : off % 4 = 0)
    (h : (0x038 ≤ off ∧ off ≤ 0x03C) ∨ (0x060 ≤ off ∧ off ≤ 0x3FC) ∨ (0xC08 ≤ off ∧ off ≤ 0xFFC)) :
    regAt p off = .reserved := by
  by_contra hx
  have hoff := offset_of_regAt p off _ hal hx rfl
  cases hreg : regAt p off <;> rw [hreg] at hoff hx <;> simp only [Reg.offset] at hoff
  case stab k =>
    have hk := lt_of_regAt_stab p off k hreg
    simp only [Params.tMax] at hk
    omega
  case reserved => exact hx rfl
  all_goals omega

/-- Settles O15, by `regAt_reserved`. -/
theorem reservedOffsetsReadZeroIgnoreWrites : Obligations.ReservedOffsetsReadZeroIgnoreWrites := by
  intro s v off hp hal h
  have hoff : off < 4096 := by omega
  have hreg := regAt_reserved s.params off hp hal h
  have hread := portRead_of_reached s _ _ _ (reached_of_aligned s.params off hoff hal)
  rw [hreg] at hread
  exact ⟨congrArg State.readData hread, wr_of_fixed s off v hoff hal (by rw [hreg]; rfl), hread⟩

/-- Right after reset every register but three reads 0 (R241). -/
theorem readReg_reset (x : Reg) (hid : x ≠ .id) (hparam : x ≠ .param) (hrounds : x ≠ .rounds) :
    State.reset.readReg x = 0 := by
  cases x
  case id => exact absurd rfl hid
  case param => exact absurd rfl hparam
  case rounds => exact absurd rfl hrounds
  all_goals rfl

/-- Settles O18: an offset other than the three is none of their registers. -/
theorem resetValuesOfTheAperture : Obligations.ResetValuesOfTheAperture := by
  refine ⟨fun off hoff hal => ?_, rfl, rfl⟩
  split_ifs with hid hparam hrounds
  · subst hid; rfl
  · subst hparam; rfl
  · subst hrounds; rfl
  · rw [rd_eq_readReg _ _ hoff hal]
    exact readReg_reset _ (fun h => hid (offset_of_regAt _ off .id hal (by decide) h))
      (fun h => hparam (offset_of_regAt _ off .param hal (by decide) h))
      (fun h => hrounds (offset_of_regAt _ off .rounds hal (by decide) h))

/-! The RW registers (R30 to R38). -/

/-- The operand registers (R30 to R36, R38). -/
def operandRegs : List Reg := [.rounds, .keyaddr, .keylen, .src, .dst, .len, .din0, .din1, .din2, .din3]

theorem regAt_operand (p : Params) : ∀ x ∈ operandRegs, regAt p x.offset = x := by
  intro x hx
  fin_cases hx <;> rfl

theorem offset_operand : ∀ x ∈ operandRegs, x ≠ .reserved ∧ x.offset < 4096 ∧ x.offset % 4 = 0 := by decide

/-- A write of an operand register changes what that register reads, and no other. -/
theorem readReg_writeReg (s : State) (v : Word) (y : Reg) :
    ∀ x ∈ operandRegs, (s.writeReg v x).readReg y = if y = x then v else s.readReg y := by
  intro x hx
  fin_cases hx <;> cases y <;> rfl

theorem params_writeReg (s : State) (v : Word) (x : Reg) : (s.writeReg v x).params = s.params := by cases x <;> rfl

/-- A write of an operand register is read back, and nothing else reads differently. -/
theorem rd_wr_operand (s : State) (v : Word) (hr : s.rst = false) (x : Reg) (hx : x ∈ operandRegs) :
    (s.wr x.offset v).rd x.offset = v ∧ ∀ other, other < 4096 → other % 4 = 0 → other ≠ x.offset →
      (s.wr x.offset v).rd other = s.rd other := by
  obtain ⟨hres, hoff, hal⟩ := offset_operand x hx
  rw [wr_eq_writeReg s _ v hr hoff hal, regAt_operand s.params x hx]
  constructor
  · rw [rd_eq_readReg _ _ hoff hal, params_writeReg, regAt_operand s.params x hx]
    exact (readReg_writeReg s v x x hx).trans (if_pos rfl)
  · intro other hlt hal' hne
    rw [rd_eq_readReg _ _ hlt hal', rd_eq_readReg _ _ hlt hal', params_writeReg]
    exact (readReg_writeReg s v _ x hx).trans (if_neg fun h => hne (offset_of_regAt _ _ x hal' hres h))

/-! Steps on a register access (R28, R42). -/

/-- An idle engine makes no use of its share. -/
theorem resume_of_idle (s : State) (h : s.phase = .idle) : s.resume = .next s := by
  obtain ⟨n, hn, -⟩ := resume_eq_run s
  rw [hn, run_of_not_canMove n s (by simp [State.canMove, h])]

theorem commandWord_of_other_write (s : State) (addr : Nat) (lanes : BitVec 4) (v : Word)
    (h : s.rst = false → reached s.params addr lanes ≠ some .cmd) :
    s.commandWord (.regWrite addr lanes v) = none := by
  simpa [State.commandWord] using h

theorem commandWord_of_cmd_write (s : State) (w : Word) (hr : s.rst = false) :
    s.commandWord (.regWrite (s.params.base + 0x010) 0b1111#4 w) = some w := by
  have hreg := reached_of_aligned s.params 0x010 (by decide) (by decide)
  simp only [State.commandWord, hr, hreg]
  rfl

/-- Settles O9: the write and the read-back register by register, and a step on the access by `step_of_event`. -/
theorem operandRegistersHoldWhatIsWritten : Obligations.OperandRegistersHoldWhatIsWritten := by
  refine ⟨fun s v hr off hoff => ?_, fun s addr lanes v rest hi hcmd => ?_, fun s addr lanes rest hi => ?_⟩
  · obtain ⟨x, hx, rfl⟩ : ∃ x ∈ operandRegs, x.offset = off := List.mem_map.1 hoff
    exact rd_wr_operand s v hr x hx
  · have hstep : step s = State.resume (State.portWrite addr lanes v { s with inbox := rest }) :=
      step_of_event s _ rest hi (commandWord_of_other_write (s.popInbox rest) addr lanes v hcmd)
    refine ⟨hstep, fun hp => hstep.trans (resume_of_idle _ ?_)⟩
    exact (sameEngine_portWrite addr lanes v (s.popInbox rest)).phase.trans hp
  · have hstep : step s = State.resume (State.portRead addr lanes { s with inbox := rest }) :=
      step_of_event s _ rest hi rfl
    refine ⟨hstep, fun hp => hstep.trans (resume_of_idle _ ?_)⟩
    exact (sameEngine_portRead addr lanes (s.popInbox rest)).phase.trans hp

/-- The step on a CMD write of a legal word (R28, R90). -/
theorem step_of_cmd_write (s : State) (w : Word) (rest : List Event) (i : Instr) (hr : s.rst = false)
    (hi : s.inbox = .regWrite (s.params.base + 0x010) 0b1111#4 w :: rest) (hd : decode w = .ok i) :
    step s = exec i (s.popInbox rest) := by
  rw [step_of_command s _ rest w hi (commandWord_of_cmd_write (s.popInbox rest) w hr), eq_encode_of_decode w i hd,
    exec_eq_issue]

/-- Settles O4: withFetchWord puts the same access first in the inbox. -/
theorem stepRunsTheDecodedCommand : Obligations.StepRunsTheDecodedCommand := by
  refine ⟨step_of_cmd_write, fun s i hr => ?_⟩
  have hword : BitVec.ofNat 32 ((encode i).toNat % 2 ^ 32) = encode i := by
    rw [Nat.mod_eq_of_lt (encode i).isLt, BitVec.ofNat_toNat, BitVec.setWidth_eq]
  have hi : (s.withFetchWord 32 (encode i).toNat).inbox =
      .regWrite (s.params.base + 0x010) 0b1111#4 (encode i) :: s.inbox := by
    rw [← hword]; simp [State.withFetchWord, cmdWriteEvent]
  exact step_of_cmd_write _ _ _ i hr hi (decode_encode i)

end Sys2Proof.Machine
end

section
/-! PROOF. What the commands leave alone (spec/10_state.md R39, R44, R46, R65): what an engine step changes by the phase
it starts in, and which command can be in which phase. -/

namespace Sys2Proof.Machine

/-- From the CMD write on, a command changes no input. -/
theorem sameInputs_of_exec (i : Instr) (s t : State) (h : exec i s = .next t) :
    (s.writeCmd (encode i)).SameInputs t := by
  rw [exec_eq_issue] at h
  obtain ⟨n, hn, -⟩ := resume_eq_run (s.writeCmd (encode i))
  exact State.SameInputs.run n _ t (hn ▸ h)

/-- Settles O50: neither acceptance nor a dropped CMD write changes an input, and no engine step does. -/
theorem noCommandChangesTheOperandRegisters : Obligations.NoCommandChangesTheOperandRegisters := by
  intro i s t h
  have hsame := sameInputs_of_exec i s t h
  obtain ⟨-, hw⟩ | ⟨-, -, hw⟩ | ⟨-, -, hw⟩ := writeCmd_cases (encode i) s <;> rw [hw] at hsame <;>
    exact ⟨hsame.params, hsame.rst, hsame.ie, hsame.rounds, hsame.keyaddr, hsame.keylen, hsame.src, hsame.dst,
      hsame.len, hsame.din, hsame.sinkReady, hsame.errRegions, hsame.readData, hsame.inbox, hsame.pace⟩

/-! What an engine step changes. -/

/-- What an engine step from `s` to `t` leaves alone, by the phase of `s`. -/
structure State.StepFrame (s t : State) : Prop where
  context : s.phase ∉ [Phase.init, .mix, .commit] →
    t.table = s.table ∧ t.rlatch = s.rlatch ∧ t.status.keyvalid = s.status.keyvalid
  dout : (s.phase = .deliver → s.hidden.lk.isBuffer = true) → t.dout = s.dout
  mem : s.phase ≠ .write → t.mem = s.mem
  events : s.phase ∉ [Phase.fetch, .read, .write, .hold] → t.events = s.events
  sunk : s.phase ≠ .hold → t.sunk = s.sunk
  latches : t.phase ≠ .idle → t.hidden.lk = s.hidden.lk

/-- Only an accepted chunk is one more for the sink. -/
theorem sunk_of_events {s t : State} (e : PortEvent) (he : ∀ chunk, e ≠ .emit chunk) (h : t.events = s.events ++ [e]) :
    t.sunk = s.sunk := by
  cases e with
  | emit chunk => exact absurd rfl (he chunk)
  | read a b => simp [State.sunk, h]
  | write a b ok => simp [State.sunk, h]

/-- `t` has the results of `s`: the table with RLATCH and KEYVALID, DOUT, memory and the events. -/
structure State.SameResults (s t : State) : Prop where
  table : t.table = s.table
  rlatch : t.rlatch = s.rlatch
  keyvalid : t.status.keyvalid = s.status.keyvalid
  dout : t.dout = s.dout
  mem : t.mem = s.mem
  events : t.events = s.events

namespace State.SameResults

theorem raiseError (code : ErrCode) (info : Word) (s : State) : s.SameResults (s.raiseError code info) :=
  ⟨rfl, rfl, rfl, rfl, rfl, rfl⟩

theorem startOf (i : Instr) (s : State) : s.SameResults (startOf i s) := by
  cases i <;> exact ⟨rfl, rfl, rfl, rfl, rfl, rfl⟩

theorem takeKeyByte (b : Byte) (s : State) : s.SameResults (takeKeyByte b s) := ⟨rfl, rfl, rfl, rfl, rfl, rfl⟩

theorem takeSourceByte (b : Byte) (s : State) : s.SameResults (takeSourceByte b s) := ⟨rfl, rfl, rfl, rfl, rfl, rfl⟩

theorem blockDone (s : State) : s.SameResults s.blockDone := ⟨rfl, rfl, rfl, rfl, rfl, rfl⟩

theorem wroteByte (s : State) : s.SameResults (wroteByte s) := by
  unfold Machine.wroteByte
  split_ifs
  · exact ⟨rfl, rfl, rfl, rfl, rfl, rfl⟩
  · exact ⟨rfl, rfl, rfl, rfl, rfl, rfl⟩
  · exact blockDone s

theorem whitenStep (s : State) : s.SameResults (whitenStep s) := by
  unfold Machine.whitenStep
  split_ifs <;> exact ⟨rfl, rfl, rfl, rfl, rfl, rfl⟩

theorem roundStep (s : State) : s.SameResults (roundStep s) := by
  unfold Machine.roundStep
  cases s.hidden.lk.decrypts <;> exact ⟨rfl, rfl, rfl, rfl, rfl, rfl⟩

end State.SameResults

theorem lk_startOf (i : Instr) (s : State) : (startOf i s).hidden.lk = s.hidden.lk := by cases i <;> rfl

theorem lk_wroteByte (s : State) : (wroteByte s).hidden.lk = s.hidden.lk := by
  unfold wroteByte
  split_ifs <;> rfl

theorem lk_whitenStep (s : State) : (whitenStep s).hidden.lk = s.hidden.lk := by
  unfold whitenStep
  split_ifs <;> rfl

theorem lk_roundStep (s : State) : (roundStep s).hidden.lk = s.hidden.lk := by
  unfold roundStep
  cases s.hidden.lk.decrypts <;> rfl

namespace State.StepFrame

/-- A step that has no result. -/
theorem of_same {s t : State} (h : s.SameResults t) (hlk : t.phase ≠ .idle → t.hidden.lk = s.hidden.lk) :
    s.StepFrame t where
  context _ := ⟨h.table, h.rlatch, h.keyvalid⟩
  dout _ := h.dout
  mem _ := h.mem
  events _ := h.events
  sunk _ := by simp only [State.sunk, h.events]
  latches := hlk

/-- A step with an access of the memory port records its event, and a write changes memory. -/
theorem of_access {s t : State} (hp : s.phase ∈ [Phase.fetch, .read, .write]) (e : PortEvent) (n : Nat) (m : Memory)
    (he : ∀ chunk, e ≠ .emit chunk) (hm : s.phase ≠ .write → m = s.mem)
    (h : State.SameResults { (s.setFree n).note e with mem := m } t)
    (hlk : t.phase ≠ .idle → t.hidden.lk = s.hidden.lk) : s.StepFrame t where
  context _ := ⟨h.table, h.rlatch, h.keyvalid⟩
  dout _ := h.dout
  mem hw := h.mem.trans (hm hw)
  events hnot := absurd ((by decide : [Phase.fetch, .read, .write] ⊆ [Phase.fetch, .read, .write, .hold]) hp) hnot
  sunk _ := sunk_of_events e he h.events
  latches := hlk

theorem bus_error {s : State} (hp : s.phase ∈ [Phase.fetch, .read, .write]) (e : PortEvent)
    (he : ∀ chunk, e ≠ .emit chunk) (addr : Nat) : s.StepFrame ((s.note e).raiseError .bus (BitVec.ofNat 32 addr)) :=
  of_access hp e s.freeIdx s.mem he (fun _ => rfl) (.raiseError .bus _ (s.note e)) fun h => absurd rfl h

theorem fetchStep {s t : State} (hp : s.phase = .fetch) (ht : fetchStep s = .next t) : s.StepFrame t := by
  have hacc : s.phase ∈ [Phase.fetch, .read, .write] := by rw [hp]; decide
  obtain ⟨-, ⟨-, rfl⟩ | ⟨-, b, n, rfl⟩⟩ := memRead_cases _ _ _ _ ht
  · exact bus_error hacc _ (by simp) _
  · exact of_access hacc _ n s.mem (by simp) (fun _ => rfl) (.takeKeyByte b _) fun _ => rfl

theorem readStep {s t : State} (hp : s.phase = .read) (ht : readStep s = .next t) : s.StepFrame t := by
  have hacc : s.phase ∈ [Phase.fetch, .read, .write] := by rw [hp]; decide
  obtain ⟨-, ⟨-, rfl⟩ | ⟨-, b, n, rfl⟩⟩ := memRead_cases _ _ _ _ ht
  · exact bus_error hacc _ (by simp) _
  · exact of_access hacc _ n s.mem (by simp) (fun _ => rfl) (.takeSourceByte b _) fun _ => rfl

theorem writeStep {s t : State} (hp : s.phase = .write) (ht : writeStep s = .next t) : s.StepFrame t := by
  have hacc : s.phase ∈ [Phase.fetch, .read, .write] := by rw [hp]; decide
  obtain ⟨-, ⟨-, rfl⟩ | ⟨-, b, n, rfl⟩⟩ := memWrite_cases _ _ _ _ _ ht
  · exact bus_error hacc _ (by simp) _
  · exact of_access hacc _ n _ (by simp) (fun h => absurd hp h) (.wroteByte _) fun _ => lk_wroteByte _

/-- Only a block command's result goes to DOUT (R39). -/
theorem deliverStep {s : State} (hp : s.phase = .deliver) : s.StepFrame (deliverStep s) := by
  unfold Machine.deliverStep
  split_ifs with hbuf
  · exact of_same ⟨rfl, rfl, rfl, rfl, rfl, rfl⟩ fun _ => rfl
  · exact ⟨fun _ => ⟨rfl, rfl, rfl⟩, fun h => absurd (h hp) hbuf, fun _ => rfl, fun _ => rfl, fun _ => rfl,
      fun h => absurd rfl h⟩

/-- An accepted chunk is an event. -/
theorem holdStep {s : State} (hp : s.phase = .hold) : s.StepFrame (holdStep s) := by
  have hstay : s.StepFrame s := of_same ⟨rfl, rfl, rfl, rfl, rfl, rfl⟩ fun _ => rfl
  unfold Machine.holdStep
  split
  · rename_i chunk _
    split_ifs
    · have hdone := State.SameResults.blockDone (s.note (.emit chunk))
      exact ⟨fun _ => ⟨hdone.table, hdone.rlatch, hdone.keyvalid⟩, fun _ => hdone.dout, fun _ => hdone.mem,
        fun h => absurd (by rw [hp]; decide) h, fun h => absurd hp h, fun _ => rfl⟩
    · exact hstay
  · exact hstay

/-- A step of the key schedule on the table, RLATCH and KEYVALID. -/
theorem of_schedule {s t : State} (hp : s.phase ∈ [Phase.init, .mix, .commit]) (hdout : t.dout = s.dout)
    (hmem : t.mem = s.mem) (hev : t.events = s.events) (hlk : t.hidden.lk = s.hidden.lk) : s.StepFrame t :=
  ⟨fun h => absurd hp h, fun _ => hdout, fun _ => hmem, fun _ => hev, fun _ => by simp only [State.sunk, hev],
    fun _ => hlk⟩

theorem engineStep {s t : State} (ht : engineStep s = .next t) : s.StepFrame t := by
  obtain ⟨-, rfl⟩ | ⟨-, (⟨c, i, rfl, -⟩ | ⟨i, -, -, rfl⟩)⟩ | ⟨hp, ht⟩ | ⟨hp, rfl⟩ | ⟨hp, rfl⟩ | ⟨hp, rfl⟩ |
    ⟨hp, ht⟩ | ⟨-, rfl⟩ | ⟨-, rfl⟩ | ⟨hp, rfl⟩ | ⟨hp, ht⟩ | ⟨-, rfl⟩ | ⟨hp, rfl⟩ | ⟨-, rfl⟩ := engineStep_cases s t ht
  · exact of_same ⟨rfl, rfl, rfl, rfl, rfl, rfl⟩ fun _ => rfl
  · exact of_same (.raiseError c i s) fun h => absurd rfl h
  · exact of_same (.startOf i s) fun _ => lk_startOf i s
  · exact fetchStep hp ht
  · exact of_schedule (by rw [hp]; decide) rfl rfl rfl rfl
  · exact of_schedule (by rw [hp]; decide) rfl rfl rfl rfl
  · exact of_schedule (by rw [hp]; decide) rfl rfl rfl rfl
  · exact readStep hp ht
  · exact of_same (.whitenStep s) fun _ => lk_whitenStep s
  · exact of_same (.roundStep s) fun _ => lk_roundStep s
  · exact deliverStep hp
  · exact writeStep hp ht
  · exact of_same ⟨rfl, rfl, rfl, rfl, rfl, rfl⟩ fun _ => rfl
  · exact holdStep hp
  · exact of_same ⟨rfl, rfl, rfl, rfl, rfl, rfl⟩ fun h => absurd rfl h

end State.StepFrame

/-! Which command can be in a phase. -/

/-- Only EXPAND makes a key schedule. -/
theorem expand_of_schedule {s : State} (h : s.Positioned) (hp : s.phase ∈ [Phase.init, .mix, .commit]) :
    decode s.hidden.lk.cmd = .ok .expand := by
  simp only [List.mem_cons, List.not_mem_nil, or_false] at hp
  obtain hp | hp | hp := hp
  · exact ((positioned_init hp).1 h).1.cmd
  · exact ((positioned_mix hp).1 h).1.cmd
  · exact ((positioned_commit hp).1 h).1.cmd

/-- A block that is delivered is a buffer command's or goes to DOUT. -/
theorem isBuffer_or_block_of_deliver {s : State} (h : s.Positioned) (hp : s.phase = .deliver) :
    s.hidden.lk.isBuffer = true ∨ ∃ d, decode s.hidden.lk.cmd = .ok (blockCommand d) := by
  obtain hb | hb := (positioned_deliver hp).1 h
  · exact .inr hb.cmd
  · obtain ⟨d, i, m, hcmd⟩ := hb.cmd
    refine .inl ?_
    rw [Latches.isBuffer, eq_encode_of_decode _ _ hcmd, encode_group_bufferCommand]
    rfl

/-- Only a command that writes memory writes. -/
theorem writing_of_write {s : State} (h : s.Positioned) (hp : s.phase = .write) :
    ∃ m i d, decode s.hidden.lk.cmd = .ok (bufferCommand m i d) ∧ (i || !m) = true := by
  obtain ⟨hb, hw, -⟩ := (positioned_write hp).1 h
  obtain ⟨d, i, m, hcmd⟩ := hb.cmd
  have hmodes := modes_of_bufferCommand _ m i d hcmd
  have hi : s.hidden.lk.inPlace = i := congrArg Modes.inPlace hmodes
  have hm : s.hidden.lk.streams = m := congrArg Modes.stream hmodes
  exact ⟨m, i, d, hcmd, by rw [← hi, ← hm]; exact hw⟩

/-- Only a streaming command offers a chunk. -/
theorem streaming_of_hold {s : State} (h : s.Positioned) (hp : s.phase = .hold) :
    ∃ i d, decode s.hidden.lk.cmd = .ok (bufferCommand true i d) := by
  obtain ⟨hb, hs, -⟩ := (positioned_sink (.inr hp)).1 h
  obtain ⟨d, i, m, hcmd⟩ := hb.cmd
  have hm : s.hidden.lk.streams = m := congrArg Modes.stream (modes_of_bufferCommand _ m i d hcmd)
  rw [← hm, hs] at hcmd
  exact ⟨i, d, hcmd⟩

/-- Only EXPAND and the buffer commands make events. -/
theorem command_of_access {s : State} (h : s.Positioned) (hp : s.phase ∈ [Phase.fetch, .read, .write, .hold]) :
    decode s.hidden.lk.cmd = .ok .expand ∨ ∃ m i d, decode s.hidden.lk.cmd = .ok (bufferCommand m i d) := by
  simp only [List.mem_cons, List.not_mem_nil, or_false] at hp
  obtain hp | hp | hp | hp := hp
  · exact .inl ((positioned_fetch hp).1 h).1.cmd
  · obtain ⟨d, i, m, hcmd⟩ := ((positioned_read hp).1 h).1.cmd
    exact .inr ⟨m, i, d, hcmd⟩
  · obtain ⟨m, i, d, hcmd, -⟩ := writing_of_write h hp
    exact .inr ⟨m, i, d, hcmd⟩
  · obtain ⟨i, d, hcmd⟩ := streaming_of_hold h hp
    exact .inr ⟨true, i, d, hcmd⟩

theorem writing_not_silent : ∀ m i d, (i || !m) = true →
    bufferCommand m i d ∉ [Instr.expand, .encblk, .decblk, .encs, .decs] := by decide

theorem streaming_not_silent : ∀ i d,
    bufferCommand true i d ∉ [Instr.expand, .encblk, .decblk, .enc, .dec, .enci, .deci] := by decide

theorem buffer_not_block : ∀ m i d, bufferCommand m i d ∉ [Instr.encblk, .decblk] := by decide

/-- `t` is on the course of the command `i` accepted in `s`, and has left alone what `i` does (R39, R46, R65). -/
structure State.CourseOf (i : Instr) (s t : State) : Prop where
  place : t.Positioned
  cmd : t.phase ≠ .idle → decode t.hidden.lk.cmd = .ok i
  context : i ≠ .expand → t.table = s.table ∧ t.rlatch = s.rlatch ∧ t.status.keyvalid = s.status.keyvalid
  dout : i ≠ .encblk → i ≠ .decblk → t.dout = s.dout
  mem : i ∈ [Instr.expand, .encblk, .decblk, .encs, .decs] → t.mem = s.mem
  events : i ∈ [Instr.encblk, .decblk] → t.events = s.events
  sunk : i ∈ [Instr.expand, .encblk, .decblk, .enc, .dec, .enci, .deci] → t.sunk = s.sunk

theorem State.CourseOf.engineStep {i : Instr} {s t u : State} (h : State.CourseOf i s t)
    (hu : engineStep t = .next u) : State.CourseOf i s u := by
  by_cases hidle : t.phase = .idle
  · have htu : u = t := by simpa [Machine.engineStep, hidle] using hu.symm
    exact htu ▸ h
  have hf := State.StepFrame.engineStep hu
  have hone : ∀ j, decode t.hidden.lk.cmd = .ok j → i = j := fun j hj =>
    Except.ok.inj ((h.cmd hidle).symm.trans hj)
  refine ⟨h.place.engineStep hu, fun hp => by rw [hf.latches hp]; exact h.cmd hidle, fun hi => ?_, fun he hd => ?_,
    fun hi => ?_, fun hi => ?_, fun hi => ?_⟩
  · obtain ⟨htab, hr, hkey⟩ := hf.context fun hp =>
      hi (hone _ (expand_of_schedule h.place hp))
    obtain ⟨htab', hr', hkey'⟩ := h.context hi
    exact ⟨htab.trans htab', hr.trans hr', hkey.trans hkey'⟩
  · refine (hf.dout fun hp => ?_).trans (h.dout he hd)
    obtain hb | ⟨d, hd'⟩ := isBuffer_or_block_of_deliver h.place hp
    · exact hb
    · cases d
      · exact absurd (hone _ hd') he
      · exact absurd (hone _ hd') hd
  · refine (hf.mem fun hp => ?_).trans (h.mem hi)
    obtain ⟨m, p, d, hcmd, hw⟩ := writing_of_write h.place hp
    exact writing_not_silent m p d hw (hone _ hcmd ▸ hi)
  · refine (hf.events fun hp => ?_).trans (h.events hi)
    obtain he | ⟨m, p, d, hcmd⟩ := command_of_access h.place hp
    · exact absurd (hone _ he ▸ hi) (by decide)
    · exact buffer_not_block m p d (hone _ hcmd ▸ hi)
  · refine (hf.sunk fun hp => ?_).trans (h.sunk hi)
    obtain ⟨p, d, hcmd⟩ := streaming_of_hold h.place hp
    exact streaming_not_silent p d (hone _ hcmd ▸ hi)

/-- Settles O51: every run from acceptance stays on the command's course. -/
theorem eachCommandLeavesTheRestAlone : Obligations.EachCommandLeavesTheRestAlone := by
  intro i s t hbusy h
  rw [exec_of_idle i s hbusy] at h
  have hstart : State.CourseOf i (s.accept (encode i)) (s.accept (encode i)) :=
    ⟨(positioned_check rfl).2 ⟨⟨i, decode_encode i⟩, rfl⟩, fun _ => decode_encode i, fun _ => ⟨rfl, rfl, rfl⟩,
      fun _ _ => rfl, fun _ => rfl, fun _ => rfl, fun _ => rfl⟩
  obtain ⟨n, hn, -⟩ := resume_eq_run (s.accept (encode i))
  rw [hn] at h
  have hcourse := run_keeps (State.CourseOf i (s.accept (encode i))) (fun _ _ hu hv => hu.engineStep hv) n _ t hstart h
  have hsame := State.SameInputs.run n _ t h
  exact ⟨hsame.cmdlost, hcourse.context, hcourse.dout, hcourse.mem, hcourse.events, hcourse.sunk⟩

/-! The table while it is built (R136). -/

/-- Mixing that does not go past its last step leaves STATUS alone and ends in MIX or before COMMIT. -/
theorem status_of_run_mix (d : Nat) (s t : State) (hp : s.phase = .mix)
    (hd : s.hidden.kse.s + d ≤ mixSteps s.hidden.kse.l.length (tableWords s.hidden.lk.r)) (h : run d s = .next t) :
    t.status = s.status := by
  induction d generalizing s with
  | zero => cases h; rfl
  | succ d ih =>
    rw [run_next d s _ (canMove_of_phase s (by simp [hp]) (by simp [hp])) (engineStep_mix s hp)] at h
    by_cases hmore : s.hidden.kse.s + 1 < mixSteps s.hidden.kse.l.length (tableWords s.hidden.lk.r)
    · refine ih (mixPhaseStep s) (if_pos hmore) ?_ h
      simp only [mixPhaseStep, length_l_mixStep, State.mixing]
      omega
    · obtain rfl : d = 0 := by omega
      cases h; rfl

/-- The checks of EXPAND pass on operands that fit (R215). -/
theorem expandChecks_of_fits (s : State) (h : s.KeyFits) : expandChecks (s.accept (encode .expand)) = none := by
  have hlen : s.keylen ≠ 0 := fun h0 => by have := h.keylen.1; simp [h0] at this
  have hrounds : s.rounds ≠ 0 := fun h0 => by have := h.rounds.1; simp [h0] at this
  have hrange : rangeLegal s.params s.keyaddr s.keylen = true := (rangeLegal_iff _ _ _).2 h.range
  unfold expandChecks
  exact (if_neg hlen).trans <| (if_neg h.keylen.2.not_gt).trans <|
    (if_neg (not_or.2 ⟨hrounds, h.rounds.2.not_gt⟩)).trans (if_neg (by simp [State.latches, hrange]))

/-- An EXPAND accepted in `s` when it has fetched its key. -/
def State.keyed (s : State) : State :=
  (startExpand (s.accept (encode .expand))).keyFetched s.keyaddr.toNat (s.mem.readBytes s.keyaddr.toNat s.keylen.toNat)

theorem phase_keyed (s : State) : s.keyed.phase = .init :=
  if_neg (by simp [startExpand, State.latches])

theorem length_l_keyed (s : State) : (initStep s.keyed).hidden.kse.l.length = keyWords s.keylen.toNat := by
  simp [initStep, State.keyed, State.keyFetched, startExpand]

/-- An EXPAND from acceptance to the start of MIX: one step for the checks, one for each key byte and one for INIT. -/
theorem run_to_mix (s : State) (h : s.KeyFits) (hok : s.answersAll .read s.keyaddr.toNat s.keylen.toNat) (f : Nat) :
    run (1 + (s.keylen.toNat + (1 + f))) (s.accept (encode .expand)) = run f (initStep s.keyed) := by
  have hfetch : run (s.keylen.toNat + (1 + f)) (startExpand (s.accept (encode .expand))) = run (1 + f) s.keyed :=
    run_fetches s.keylen.toNat (1 + f) (startExpand (s.accept (encode .expand))) rfl h.keylen.1 (Nat.zero_add _).le
      h.range rfl hok
  rw [run_of_passed .expand s _ (expandChecks_of_fits s h)]
  refine hfetch.trans ?_
  rw [Nat.add_comm 1 f]
  exact run_next f _ _ (canMove_of_phase _ (by simp [phase_keyed]) (by simp [phase_keyed]))
    (engineStep_init _ (phase_keyed s))

/-- Settles O53: the share ends in MIX or before COMMIT, with KEYVALID = 0 since INIT. -/
theorem tableIsHiddenWhileItIsBuilt : Obligations.TableIsHiddenWhileItIsBuilt := by
  intro s t m hbusy hfits hok hpace hlow hhigh h
  obtain ⟨f, rfl⟩ : ∃ f, m = 1 + (s.keylen.toNat + (1 + f)) := ⟨m - s.keylen.toNat - 2, by omega⟩
  have hresume : (s.accept (encode .expand)).resume =
      run (1 + (s.keylen.toNat + (1 + f))) (s.accept (encode .expand)) := by
    simp only [State.resume, State.accept_pace, hpace]
  rw [exec_of_idle _ s hbusy, hresume, run_to_mix s hfits hok f] at h
  have hsteps : 0 + f ≤ mixSteps (keyWords s.keylen.toNat) (tableWords s.rounds.toNat) := by
    simp only [mixSteps, keyWords, tableWords]
    omega
  rw [← length_l_keyed s] at hsteps
  have ht : t.status = (initStep s.keyed).status := status_of_run_mix f _ t rfl hsteps h
  have hkey : t.status.keyvalid = false := by rw [ht]; rfl
  refine ⟨by rw [ht]; rfl, hkey, ?_, fun k hk => ?_⟩
  · rw [rd_eq_readReg t _ (by decide) (by decide)]
    exact if_neg (by simp [hkey])
  · rw [rd_eq_readReg t _ (by omega) (by omega), regAt_window]
    split_ifs
    · exact if_neg (by simp [hkey])
    · rfl

end Sys2Proof.Machine
end

section
/-! PROOF. Bytes, words and blocks (spec/20_memory.md R61, R62, R75): a packed string is the number of its bytes in base
256, and a byte of it is a digit of that number. -/

namespace Sys2Proof.Machine

/-! The four bytes of a word (R11, R61). -/

theorem toNat_packLe (b0 b1 b2 b3 : Byte) :
    (packLe b0 b1 b2 b3).toNat = b0.toNat + 2 ^ 8 * b1.toNat + 2 ^ 16 * b2.toNat + 2 ^ 24 * b3.toNat := by
  simp only [packLe, toNat_append_eq_add]
  omega

/-- Byte m of a packed word. -/
theorem extractLsb'_packLe (b0 b1 b2 b3 : Byte) (m : Nat) (hm : m < 4) :
    (packLe b0 b1 b2 b3).extractLsb' (8 * m) 8 = byteAt [b0, b1, b2, b3] m := by
  apply BitVec.eq_of_toNat_eq
  rw [BitVec.extractLsb'_toNat, toNat_packLe, Nat.shiftRight_eq_div_pow]
  interval_cases m <;> simp only [byteAt, List.getD_cons_zero, List.getD_cons_succ] <;> omega

theorem unpackLe_packLe (b0 b1 b2 b3 : Byte) : unpackLe (packLe b0 b1 b2 b3) = [b0, b1, b2, b3] := by
  have hbyte := extractLsb'_packLe b0 b1 b2 b3
  simp only [unpackLe, BitVec.extractLsb]
  rw [hbyte 0 (by decide), hbyte 1 (by decide), hbyte 2 (by decide), hbyte 3 (by decide)]
  rfl

theorem packLe_extractLsb (w : Word) :
    packLe (w.extractLsb 7 0) (w.extractLsb 15 8) (w.extractLsb 23 16) (w.extractLsb 31 24) = w := by
  apply BitVec.eq_of_toNat_eq
  rw [toNat_packLe]
  simp only [BitVec.extractLsb_toNat, Nat.shiftRight_eq_div_pow]
  omega

/-! The sixteen bytes of a block. -/

theorem blockOfBytes_bytesOfBlock (x : Block) : blockOfBytes (bytesOfBlock x) = x := by
  obtain ⟨a, b, c, d⟩ := x
  exact (Block.mk.injEq ..).mpr
    ⟨packLe_extractLsb a, packLe_extractLsb b, packLe_extractLsb c, packLe_extractLsb d⟩

/-- A word of a byte string unpacks to its four bytes. -/
theorem unpackLe_wordAt (bs : List Byte) (i : Nat) (h : 4 * i + 4 ≤ bs.length) :
    unpackLe (wordAt bs i) = (bs.drop (4 * i)).take 4 := by
  rw [wordAt, unpackLe_packLe]
  refine List.ext_getElem (by simp; omega) fun k hk _ => ?_
  have hk : k < 4 := hk
  rw [List.getElem_take, List.getElem_drop]
  interval_cases k <;> exact byteAt_eq_getElem _ _ _

theorem bytesOfBlock_blockOfBytes (bs : List Byte) (h : bs.length = 16) : bytesOfBlock (blockOfBytes bs) = bs := by
  simp only [bytesOfBlock, blockOfBytes]
  rw [unpackLe_wordAt bs 0 (by omega), unpackLe_wordAt bs 1 (by omega), unpackLe_wordAt bs 2 (by omega),
    unpackLe_wordAt bs 3 (by omega), Nat.mul_zero, List.drop_zero]
  simp only [← List.take_add, Nat.reduceMul, Nat.reduceAdd]
  exact List.take_of_length_le h.le

/-- Settles O45, from the bytes of a word. -/
theorem blockBytesAreLittleEndian : Obligations.BlockBytesAreLittleEndian :=
  ⟨fun _ _ _ _ _ _ _ _ _ _ _ _ _ _ _ _ => rfl, toNat_packLe, fun x => ⟨rfl, blockOfBytes_bytesOfBlock x⟩,
    bytesOfBlock_blockOfBytes⟩

/-! The key-words (R62). -/

theorem byteAt_of_le (bs : List Byte) (m : Nat) (h : bs.length ≤ m) : byteAt bs m = 0 := by
  simp [byteAt, h]

/-- Byte m of word j of a byte string. -/
theorem extractLsb'_wordAt (bs : List Byte) (j m : Nat) (hm : m < 4) :
    (wordAt bs j).extractLsb' (8 * m) 8 = byteAt bs (4 * j + m) := by
  rw [wordAt, extractLsb'_packLe _ _ _ _ m hm]
  interval_cases m <;> rfl

theorem getD_keyPack (key : List Byte) (j : Nat) (h : j < keyWords key.length) :
    (keyPack key).getD j 0 = wordAt key j := by
  simp [keyPack, h]

/-- Settles O46: a byte past the end of the secret is 0. -/
theorem keyIsPackedWithZeroPadding : Obligations.KeyIsPackedWithZeroPadding := by
  intro key
  refine ⟨length_keyPack key, fun j m hj hm => ?_⟩
  rw [getD_keyPack key j hj, extractLsb'_wordAt key j m hm]
  split_ifs with hin
  · rfl
  · exact byteAt_of_le _ _ (by omega)

/-! The chunk on sink_data (R75). -/

theorem natOfBytes_lt (bs : List Byte) : natOfBytes bs < 256 ^ bs.length := by
  induction bs with
  | nil => decide
  | cons b bs ih =>
    have hb := b.isLt
    rw [natOfBytes, List.length_cons, Nat.pow_succ]
    omega

/-- A byte of a string is a digit of its number. -/
theorem natOfBytes_digit (bs : List Byte) (m : Nat) : natOfBytes bs / 256 ^ m % 256 = (bs.getD m 0).toNat := by
  induction bs generalizing m with
  | nil => simp [natOfBytes]
  | cons b bs ih =>
    have hb := b.isLt
    cases m with
    | zero => simp only [natOfBytes, List.getD_cons_zero]; omega
    | succ m =>
      rw [List.getD_cons_succ, ← ih, natOfBytes, Nat.pow_succ', ← Nat.div_div_eq_div_mul]
      congr 2
      omega

theorem extractLsb'_sinkBits (chunk : List Byte) (m : Nat) (h : chunk.length = 16) :
    (sinkBits chunk).extractLsb' (8 * m) 8 = chunk.getD m 0 := by
  have hlt : natOfBytes chunk < 2 ^ 128 := by simpa [h] using natOfBytes_lt chunk
  apply BitVec.eq_of_toNat_eq
  rw [BitVec.extractLsb'_toNat, sinkBits, BitVec.toNat_ofNat, Nat.mod_eq_of_lt hlt, Nat.shiftRight_eq_div_pow,
    Nat.pow_mul]
  exact natOfBytes_digit chunk m

end Sys2Proof.Machine
end

section
/-! PROOF. The range checks that fail (spec/60_exceptions.md R208, R215), for the three ranges a command has. -/

namespace Sys2Proof.Machine

theorem rangeLegal_eq_false_iff (p : Params) (a n : Word) :
    rangeLegal p a n = false ↔ 2 ^ p.addrW < a.toNat + n.toNat := by
  rw [← Bool.not_eq_true, rangeLegal_iff, not_le]

/-- EXPAND's checks when only its range is wrong. -/
theorem expandChecks_of_range (s : State) (hkey : 1 ≤ s.keylen.toNat) (hmax : s.keylen.toNat ≤ s.params.keyMaxBytes)
    (hrounds : 1 ≤ s.rounds.toNat) (hrmax : s.rounds.toNat ≤ s.params.rMax)
    (hpast : 2 ^ s.params.addrW < s.keyaddr.toNat + s.keylen.toNat) :
    expandChecks (s.accept (encode .expand)) = some (.range, s.keyaddr) := by
  have hlen : s.keylen ≠ 0 := fun h0 => by simp [h0] at hkey
  have hr : s.rounds ≠ 0 := fun h0 => by simp [h0] at hrounds
  have hrange : rangeLegal s.params s.keyaddr s.keylen = false := (rangeLegal_eq_false_iff _ _ _).2 hpast
  unfold expandChecks
  exact (if_neg hlen).trans <| (if_neg hmax.not_gt).trans <|
    (if_neg (not_or.2 ⟨hr, hrmax.not_gt⟩)).trans (if_pos (by simp [State.latches, hrange]))

/-- Both kinds of buffer checks compare the source range next after the length. -/
theorem checksOf_of_source (m i d : Bool) (w : Word) (s : State) (hlen : wholeBlocks s.len = true)
    (hpast : rangeLegal s.params s.src s.len = false) :
    checksOf (bufferCommand m i d) (s.accept w) = some (.range, s.src) := by
  rw [checksOf_bufferCommand_eq]
  split_ifs
  · simp [sourceChecks, State.latches, hlen, hpast]
  · simp [copyChecks, State.latches, hlen, hpast]

theorem copyChecks_of_target (w : Word) (s : State) (hlen : wholeBlocks s.len = true)
    (hsrc : rangeLegal s.params s.src s.len = true) (hpast : rangeLegal s.params s.dst s.len = false) :
    copyChecks (s.accept w) = some (.range, s.dst) := by
  simp [copyChecks, State.latches, hlen, hsrc, hpast]

/-- The commands that work on a buffer (R91). -/
theorem exists_bufferCommand : ∀ i ∈ [Instr.enc, .dec, .enci, .deci, .encs, .decs, .encis, .decis],
    ∃ m p d, i = bufferCommand m p d := by decide

/-- Settles O23: the range check is the first to fail, and the command ends there. -/
theorem rangePastMemoryIsRejected : Obligations.RangePastMemoryIsRejected := by
  intro s hbusy hruns
  have hwhole : s.len.toNat % 16 = 0 → wholeBlocks s.len = true := fun h => decide_eq_true h
  refine ⟨fun hkey hmax hrounds hrmax hpast => ?_, fun hlen hpast i hi => ?_, fun hlen hsrc hpast i hi => ?_⟩
  · exact exec_of_failed .expand s _ _ hbusy hruns (expandChecks_of_range s hkey hmax hrounds hrmax hpast)
  · obtain ⟨m, p, d, rfl⟩ := exists_bufferCommand i hi
    exact exec_of_failed _ s _ _ hbusy hruns
      (checksOf_of_source m p d _ s (hwhole hlen) ((rangeLegal_eq_false_iff _ _ _).2 hpast))
  · have hchecks : checksOf i = copyChecks := by
      obtain rfl | rfl : i = .enc ∨ i = .dec := by simpa using hi
      · rfl
      · rfl
    refine exec_of_failed i s _ _ hbusy hruns ?_
    rw [hchecks]
    exact copyChecks_of_target _ s (hwhole hlen) ((rangeLegal_iff _ _ _).2 hsrc)
      ((rangeLegal_eq_false_iff _ _ _).2 hpast)

end Sys2Proof.Machine
end

section
/-! PROOF. The whole course of EXPAND (spec/42_key_schedule.md R131 to R135). -/

namespace Sys2Proof.Machine

/-- The number of mixing steps of an EXPAND accepted in `s` (R133). -/
def State.expandSteps (s : State) : Nat := mixSteps (keyWords s.keylen.toNat) (tableWords s.rounds.toNat)

/-- The mixing loop of an EXPAND accepted in `s`, after its last step. -/
def State.mixedKey (s : State) : Mix :=
  mixTimes (tableWords s.rounds.toNat) (keyWords s.keylen.toNat) s.expandSteps (initStep s.keyed).mixing

/-- MIX leaves the schedule of the secret in front of the free words (R134). -/
theorem table_mixedKey (s : State) :
    s.mixedKey.table = keySchedule s.secret s.rounds.toNat ++ s.freeTail (tableWords s.rounds.toNat) := by
  have hlen : s.secret.length = s.keylen.toNat := Memory.length_readBytes _ _ _
  rw [State.mixedKey, State.expandSteps, ← hlen]
  exact table_mixTimes_keyInit s.secret s.rounds.toNat (s.freeTail (tableWords s.rounds.toNat))

/-- An EXPAND from the start of MIX to its end: the mixing steps, one step for COMMIT and one for the completion. -/
theorem run_mix_to_end (s : State) (f : Nat) : run (s.expandSteps + (1 + (1 + f))) (initStep s.keyed) =
    run f (commitStep ((initStep s.keyed).mixed s.mixedKey s.expandSteps)).complete := by
  obtain ⟨d, hd⟩ : ∃ d, s.expandSteps = d + 1 :=
    ⟨s.expandSteps - 1, by simp only [State.expandSteps, mixSteps, tableWords]; omega⟩
  have hl := length_l_keyed s
  have hmix := run_mix d (1 + (1 + f)) (initStep s.keyed) rfl (by rw [hl, ← hd]; exact Nat.zero_add _)
  rw [hl, ← hd, show (initStep s.keyed).hidden.kse.s + s.expandSteps = s.expandSteps from Nat.zero_add _] at hmix
  refine hmix.trans ?_
  rw [Nat.add_comm 1 (1 + f), run_next _ _ _ (canMove_of_phase _ (by simp [State.mixed]) (by simp [State.mixed]))
    (engineStep_commit _ rfl)]
  exact run_finish _ f rfl

/-- Settles O26: the key is fetched, mixed and committed within the engine's share. -/
theorem expandLeavesTheKeySchedule : Obligations.ExpandLeavesTheKeySchedule := by
  intro s hbusy hpace hfits hok
  rw [exec_of_idle .expand s hbusy]
  have hend : (commitStep ((initStep s.keyed).mixed s.mixedKey s.expandSteps)).complete = s.expanded := by
    simp only [State.expanded, ← table_mixedKey]
    rfl
  rw [← hend]
  refine resume_of_run _ _ (1 + (s.keylen.toNat + (1 + (s.expandSteps + (1 + 1))))) hpace ?_ rfl fun f => ?_
  · have hbound : s.keylen.toNat + s.expandSteps + 8 ≤ (s.accept (encode .expand)).workBound := by
      simp only [State.workBound, State.expandSteps, State.accept_hidden, State.latches, Latches.r]
      omega
    omega
  · rw [show 1 + (s.keylen.toNat + (1 + (s.expandSteps + (1 + 1)))) + f =
        1 + (s.keylen.toNat + (1 + (s.expandSteps + (1 + (1 + f))))) by omega, run_to_mix s hfits hok]
    exact run_mix_to_end s f

end Sys2Proof.Machine
end

section
/-! SUPPORT. A buffer command between its blocks (spec/44_block_processor.md R170): what it reads, computes and writes
next, in the terms of the state at acceptance; and how far its accesses are answered. -/

namespace Sys2Proof.Machine

/-! The block at hand of a buffer command that has finished k blocks. -/

section
variable {w : Word} {x : Modes} {k : Nat} {h : Hidden} {s : State}

theorem writesMem_atBlock (hx : (s.latches w).modes = x) (hb : h.BetweenBlocks w s k) :
    (s.atBlock x k h).hidden.lk.writesMem = x.writes :=
  hx ▸ congrArg Latches.writesMem hb.lk

theorem streams_atBlock (hx : (s.latches w).modes = x) (hb : h.BetweenBlocks w s k) :
    (s.atBlock x k h).hidden.lk.streams = x.stream :=
  hx ▸ congrArg Latches.streams hb.lk

theorem decrypts_atBlock (hx : (s.latches w).modes = x) (hb : h.BetweenBlocks w s k) :
    (s.atBlock x k h).hidden.lk.decrypts = x.decrypt :=
  hx ▸ congrArg Latches.decrypts hb.lk

/-- Where block k is read. -/
theorem sourceAddr_atBlock (hb : h.BetweenBlocks w s k) :
    (s.atBlock x k h).hidden.lk.src.toNat + Config.blockBytes * (s.atBlock x k h).hidden.bsp.k =
      s.src.toNat + Config.blockBytes * k := by
  simp only [State.atBlock, hb.lk, hb.block, State.latches]

theorem readAddr_atBlock (hb : h.BetweenBlocks w s k) :
    (s.atBlock x k h).readAddr = s.src.toNat + Config.blockBytes * k := by
  rw [State.readAddr, sourceAddr_atBlock hb]
  simp [State.atBlock, hb.inp]

/-- Where block k is written. -/
theorem blockTarget_atBlock (hx : (s.latches w).modes = x) (hb : h.BetweenBlocks w s k) :
    (s.atBlock x k h).blockTarget = x.out s + Config.blockBytes * k := by
  subst hx
  simp only [State.blockTarget, State.atBlock, hb.lk, hb.block]
  rfl

theorem blockSource_atBlock (hb : h.BetweenBlocks w s k) (hfit : s.BufferFits x) (hk : k < s.bufferBlocks) :
    (s.atBlock x k h).blockSource = s.sourceBlock k := by
  rw [State.blockSource, sourceAddr_atBlock hb]
  exact readBytes_bufferMem x s k hfit hk

theorem blockResult_atBlock (hx : (s.latches w).modes = x) (hb : h.BetweenBlocks w s k) (hfit : s.BufferFits x)
    (hk : k < s.bufferBlocks) : (s.atBlock x k h).blockResult = s.resultBlock x.decrypt k := by
  rw [State.blockResult, blockSource_atBlock hb hfit hk, decrypts_atBlock hx hb]
  rfl

end

/-! The accesses of the blocks. -/

theorem State.answersAll.mono {kind : Access} {a b n m : Nat} {s : State} (h : s.answersAll kind a n) (hlow : a ≤ b)
    (hhigh : b + m ≤ a + n) : s.answersAll kind b m :=
  fun y h1 h2 => h y (hlow.trans h1) (h2.trans_le hhigh)

/-- The memory answers all accesses of blocks 0 to k-1, and the sink takes their chunks (R75, R210). -/
structure State.ServesBlocks (x : Modes) (k : Nat) (s : State) : Prop where
  reads : s.answersAll .read s.src.toNat (Config.blockBytes * k)
  writes : x.writes = true → s.answersAll .write (x.out s) (Config.blockBytes * k)
  sink : x.stream = true → s.sinkReady = true ∧ s.sinkOut = none

theorem State.ServesBlocks.mono {x : Modes} {k n : Nat} {s : State} (h : s.ServesBlocks x n) (hk : k ≤ n) :
    s.ServesBlocks x k := by
  have hle := Nat.mul_le_mul_left Config.blockBytes hk
  exact ⟨h.reads.mono le_rfl (by omega), fun hw => (h.writes hw).mono le_rfl (by omega), h.sink⟩

/-- The blocks up to k end inside the buffer. -/
theorem blockBytes_mul_le_len {k : Nat} {s : State} (hk : k ≤ s.bufferBlocks) :
    Config.blockBytes * k ≤ s.len.toNat :=
  (Nat.mul_le_mul_left _ hk).trans (Nat.mul_div_le _ _)

theorem State.Ready.servesBlocks {x : Modes} {s : State} (h : s.Ready x) : s.ServesBlocks x s.bufferBlocks := by
  have hle := blockBytes_mul_le_len (le_refl s.bufferBlocks)
  exact ⟨h.reads.mono le_rfl (by omega), fun hw => (h.writes hw).mono le_rfl (by omega), h.sink⟩

/-! From acceptance to a block. -/

/-- The hidden registers of a buffer command accepted in `s` with the word `w` as it comes to its block 0. -/
def State.firstHidden (w : Word) (s : State) : Hidden := ((s.accept w).toBlock 0).hidden

theorem betweenBlocks_firstHidden (w : Word) (s : State) : (s.firstHidden w).BetweenBlocks w s 0 := ⟨rfl, rfl, rfl⟩

/-- A buffer command from acceptance to its block 0: one step. -/
theorem run_to_first (m i d : Bool) (s : State) (hfit : s.BufferFits ⟨d, i, m⟩) (hkey : s.status.keyvalid = true)
    (f : Nat) : run (1 + f) (s.accept (encode (bufferCommand m i d))) =
      run f (s.atBlock ⟨d, i, m⟩ 0 (s.firstHidden (encode (bufferCommand m i d)))) := by
  rw [run_of_passed _ s f (checksOf_bufferCommand m i d s hfit hkey), startOf_bufferCommand,
    toBlock_zero _ ⟨d, i, m⟩ s]
  rfl

/-- A buffer command from acceptance to its block k. -/
theorem run_to_block (m i d : Bool) (s : State) (k : Nat) (hfit : s.BufferFits ⟨d, i, m⟩)
    (hkey : s.status.keyvalid = true) (hk : k ≤ s.bufferBlocks) (hserves : s.ServesBlocks ⟨d, i, m⟩ k) :
    ∃ (n : Nat) (h : Hidden), n ≤ 1 + k * (s.r + 36) ∧
      h.BetweenBlocks (encode (bufferCommand m i d)) s k ∧
      ∀ f, run (n + f) (s.accept (encode (bufferCommand m i d))) = run f (s.atBlock ⟨d, i, m⟩ k h) := by
  obtain ⟨n, h, hn, hb, hrun⟩ := run_blocks (encode (bufferCommand m i d)) s k _ ⟨d, i, m⟩
    (modes_bufferCommand m i d s).symm (isBuffer_bufferCommand m i d s) hfit hk hserves.reads hserves.writes
    hserves.sink (betweenBlocks_firstHidden _ s)
  refine ⟨1 + n, h, by omega, hb, fun f => ?_⟩
  rw [Nat.add_assoc, run_to_first m i d s hfit hkey, hrun]

/-- The engine's share has time for k blocks, for one more if there is one, and for eight steps besides. -/
theorem workBound_accept (w : Word) (s : State) (k : Nat) (hk : k ≤ s.bufferBlocks) :
    k * (s.r + 36) + (if k < s.bufferBlocks then s.r + 40 else 0) + 8 ≤ (s.accept w).workBound := by
  have hshare : s.bufferBlocks * (s.r + 40) + 8 ≤ (s.accept w).workBound := by
    simp only [State.workBound, State.accept_hidden]
    have hb : (s.latches w).blocks = s.bufferBlocks := rfl
    have hr : (s.accept w).r = s.r := rfl
    rw [hb, hr]
    omega
  have hmul : k * (s.r + 36) ≤ k * (s.r + 40) := Nat.mul_le_mul_left k (by omega)
  split_ifs with hlt
  · have hnext := Nat.mul_le_mul_right (s.r + 40) (Nat.succ_le_of_lt hlt)
    rw [Nat.succ_mul] at hnext
    omega
  · have hall := Nat.mul_le_mul_right (s.r + 40) hk
    omega

end Sys2Proof.Machine
end

section
/-! PROOF. A buffer command that nothing stops (R171 to R178). -/

namespace Sys2Proof.Machine

/-- A buffer command of any modes, when its state is ready for it: all its blocks and then the completion. -/
theorem exec_bufferCommand_of_ready (m i d : Bool) (s : State) (hs : s.Ready ⟨d, i, m⟩) :
    exec (bufferCommand m i d) s = .next (s.processed ⟨d, i, m⟩) := by
  obtain ⟨n, h, hn, -, hrun⟩ := run_to_block m i d s s.bufferBlocks hs.toBufferFits hs.key le_rfl hs.servesBlocks
  have hend : (s.atBlock ⟨d, i, m⟩ s.bufferBlocks h).complete = s.processed ⟨d, i, m⟩ := rfl
  have hbound := workBound_accept (encode (bufferCommand m i d)) s s.bufferBlocks le_rfl
  rw [exec_of_idle _ s hs.idle, ← hend]
  refine resume_of_run _ _ (n + 1) hs.unpaced (by omega) rfl fun f => ?_
  rw [Nat.add_assoc, hrun]
  exact run_finish _ f (if_neg (lt_irrefl _))

/-- Settles O29, by `exec_bufferCommand_of_ready`. -/
theorem copyCommandsTransformTheBuffer : Obligations.CopyCommandsTransformTheBuffer := fun s =>
  ⟨exec_bufferCommand_of_ready false false false s, exec_bufferCommand_of_ready false false true s⟩

/-- Settles O30, by `exec_bufferCommand_of_ready`. -/
theorem inPlaceCommandsTransformTheBuffer : Obligations.InPlaceCommandsTransformTheBuffer := fun s =>
  ⟨exec_bufferCommand_of_ready false true false s, exec_bufferCommand_of_ready false true true s⟩

/-- Settles O31, by `exec_bufferCommand_of_ready`. -/
theorem streamCommandsEmitTheBuffer : Obligations.StreamCommandsEmitTheBuffer := fun s =>
  ⟨exec_bufferCommand_of_ready true false false s, exec_bufferCommand_of_ready true false true s⟩

/-- Settles O32, by `exec_bufferCommand_of_ready`. -/
theorem inPlaceStreamCommandsWriteThenEmit : Obligations.InPlaceStreamCommandsWriteThenEmit := fun s =>
  ⟨exec_bufferCommand_of_ready true true false s, exec_bufferCommand_of_ready true true true s⟩

end Sys2Proof.Machine
end

section
/-! PROOF. A bus error in a block of a buffer command (spec/60_exceptions.md R210, R212), at the read or at the write of
one of its bytes. -/

namespace Sys2Proof.Machine

/-! The access that is answered with an error. -/

theorem run_read_error (f : Nat) (s : State) (hp : s.phase = .read) (hin : s.readAddr < 2 ^ s.params.addrW)
    (hbad : s.answersError .read s.readAddr = true) :
    run (1 + f) s = run f ((s.note (.read s.readAddr none)).raiseError .bus (BitVec.ofNat 32 s.readAddr)) := by
  rw [Nat.add_comm]
  exact run_next f s _ (canMove_of_phase s (by simp [hp]) (by simp [hp]))
    ((engineStep_read s hp).trans (memRead_error _ takeSourceByte s (decide_eq_true hin) hbad))

theorem run_write_error (f : Nat) (s : State) (hp : s.phase = .write) (hin : s.writeAddr < 2 ^ s.params.addrW)
    (hbad : s.answersError .write s.writeAddr = true) :
    run (1 + f) s = run f ((s.note (.write s.writeAddr (byteAt s.hidden.bsp.out s.hidden.bsp.m) false)).raiseError .bus
      (BitVec.ofNat 32 s.writeAddr)) := by
  rw [Nat.add_comm]
  exact run_next f s _ (canMove_of_phase s (by simp [hp]) (by simp [hp]))
    ((engineStep_write s hp).trans (memWrite_error _ _ wroteByte s (decide_eq_true hin) hbad))

/-! The accesses of a block before it. -/

theorem readAddr_blockRead (a : Nat) (bs : List Byte) (s : State) :
    (s.blockRead a bs).readAddr = s.readAddr + bs.length := by
  simp [State.readAddr, State.blockRead, Nat.add_assoc]

theorem writeAddr_bytesWritten (a : Nat) (bs : List Byte) (s : State) :
    (s.bytesWritten a bs).writeAddr = s.writeAddr + bs.length := by
  simp [State.writeAddr, State.bytesWritten, Nat.add_assoc]

theorem Memory.take_readBytes (mem : Memory) (a n k : Nat) (h : k ≤ n) :
    (mem.readBytes a n).take k = mem.readBytes a k := by
  obtain ⟨j, rfl⟩ := Nat.exists_eq_add_of_le h
  rw [Memory.readBytes_append, List.take_left' (Memory.length_readBytes _ _ _)]

/-- A block of the source range is inside the memory space. -/
theorem source_le_of_fits {x : Modes} {k : Nat} {s : State} (hfit : s.BufferFits x) (hk : k < s.bufferBlocks) :
    s.src.toNat + Config.blockBytes * k + Config.blockBytes ≤ 2 ^ s.params.addrW :=
  block_le_of_range _ _ _ k hk fun _ => hfit.source

/-- A block of the range that is written is inside the memory space. -/
theorem target_le_of_fits {x : Modes} {k : Nat} {s : State} (hfit : s.BufferFits x) (hw : x.writes = true)
    (hk : k < s.bufferBlocks) : x.out s + Config.blockBytes * k + Config.blockBytes ≤ 2 ^ s.params.addrW :=
  block_le_of_range _ _ _ k hk fun _ => hfit.target hw

section
variable {w : Word} {x : Modes} {k m : Nat} {h : Hidden} {s : State}

/-- A buffer command that has read m bytes of its block k. -/
def State.midRead (x : Modes) (k m : Nat) (h : Hidden) (s : State) : State :=
  (s.atBlock x k h).blockRead (s.src.toNat + Config.blockBytes * k) ((s.sourceBlock k).take m)

/-- The first m reads of block k, m < 16. -/
theorem run_to_midRead (f : Nat) (hb : h.BetweenBlocks w s k) (hfit : s.BufferFits x) (hk : k < s.bufferBlocks)
    (hm : m < Config.blockBytes) (hok : s.answersAll .read (s.src.toNat + Config.blockBytes * k) m) :
    run (m + f) (s.atBlock x k h) = run f (s.midRead x k m h) := by
  have hend := source_le_of_fits hfit hk
  have hinp : (s.atBlock x k h).hidden.bsp.inp = [] := hb.inp
  have ha := readAddr_atBlock (x := x) hb
  have hbytes : (s.atBlock x k h).mem.readBytes (s.src.toNat + Config.blockBytes * k) m = (s.sourceBlock k).take m := by
    rw [← readBytes_bufferMem x s k hfit hk, Memory.take_readBytes _ _ _ _ hm.le]
    rfl
  rw [run_reads m f _ (if_pos hk) (by rw [hinp]; decide) (by rw [hinp]; exact (Nat.zero_add m).trans_le hm.le)
    (by rw [ha]; exact (Nat.add_le_add_left hm.le _).trans hend) rfl (by rw [ha]; exact hok), ha, hbytes]
  rfl

theorem phase_midRead (hb : h.BetweenBlocks w s k) (hm : m < Config.blockBytes) : (s.midRead x k m h).phase = .read :=
  if_pos (by simpa [State.atBlock, hb.inp] using hm)

theorem readAddr_midRead (hb : h.BetweenBlocks w s k) (hm : m < Config.blockBytes) :
    (s.midRead x k m h).readAddr = s.src.toNat + Config.blockBytes * k + m := by
  rw [State.midRead, readAddr_blockRead, readAddr_atBlock hb, List.length_take, length_sourceBlock,
    Nat.min_eq_left hm.le]

/-- The hidden registers of a buffer command accepted in `s` with the word `w` as it comes to the writes of block k. -/
structure Hidden.BeforeWrites (w : Word) (x : Modes) (s : State) (k : Nat) (h : Hidden) : Prop where
  lk : h.lk = s.latches w
  block : h.bsp.k = k
  out : h.bsp.out = s.resultBlock x.decrypt k
  next : h.bsp.m = 0

/-- A buffer command that has read and transformed its block k. -/
def State.beforeWrites (x : Modes) (k : Nat) (h : Hidden) (s : State) : State :=
  { s.atBlock x k h with
    phase := .write
    events := s.bufferEvents x k ++ readEvents (s.src.toNat + Config.blockBytes * k) (s.sourceBlock k) }

/-- A buffer command that has written m bytes of its block k. -/
def State.midWrite (x : Modes) (k m : Nat) (h : Hidden) (s : State) : State :=
  (s.beforeWrites x k h).bytesWritten (x.out s + Config.blockBytes * k) ((s.resultBlock x.decrypt k).take m)

/-- The reads and the transform of block k. -/
theorem run_to_writes (hx : (s.latches w).modes = x) (hbuf : (s.latches w).isBuffer = true)
    (hb : h.BetweenBlocks w s k) (hfit : s.BufferFits x) (hk : k < s.bufferBlocks) (hw : x.writes = true)
    (hok : s.answersAll .read (s.src.toNat + Config.blockBytes * k) Config.blockBytes) :
    ∃ h' : Hidden, h'.BeforeWrites w x s k ∧
      ∀ f, run (s.r + 18 + f) (s.atBlock x k h) = run f (s.beforeWrites x k h') := by
  have hsrc := sourceAddr_atBlock (x := x) hb
  obtain ⟨h', hlk, hblock, hout, hnext, hrun⟩ := run_blockResult (s.atBlock x k h) (if_pos hk)
    ((congrArg Latches.isBuffer hb.lk).trans hbuf) hb.inp (by rw [hsrc]; exact source_le_of_fits hfit hk) rfl
    (by rw [hsrc]; exact hok)
  rw [hsrc, writesMem_atBlock hx hb, if_pos hw, blockSource_atBlock hb hfit hk] at hrun
  have hresult := blockResult_atBlock hx hb hfit hk
  exact ⟨h', ⟨hlk.trans hb.lk, hblock.trans hb.block, hout.trans hresult, hnext⟩, hrun⟩

theorem writeAddr_beforeWrites (hx : (s.latches w).modes = x) (hh : h.BeforeWrites w x s k) :
    (s.beforeWrites x k h).writeAddr = x.out s + Config.blockBytes * k := by
  subst hx
  simp only [State.writeAddr, State.beforeWrites, State.atBlock, hh.lk, hh.block, hh.next]
  rfl

theorem outBytes_beforeWrites (hh : h.BeforeWrites w x s k) :
    (s.beforeWrites x k h).outBytes m = (s.resultBlock x.decrypt k).take m := by
  simp only [State.outBytes, State.beforeWrites, State.atBlock, hh.out, hh.next, List.drop_zero]

/-- The first m writes of block k, m < 16. -/
theorem run_to_midWrite (f : Nat) (hx : (s.latches w).modes = x) (hh : h.BeforeWrites w x s k) (hfit : s.BufferFits x)
    (hk : k < s.bufferBlocks) (hw : x.writes = true) (hm : m < Config.blockBytes)
    (hok : s.answersAll .write (x.out s + Config.blockBytes * k) m) :
    run (m + f) (s.beforeWrites x k h) = run f (s.midWrite x k m h) := by
  have ha := writeAddr_beforeWrites hx hh
  rw [run_writes m f _ rfl (congrArg List.length hh.out)
    (by rw [show (s.beforeWrites x k h).hidden.bsp.m = 0 from hh.next, Nat.zero_add]; exact hm)
    (by rw [ha]; exact (Nat.add_le_add_left hm.le _).trans (target_le_of_fits hfit hw hk)) rfl (by rw [ha]; exact hok),
    ha, outBytes_beforeWrites hh]
  rfl

theorem writeAddr_midWrite (hx : (s.latches w).modes = x) (hh : h.BeforeWrites w x s k) (hm : m < Config.blockBytes) :
    (s.midWrite x k m h).writeAddr = x.out s + Config.blockBytes * k + m := by
  rw [State.midWrite, writeAddr_bytesWritten, writeAddr_beforeWrites hx hh, List.length_take, length_resultBlock,
    Nat.min_eq_left hm.le]

/-- The next result byte is byte m of the block. -/
theorem byteAt_midWrite (hh : h.BeforeWrites w x s k) (hm : m < Config.blockBytes) :
    byteAt (s.midWrite x k m h).hidden.bsp.out (s.midWrite x k m h).hidden.bsp.m =
      (s.resultBlock x.decrypt k).getD m 0 := by
  simp only [State.midWrite, State.bytesWritten, State.beforeWrites, State.atBlock, State.setBsp_hidden, hh.out,
    hh.next, List.length_take, length_resultBlock, Nat.min_eq_left hm.le, Nat.zero_add]
  rfl

end

/-- Settles O35: the course up to the failing read, and the error that ends it. -/
theorem busErrorWhileReadingABlock : Obligations.BusErrorWhileReadingABlock := by
  intro s d i st k m hfit hbusy hpace hkey hk hm hreads hbad hwrites hsink
  have hserves : s.ServesBlocks ⟨d, i, st⟩ k :=
    ⟨hreads.mono le_rfl (by simp [Config.blockBytes]), hwrites, hsink⟩
  obtain ⟨n, h, hn, hb, hrun⟩ := run_to_block st i d s k hfit hkey hk.le hserves
  have hend := source_le_of_fits hfit hk
  have hbound := workBound_accept (encode (bufferCommand st i d)) s k hk.le
  rw [if_pos hk] at hbound
  have ha : (s.midRead ⟨d, i, st⟩ k m h).readAddr = s.src.toNat + 16 * k + m := readAddr_midRead hb hm
  have hlt : s.src.toNat + 16 * k + m < 2 ^ s.params.addrW := by simp only [Config.blockBytes] at hend; omega
  rw [exec_of_idle _ s hbusy]
  refine resume_of_run _ _ (n + (m + 1)) hpace (by omega) rfl fun f => ?_
  rw [Nat.add_assoc, hrun, Nat.add_assoc,
    run_to_midRead (1 + f) hb hfit hk hm (hreads.mono (Nat.le_add_right _ _) (Nat.add_assoc _ _ _).le),
    run_read_error f _ (phase_midRead hb hm) (by rw [ha]; exact hlt) (by rw [ha]; exact hbad), ha]
  rfl

/-- Settles O36: the course up to the failing write, and the error that ends it. -/
theorem busErrorWhileWritingABlock : Obligations.BusErrorWhileWritingABlock := by
  intro s d i st k m hfit hbusy hpace hkey hk hm hw hreads hwrites hbad hsink
  have hserves : s.ServesBlocks ⟨d, i, st⟩ k := ⟨hreads.mono le_rfl (by simp [Config.blockBytes]),
    fun _ => hwrites.mono le_rfl (by simp [Config.blockBytes]), hsink⟩
  have hx := modes_bufferCommand st i d s
  obtain ⟨n, h, hn, hb, hrun⟩ := run_to_block st i d s k hfit hkey hk.le hserves
  obtain ⟨h', hh, hrun'⟩ := run_to_writes hx (isBuffer_bufferCommand st i d s) hb hfit hk hw
    (hreads.mono (Nat.le_add_right _ _) (Nat.add_assoc _ _ _).le)
  have hend := target_le_of_fits hfit hw hk
  have hbound := workBound_accept (encode (bufferCommand st i d)) s k hk.le
  rw [if_pos hk] at hbound
  have ha : (s.midWrite ⟨d, i, st⟩ k m h').writeAddr = Modes.out ⟨d, i, st⟩ s + 16 * k + m :=
    writeAddr_midWrite hx hh hm
  have hlt : Modes.out ⟨d, i, st⟩ s + 16 * k + m < 2 ^ s.params.addrW := by
    simp only [Config.blockBytes] at hend; omega
  rw [exec_of_idle _ s hbusy]
  refine resume_of_run _ _ (n + (s.r + 18 + (m + 1))) hpace (by omega) rfl fun f => ?_
  rw [Nat.add_assoc, hrun, Nat.add_assoc, hrun', Nat.add_assoc, run_to_midWrite (1 + f) hx hh hfit hk hw hm
      (hwrites.mono (Nat.le_add_right _ _) (Nat.add_assoc _ _ _).le),
    run_write_error f _ rfl (by rw [ha]; exact hlt) (by rw [ha]; exact hbad), ha, byteAt_midWrite hh hm]
  rfl

end Sys2Proof.Machine
end

section
/-! PROOF. A stream command whose sink stops accepting (spec/20_memory.md R75, spec/70_reset_and_hazards.md R246): it
stays with its chunk on offer, and once the sink accepts it goes on to the same end. -/

namespace Sys2Proof.Machine

/-! The chunks that the sink has accepted. -/

/-- Events of the memory port are no chunks. -/
theorem sunk_of_silent {s t : State} (es : List PortEvent) (he : ∀ e ∈ es, ∀ chunk, e ≠ .emit chunk)
    (h : t.events = s.events ++ es) : t.sunk = s.sunk := by
  induction es using List.reverseRecOn generalizing t with
  | nil => simp only [State.sunk, h, List.append_nil]
  | append_singleton es e ih =>
    have hmid := ih (t := { s with events := s.events ++ es }) (fun e' he' => he e' (by simp [he'])) rfl
    exact (sunk_of_events e (he e (by simp)) (by simp [h])).trans hmid

theorem sunk_of_emit {s t : State} (chunk : List Byte) (h : t.events = s.events ++ [.emit chunk]) :
    t.sunk = s.sunk ++ [chunk] := by
  simp [State.sunk, h]

theorem readEvents_silent (a : Nat) (bs : List Byte) : ∀ e ∈ readEvents a bs, ∀ chunk, e ≠ .emit chunk := by
  induction bs generalizing a with
  | nil => simp [readEvents]
  | cons b bs ih => simpa [readEvents] using ih (a + 1)

theorem writeEvents_silent (a : Nat) (bs : List Byte) : ∀ e ∈ writeEvents a bs, ∀ chunk, e ≠ .emit chunk := by
  induction bs generalizing a with
  | nil => simp [writeEvents]
  | cons b bs ih => simpa [writeEvents] using ih (a + 1)

/-- The events of a block before its chunk: its reads, and its writes if memory is written. -/
theorem accessEvents_silent (a b : Nat) (xs ys : List Byte) (c : Bool) :
    ∀ e ∈ readEvents a xs ++ (if c then writeEvents b ys else []), ∀ chunk, e ≠ .emit chunk := by
  intro e he
  obtain he | he := List.mem_append.1 he
  · exact readEvents_silent a xs e he
  · split_ifs at he
    · exact writeEvents_silent b ys e he
    · simp at he

/-- Blocks 0 to k-1 of a stream command give their k chunks. -/
theorem sunk_of_bufferEvents {s t : State} (x : Modes) (hx : x.stream = true) (k : Nat)
    (h : t.events = s.bufferEvents x k) : t.sunk = s.sunk ++ (List.range k).map (s.resultBlock x.decrypt) := by
  induction k generalizing t with
  | zero => simp [State.sunk, h, State.bufferEvents]
  | succ k ih =>
    let u : State := { s with events := s.bufferEvents x k }
    let v : State := { u with events := u.events
      ++ (readEvents (s.src.toNat + Config.blockBytes * k) (s.sourceBlock k)
        ++ (if x.writes then writeEvents (x.out s + Config.blockBytes * k) (s.resultBlock x.decrypt k) else [])) }
    have hv : v.sunk = u.sunk := sunk_of_silent _ (accessEvents_silent _ _ _ _ _) rfl
    have ht : t.events = v.events ++ [.emit (s.resultBlock x.decrypt k)] := by
      simp [h, bufferEvents_succ, State.blockEvents, hx, u, v]
    rw [sunk_of_emit _ ht, hv, ih rfl, List.range_succ, List.map_append, List.append_assoc]
    rfl

/-! From any block to the end. -/

section
variable {w : Word} {x : Modes} {k : Nat} {h : Hidden} {s : State}

/-- What block k leaves is the machine before block k + 1. -/
theorem didBlock_atBlock (hx : (s.latches w).modes = x) (hb : h.BetweenBlocks w s k) (hfit : s.BufferFits x)
    (hk : k < s.bufferBlocks) (hsink : x.stream = true → s.sinkOut = none) (h' : Hidden) :
    (s.atBlock x k h).didBlock h' = s.atBlock x (k + 1) h' := by
  have hblocks : (s.atBlock x k h).hidden.lk.blocks = s.bufferBlocks := congrArg Latches.blocks hb.lk
  have hblock : (s.atBlock x k h).hidden.bsp.k = k := hb.block
  have hout : (if x.stream = true then none else s.sinkOut) = s.sinkOut := by
    split_ifs with hs
    · exact (hsink hs).symm
    · rfl
  have hmem : (if x.writes = true then
      (s.bufferMem x k).writeBytes (x.out s + Config.blockBytes * k) (s.resultBlock x.decrypt k)
      else s.bufferMem x k) = s.bufferMem x (k + 1) := by
    rw [bufferMem_succ]
    split_ifs with hw
    · rfl
    · simp [State.bufferMem, hw]
  have hsrc := sourceAddr_atBlock (x := x) hb
  rw [hblock] at hsrc
  simp only [State.didBlock, hblocks, hblock, hsrc, writesMem_atBlock hx hb, streams_atBlock hx hb,
    blockTarget_atBlock hx hb, blockSource_atBlock hb hfit hk, blockResult_atBlock hx hb hfit hk]
  simp only [State.atBlock, hout, hmem, bufferEvents_succ, State.blockEvents, List.append_assoc]

/-- The accesses of one block are answered when those of all blocks are. -/
theorem State.Ready.reads_block (hs : s.Ready x) (hk : k < s.bufferBlocks) :
    s.answersAll .read (s.src.toNat + Config.blockBytes * k) Config.blockBytes :=
  hs.reads.mono (Nat.le_add_right _ _) (block_le_of_range _ s.len.toNat _ k hk fun _ => le_rfl)

theorem State.Ready.writes_block (hs : s.Ready x) (hk : k < s.bufferBlocks) (hw : x.writes = true) :
    s.answersAll .write (x.out s + Config.blockBytes * k) Config.blockBytes :=
  (hs.writes hw).mono (Nat.le_add_right _ _) (block_le_of_range _ s.len.toNat _ k hk fun _ => le_rfl)

/-- The last c blocks of a buffer command. -/
theorem run_last_blocks (c : Nat) (hx : (s.latches w).modes = x) (hbuf : (s.latches w).isBuffer = true)
    (hs : s.Ready x) (hb : h.BetweenBlocks w s k) (hc : k + c = s.bufferBlocks) :
    ∃ (n : Nat) (h' : Hidden), n ≤ c * (s.r + 36) ∧
      ∀ f, run (n + f) (s.atBlock x k h) = run f (s.atBlock x s.bufferBlocks h') := by
  induction c generalizing k h with
  | zero =>
    obtain rfl : k = s.bufferBlocks := hc
    exact ⟨0, h, Nat.zero_le _, fun f => by rw [Nat.zero_add]⟩
  | succ c ih =>
    have hk : k < s.bufferBlocks := by omega
    have hsrc := sourceAddr_atBlock (x := x) hb
    have hw := writesMem_atBlock hx hb
    have htg := blockTarget_atBlock hx hb
    obtain ⟨n, h', hn, hlk, hblock, hinp, hrun⟩ := run_block (s.atBlock x k h) (if_pos hk)
      ((congrArg Latches.isBuffer hb.lk).trans hbuf) hb.inp
      (by rw [hsrc]; exact source_le_of_fits hs.toBufferFits hk) rfl (by rw [hsrc]; exact hs.reads_block hk)
      (by rw [hw, htg]; exact fun hw => target_le_of_fits hs.toBufferFits hw hk)
      (by rw [hw, htg]; exact hs.writes_block hk)
      (by rw [streams_atBlock hx hb]; exact fun hst => (hs.sink hst).1)
    have hb' : h'.BetweenBlocks w s (k + 1) := ⟨hlk.trans hb.lk, hblock.trans (congrArg (· + 1) hb.block), hinp⟩
    obtain ⟨n', h'', hn', hrun'⟩ := ih hb' (by omega)
    have hr : (s.atBlock x k h).r = s.r := rfl
    refine ⟨n + n', h'', by rw [Nat.succ_mul]; omega, fun f => ?_⟩
    rw [Nat.add_assoc, hrun, didBlock_atBlock hx hb hs.toBufferFits hk (fun hst => (hs.sink hst).2), hrun']

/-- A stream command from its block k to the chunk of that block on offer, whether the sink is ready or not. -/
theorem run_to_offer (hx : (s.latches w).modes = x) (hbuf : (s.latches w).isBuffer = true) (hst : x.stream = true)
    (hb : h.BetweenBlocks w s k) (hfit : s.BufferFits x) (hk : k < s.bufferBlocks)
    (hrd : s.answersAll .read (s.src.toNat + Config.blockBytes * k) Config.blockBytes)
    (hwr : x.writes = true → s.answersAll .write (x.out s + Config.blockBytes * k) Config.blockBytes) :
    ∃ (n : Nat) (h' : Hidden), n ≤ s.r + 35 ∧ h'.lk = s.latches w ∧ h'.bsp.k = k ∧
      ∀ f, run (n + f) (s.atBlock x k h) = run f ((s.atBlock x k h).offered h') := by
  have hsrc := sourceAddr_atBlock (x := x) hb
  have hw := writesMem_atBlock hx hb
  have htg := blockTarget_atBlock hx hb
  obtain ⟨n, h', hn, hlk, hblock, -, hrun⟩ := run_blockOffer (s.atBlock x k h) (if_pos hk)
    ((congrArg Latches.isBuffer hb.lk).trans hbuf) hb.inp (by rw [hsrc]; exact source_le_of_fits hfit hk) rfl
    (by rw [hsrc]; exact hrd) (by rw [hw, htg]; exact fun hw => target_le_of_fits hfit hw hk)
    (by rw [hw, htg]; exact hwr) ((streams_atBlock hx hb).trans hst)
  exact ⟨n, h', hn, hlk.trans hb.lk, hblock.trans hb.block, hrun⟩

/-- With the chunk of block k on offer and a ready sink, the command goes on to its end. -/
theorem resume_of_offered {h' : Hidden} (hx : (s.latches w).modes = x) (hbuf : (s.latches w).isBuffer = true)
    (hst : x.stream = true) (hs : s.Ready x) (hb : h.BetweenBlocks w s k) (hk : k < s.bufferBlocks)
    (hlk : h'.lk = s.latches w) (hblock : h'.bsp.k = k) :
    ((s.atBlock x k h).offered h').resume = .next (s.processed x) := by
  obtain ⟨hready, hout⟩ := hs.sink hst
  obtain ⟨n, h'', hn, hrun⟩ := run_last_blocks (s.bufferBlocks - (k + 1)) hx hbuf hs
    (h := { h' with bsp := { h'.bsp with k := h'.bsp.k + 1, inp := [] } }) ⟨hlk, congrArg (· + 1) hblock, rfl⟩
    (by omega)
  have hbound : ((s.atBlock x k h).offered h').workBound = (s.accept w).workBound := by
    simp only [State.workBound, State.offered, hlk]
    rfl
  have hshare := workBound_accept w s (s.bufferBlocks - (k + 1)) (Nat.sub_le _ _)
  refine resume_of_run _ _ (1 + (n + 1)) hs.unpaced (by omega) rfl fun f => ?_
  rw [Nat.add_assoc, run_accept h' (s.atBlock x k h) _ (hlk.trans hb.lk.symm) (hblock.trans hb.block.symm)
      ((streams_atBlock hx hb).trans hst) hready,
    didBlock_atBlock hx hb hs.toBufferFits hk (fun _ => hout), Nat.add_assoc, hrun]
  exact run_finish _ f (if_neg (lt_irrefl _))

/-- What the outside world sees while the chunk of block k is on offer. -/
theorem sunk_offered {h' : Hidden} (hst : x.stream = true) :
    ((s.atBlock x k h).offered h').sunk = s.sunk ++ (List.range k).map (s.resultBlock x.decrypt) := by
  have hblocks := sunk_of_bufferEvents (t := s.atBlock x k h) x hst k rfl
  rw [← hblocks]
  exact sunk_of_silent _ (accessEvents_silent _ _ _ _ _) (List.append_assoc _ _ _)

end

/-! The events that the sink's change takes. -/

theorem step_of_sinkReady (s : State) (level : Bool) (rest : List Event) (h : s.inbox = .sinkReady level :: rest) :
    step s = State.resume { s with inbox := rest, sinkReady := level } := step_of_event s _ rest h rfl

theorem step_of_pace (s : State) (n : Option Nat) (rest : List Event) (h : s.inbox = .pace n :: rest) :
    step s = State.resume { s with inbox := rest, pace := n } := step_of_event s _ rest h rfl

theorem resume_of_not_canMove (s : State) (h : s.canMove = false) : s.resume = .next s := by
  obtain ⟨n, hn, -⟩ := resume_eq_run s
  rw [hn, run_of_not_canMove n s h]

/-- An engine before a sink that is not ready cannot move. -/
theorem canMove_of_unready_hold {s : State} (hp : s.phase = .hold) (hr : s.sinkReady = false) : s.canMove = false := by
  simp [State.canMove, hp, hr]

/-- A sink that stops accepting, and time for the engine, change nothing else while a chunk is on offer. -/
theorem play_of_hold (s : State) (hp : s.phase = .hold) :
    s.play [.sinkReady false, .pace none] = .next { s with sinkReady := false, pace := none, inbox := [] } := by
  have hfirst : step { s with inbox := [.sinkReady false, .pace none] } =
      .next { s with inbox := [.pace none], sinkReady := false } :=
    (step_of_sinkReady _ false _ rfl).trans (resume_of_not_canMove _ (canMove_of_unready_hold hp rfl))
  have hsecond : step { s with inbox := [.pace none], sinkReady := false } =
      .next { s with sinkReady := false, pace := none, inbox := [] } :=
    (step_of_pace _ none _ rfl).trans (resume_of_not_canMove _ (canMove_of_unready_hold hp rfl))
  simp only [State.play, List.length_cons, List.length_nil, steps, hfirst, hsecond, Result.next_andThen]

/-- A command is ready whatever else the outside world does later. -/
theorem State.Ready.setInbox {x : Modes} {s : State} (h : s.Ready x) (es : List Event) :
    State.Ready x { s with inbox := es } :=
  ⟨⟨h.whole, h.source, h.target, h.apart⟩, h.idle, h.unpaced, h.key, h.reads, h.writes, h.sink⟩

/-- When the sink accepts the chunk of block k again, the next step is the end of the command. -/
theorem step_of_accepted {w : Word} {x : Modes} {k : Nat} {h h' : Hidden} {s v : State}
    (hx : (s.latches w).modes = x) (hbuf : (s.latches w).isBuffer = true) (hst : x.stream = true) (hs : s.Ready x)
    (hb : h.BetweenBlocks w s k) (hk : k < s.bufferBlocks) (hlk : h'.lk = s.latches w) (hblock : h'.bsp.k = k)
    (hi : v.inbox = [.sinkReady true])
    (hv : { v with inbox := [], sinkReady := true } = { (s.atBlock x k h).offered h' with inbox := [] }) :
    step v = .next { s.processed x with inbox := [] } := by
  rw [step_of_sinkReady v true [] hi, hv]
  exact resume_of_offered (s := { s with inbox := [] }) hx hbuf hst (hs.setInbox []) ⟨hb.lk, hb.block, hb.inp⟩ hk
    hlk hblock

/-- The first clause of O38: the sink is not ready from the start. -/
theorem stream_waits_from_start (s : State) (d i : Bool)
    (hs : State.Ready ⟨d, i, true⟩ { s with sinkReady := true })
    (hr : s.sinkReady = false) (hk : 0 < s.bufferBlocks) : ∃ t : State,
      exec (bufferCommand true i d) s = .next t ∧ t.status.busy = true ∧ t.status.done = false ∧
      t.blkdone = 0 ∧ t.sunk = s.sunk ∧ t.sinkOut = some (s.resultBlock d 0) ∧
      (∀ n, run n t = .next t) ∧
      step { t with inbox := [.sinkReady true] } =
        .next { State.processed ⟨d, i, true⟩ { s with sinkReady := true } with inbox := [] } := by
  have hx := modes_bufferCommand true i d s
  have hbuf := isBuffer_bufferCommand true i d s
  have hfit : s.BufferFits ⟨d, i, true⟩ := ⟨hs.whole, hs.source, hs.target, hs.apart⟩
  have hfirst := run_to_first true i d s hfit hs.key
  have hb := betweenBlocks_firstHidden (encode (bufferCommand true i d)) s
  generalize s.firstHidden (encode (bufferCommand true i d)) = h at hfirst hb
  obtain ⟨n, h', hn, hlk, hblock, hrun⟩ := run_to_offer hx hbuf rfl hb hfit hk (hs.reads_block hk)
    (hs.writes_block hk)
  have hstay : ((s.atBlock ⟨d, i, true⟩ 0 h).offered h').canMove = false := canMove_of_unready_hold rfl hr
  have hbound := workBound_accept (encode (bufferCommand true i d)) s 0 hk.le
  rw [if_pos hk] at hbound
  have hexec : exec (bufferCommand true i d) s = .next ((s.atBlock ⟨d, i, true⟩ 0 h).offered h') := by
    rw [exec_of_idle _ s hs.idle]
    refine resume_of_run _ _ (1 + n) hs.unpaced (by omega) hstay fun f => ?_
    rw [Nat.add_assoc, hfirst, hrun]
  refine ⟨_, hexec, rfl, rfl, rfl, (sunk_offered rfl).trans (List.append_nil _),
    congrArg some (blockResult_atBlock hx hb hfit hk), fun m => run_of_not_canMove m _ hstay, ?_⟩
  exact step_of_accepted (s := { s with sinkReady := true }) hx hbuf rfl hs ⟨hb.lk, hb.block, hb.inp⟩ hk hlk hblock
    rfl rfl

theorem setSinkReady_setPace_of_eq (v : State) (hr : v.sinkReady = true) (hp : v.pace = none) :
    ({ v with inbox := [], sinkReady := true, pace := none } : State) = { v with inbox := [] } := by
  rw [← hr, ← hp]

/-- The second clause of O38: the sink stops accepting before chunk k. -/
theorem stream_waits_at_block (s : State) (d i : Bool) (k : Nat) (hs : s.Ready ⟨d, i, true⟩)
    (hk : k < s.bufferBlocks) : ∃ (n : Nat) (t u : State),
      exec (bufferCommand true i d) { s with pace := some n } = .next t ∧
      t.play [.sinkReady false, .pace none] = .next u ∧
      u = { t with sinkReady := false, pace := none, inbox := [] } ∧
      u.status.busy = true ∧ u.status.done = false ∧ u.blkdone = BitVec.ofNat 32 k ∧
      u.sunk = s.sunk ++ (List.range k).map (s.resultBlock d) ∧
      u.sinkOut = some (s.resultBlock d k) ∧ (∀ m, run m u = .next u) ∧
      u.play [.sinkReady true] = .next { s.processed ⟨d, i, true⟩ with inbox := [] } := by
  have hx := modes_bufferCommand true i d s
  have hbuf := isBuffer_bufferCommand true i d s
  obtain ⟨n, h, -, hb, hrun⟩ := run_to_block true i d s k hs.toBufferFits hs.key hk.le (hs.servesBlocks.mono hk.le)
  obtain ⟨n', h', -, hlk, hblock, hrun'⟩ := run_to_offer hx hbuf rfl hb hs.toBufferFits hk (hs.reads_block hk)
    (hs.writes_block hk)
  have hexec : exec (bufferCommand true i d) { s with pace := some (n + n') } =
      .next (((s.atBlock ⟨d, i, true⟩ k h).offered h').setPace (some (n + n'))) := by
    have hpace := run_setPace (some (n + n')) (n + n') (s.accept (encode (bufferCommand true i d)))
    rw [(hrun n').trans (hrun' 0)] at hpace
    exact (exec_of_idle _ { s with pace := some (n + n') } hs.idle).trans hpace
  have hend : State.play [.sinkReady true] { ((s.atBlock ⟨d, i, true⟩ k h).offered h').setPace (some (n + n')) with
      sinkReady := false, pace := none, inbox := [] } = .next { s.processed ⟨d, i, true⟩ with inbox := [] } := by
    simp only [State.play, List.length_singleton, steps]
    rw [step_of_accepted hx hbuf rfl hs hb hk hlk hblock rfl
      (setSinkReady_setPace_of_eq ((s.atBlock ⟨d, i, true⟩ k h).offered h') (hs.sink rfl).1 hs.unpaced)]
    rfl
  have hsunk := sunk_offered (x := ⟨d, i, true⟩) (k := k) (h := h) (s := s) (h' := h') rfl
  have hout : ((s.atBlock ⟨d, i, true⟩ k h).offered h').sinkOut = some (s.resultBlock d k) :=
    congrArg some (blockResult_atBlock hx hb hs.toBufferFits hk)
  refine ⟨n + n', _, _, hexec, play_of_hold _ rfl, rfl, rfl, rfl, rfl, hsunk, hout,
    fun m => run_of_not_canMove m _ (canMove_of_unready_hold rfl rfl), hend⟩

/-- Settles O38: the two clauses on the course, and sink_data by `extractLsb'_sinkBits`. -/
theorem streamWaitsForTheSinkThenCompletes : Obligations.StreamWaitsForTheSinkThenCompletes := by
  refine ⟨stream_waits_from_start, stream_waits_at_block, fun s chunk hout hlen => ?_, fun s hout => ?_⟩
  · have hdata : s.sinkData = some (sinkBits chunk) := by rw [State.sinkData, hout]; rfl
    exact ⟨by rw [State.sinkValid, hout]; rfl, _, hdata, fun m _ => extractLsb'_sinkBits chunk m hlen⟩
  · rw [State.sinkValid, hout]; rfl

end Sys2Proof.Machine
end

section
/-! PROOF. A buffer command writes only inside its target range (spec/20_memory.md R64, R65), at every pace and to
whatever end it comes. -/

namespace Sys2Proof.Machine

/-- `t` is on the course of the command with the latches `lk` accepted in `s`, and only its target range has changed. -/
structure State.WritesOnlyTarget (lk : Latches) (s t : State) : Prop where
  place : t.Positioned
  latched : t.phase ≠ .idle → t.hidden.lk = lk
  outside : ∀ a, a < lk.outAddr ∨ lk.outAddr + lk.len.toNat ≤ a → t.mem.read a = s.mem.read a

/-- Where the engine writes is inside the target range. -/
theorem writeAddr_of_positioned {s : State} (h : s.Positioned) (hp : s.phase = .write) :
    s.hidden.lk.outAddr ≤ s.writeAddr ∧ s.writeAddr < s.hidden.lk.outAddr + s.hidden.lk.len.toNat := by
  obtain ⟨hb, -, -, hm⟩ := (positioned_write hp).1 h
  have hend := block_le_of_range s.hidden.lk.outAddr s.hidden.lk.len.toNat _ _ hb.block fun _ => le_rfl
  simp only [State.writeAddr]
  omega

/-- The engine's write changes no byte but the one at its address. -/
theorem read_of_writeStep {s t : State} (ht : writeStep s = .next t) (a : Nat) (ha : a ≠ s.writeAddr) :
    t.mem.read a = s.mem.read a := by
  obtain ⟨-, ⟨-, rfl⟩ | ⟨-, b, n, rfl⟩⟩ := memWrite_cases _ _ _ _ _ ht
  · rfl
  · rw [(State.SameResults.wroteByte _).mem]
    exact Memory.read_write_other _ _ _ _ ha

theorem State.WritesOnlyTarget.engineStep {lk : Latches} {s t u : State} (h : State.WritesOnlyTarget lk s t)
    (hu : engineStep t = .next u) : State.WritesOnlyTarget lk s u := by
  by_cases hidle : t.phase = .idle
  · have htu : u = t := by simpa [Machine.engineStep, hidle] using hu.symm
    exact htu ▸ h
  have hf := State.StepFrame.engineStep hu
  refine ⟨h.place.engineStep hu, fun hp => (hf.latches hp).trans (h.latched hidle), fun a ha => ?_⟩
  by_cases hp : t.phase = .write
  · have hrange := writeAddr_of_positioned h.place hp
    rw [h.latched hidle] at hrange
    rw [engineStep_write t hp] at hu
    exact (read_of_writeStep hu a (by omega)).trans (h.outside a ha)
  · rw [hf.mem hp]
    exact h.outside a ha

/-- Every run from acceptance stays on such a course. -/
theorem read_outside_target (i : Instr) (s t : State) (hbusy : s.status.busy = false) (h : exec i s = .next t) (a : Nat)
    (ha : a < (s.latches (encode i)).outAddr ∨ (s.latches (encode i)).outAddr + s.len.toNat ≤ a) :
    t.mem.read a = s.mem.read a := by
  have hstart : State.WritesOnlyTarget (s.latches (encode i)) s (s.accept (encode i)) :=
    ⟨(positioned_check rfl).2 ⟨⟨i, decode_encode i⟩, rfl⟩, fun _ => rfl, fun _ _ => rfl⟩
  rw [exec_of_idle i s hbusy] at h
  exact (resume_keeps (State.WritesOnlyTarget _ s) (fun _ _ hu hv => hu.engineStep hv) _ t hstart h).outside a ha

theorem outAddr_bufferCommand (m p d : Bool) (s : State) :
    (s.latches (encode (bufferCommand m p d))).outAddr = if p then s.src.toNat else s.dst.toNat := by
  have hin : (s.latches (encode (bufferCommand m p d))).inPlace = p :=
    congrArg Modes.inPlace (modes_bufferCommand m p d s)
  rw [Latches.outAddr, hin]
  rfl

/-- Settles O52: the target range is that of DST or of SRC by the command's word. -/
theorem bufferCommandsWriteOnlyTheirTarget : Obligations.BufferCommandsWriteOnlyTheirTarget := by
  have hcopy : ∀ i ∈ [Instr.enc, .dec], ∃ d, i = bufferCommand false false d := by decide
  have hover : ∀ i ∈ [Instr.enci, .deci, .encis, .decis], ∃ m d, i = bufferCommand m true d := by decide
  intro s t a hbusy
  refine ⟨fun i hi h ha => read_outside_target i s t hbusy h a ?_, fun i hi h ha =>
    read_outside_target i s t hbusy h a ?_⟩
  · obtain ⟨d, rfl⟩ := hcopy i hi
    rw [outAddr_bufferCommand]
    exact ha
  · obtain ⟨m, d, rfl⟩ := hover i hi
    rw [outAddr_bufferCommand]
    exact ha

end Sys2Proof.Machine
end

section
/-! PROOF. Races between another agent and the engine (spec/20_memory.md R68, R73, R74, R77): the accesses that race,
and the two orders of an access and an engine step. -/

namespace Sys2Proof.Machine

/-! The free choice. -/

/-- The free choice can be each of its bytes and no other. -/
theorem mem_iff_pickByte (bs : List Byte) (b : Byte) : b ∈ bs ↔ bs ≠ [] ∧ ∃ n, pickByte n bs = b := by
  constructor
  · intro hb
    obtain ⟨n, hn, rfl⟩ := List.mem_iff_getElem.1 hb
    refine ⟨List.ne_nil_of_mem hb, n, ?_⟩
    rw [pickByte, Nat.mod_eq_of_lt hn, byteAt_eq_getElem bs n hn]
  · rintro ⟨hne, n, rfl⟩
    exact pickByte_mem n bs hne

/-! The accesses when somebody has written the byte since acceptance. -/

/-- A read that the memory answers, of a byte that other agents have written. -/
theorem memRead_raced (a : Nat) (k : Byte → State → State) (s : State) (b : Byte) (bs : List Byte)
    (hin : s.inMemory a = true) (hok : s.answersError .read a = false) (hraced : s.hostBytes a = b :: bs) :
    s.memRead a k = .next (k (pickByte (Config.freePick s.freeIdx) (b :: bs ++ [s.span.before.read a]))
      ((s.setFree (s.freeIdx + 1)).note
        (.read a (some (pickByte (Config.freePick s.freeIdx) (b :: bs ++ [s.span.before.read a])))))) := by
  simp only [State.memRead, hin, hok, hraced]
  rfl

/-- A write that the memory answers, to a byte that other agents have written. -/
theorem memWrite_raced (a : Nat) (v : Byte) (k : State → State) (s : State) (b : Byte) (bs : List Byte)
    (hin : s.inMemory a = true) (hok : s.answersError .write a = false) (hraced : s.hostBytes a = b :: bs) :
    s.memWrite a v k = .next (k { (s.setFree (s.freeIdx + 1)).note (.write a v true) with
      mem := s.mem.write a (pickByte (Config.freePick s.freeIdx) [v, b]) }) := by
  simp only [State.memWrite, hin, hok, hraced]
  rfl

/-- Another agent's write to a byte of the engine's that the engine has not written. -/
theorem hostWrite_of_silent (a : Nat) (v : Byte) (s : State) (ho : s.ownsByte a = true) (he : s.engineBytes a = []) :
    s.hostWrite a v =
      { s with mem := s.mem.write a v, span := { s.span with hostWrites := (a, v) :: s.span.hostWrites } } := by
  simp only [State.hostWrite, ho, he]
  rfl

/-- Another agent's write to a byte that the engine has written. -/
theorem hostWrite_raced (a : Nat) (v : Byte) (s : State) (o : Byte) (os : List Byte) (ho : s.ownsByte a = true)
    (he : s.engineBytes a = o :: os) : s.hostWrite a v =
      { s with
        mem := s.mem.write a (pickByte (Config.freePick s.freeIdx) (v :: o :: os))
        span := { s.span with hostWrites := (a, v) :: s.span.hostWrites }
        freeIdx := s.freeIdx + 1 } := by
  simp only [State.hostWrite, ho, he]
  rfl

/-- Another agent's read of a byte that nobody has written. -/
theorem hostRead_of_unwritten (a : Nat) (s : State) (hw : s.engineBytes a ++ s.hostBytes a = []) :
    s.hostRead a = { s with readData := (s.mem.read a).setWidth 32 } := by
  simp only [State.hostRead, hw, ite_self]
  rfl

/-- Another agent's read of a destination byte that somebody has written. -/
theorem hostRead_raced (a : Nat) (s : State) (ht : s.targetsByte a = true)
    (hw : s.engineBytes a ++ s.hostBytes a ≠ []) : s.hostRead a =
      { s with
        readData := (pickByte (Config.freePick s.freeIdx)
          (s.engineBytes a ++ s.hostBytes a ++ [s.span.before.read a])).setWidth 32
        freeIdx := s.freeIdx + 1 } := by
  obtain ⟨b, bs, hbs⟩ := List.exists_cons_of_ne_nil hw
  simp only [State.hostRead, ht, if_true, hbs]
  rfl

/-- A byte remembered at its own address. -/
theorem hostBytes_of_cons (a : Nat) (v : Byte) (s : State) (h : s.hostBytes a = []) :
    State.hostBytes a { s with span := { s.span with hostWrites := (a, v) :: s.span.hostWrites } } = [v] := by
  simp only [State.hostBytes, List.filter_cons, beq_self_eq_true, if_true, List.map_cons]
  exact congrArg (v :: ·) h

/-- A byte that the engine writes is one of its bytes from then on. -/
theorem engineBytes_of_write {s t : State} (a : Nat) (o : Byte) (h : s.engineBytes a = [])
    (hbegun : s.span.begun ≤ s.events.length) (hspan : t.span = s.span)
    (hev : t.events = s.events ++ [.write a o true]) : t.engineBytes a = [o] := by
  rw [State.engineBytes, hspan, hev, List.drop_append_of_le_length hbegun, List.filterMap_append]
  exact (congrArg (· ++ _) h).trans (by simp)

/-- A read is no write of the engine's. -/
theorem engineBytes_of_read {s t : State} (a : Nat) (x : Option Byte) (h : s.engineBytes a = [])
    (hbegun : s.span.begun ≤ s.events.length) (hspan : t.span = s.span)
    (hev : t.events = s.events ++ [.read a x]) : t.engineBytes a = [] := by
  rw [State.engineBytes, hspan, hev, List.drop_append_of_le_length hbegun, List.filterMap_append]
  exact (congrArg (· ++ _) h).trans (by simp)

/-! The two orders. -/

/-- The machine with a pace and these events to come. -/
def State.paced (n : Nat) (rest : List Event) (s : State) : State := { s with inbox := rest, pace := some n }

theorem resume_of_pace_zero (s : State) (h : s.pace = some 0) : s.resume = .next s := by
  simp only [State.resume, h, run_zero]

/-- The engine's share of one step. -/
theorem resume_paced_one (s t : State) (rest : List Event) (hm : s.canMove = true)
    (h : engineStep (s.paced 1 rest) = .next t) : (s.paced 1 rest).resume = .next t :=
  run_next 0 _ t hm h

/-- An outside event and then one engine step. -/
theorem play_event_then_engine {s u t : State} (e : Event) (hcmd : ∀ x : State, x.commandWord e = none)
    (hout : (s.paced 0 [.pace (some 1)]).outside e = .next u) (hpace : u.pace = some 0)
    (hi : u.inbox = [.pace (some 1)]) (hm : u.canMove = true) (hstep : engineStep (u.paced 1 []) = .next t) :
    s.play [.pace (some 0), e, .pace (some 1)] = .next t := by
  have h1 : step { s with inbox := [.pace (some 0), e, .pace (some 1)] } = .next (s.paced 0 [e, .pace (some 1)]) :=
    (step_of_pace _ (some 0) _ rfl).trans (resume_of_pace_zero _ rfl)
  have h2 : step (s.paced 0 [e, .pace (some 1)]) = .next u := by
    rw [step_of_event _ e [.pace (some 1)] rfl (hcmd _)]
    exact (congrArg (Result.andThen · State.resume) hout).trans (resume_of_pace_zero u hpace)
  have h3 : step u = .next t := (step_of_pace u (some 1) [] hi).trans (resume_paced_one u t [] hm hstep)
  simp only [State.play, List.length_cons, List.length_nil, steps, h1, h2, h3, Result.next_andThen]

/-- One engine step and then an outside event. -/
theorem play_engine_then_event {s u t : State} (e : Event) (hcmd : ∀ x : State, x.commandWord e = none)
    (hm : s.canMove = true) (hstep : engineStep (s.paced 1 [.pace (some 0), e]) = .next u)
    (hout : (u.paced 0 []).outside e = .next t) (hpace : t.pace = some 0) :
    s.play [.pace (some 1), .pace (some 0), e] = .next t := by
  have h1 : step { s with inbox := [.pace (some 1), .pace (some 0), e] } = .next u :=
    (step_of_pace _ (some 1) _ rfl).trans (resume_paced_one s u _ hm hstep)
  have h2 : step u = .next (u.paced 0 [e]) :=
    (step_of_pace u (some 0) [e] (State.SameInputs.engineStep _ u hstep).inbox).trans (resume_of_pace_zero _ rfl)
  have h3 : step (u.paced 0 [e]) = .next t := by
    rw [step_of_event _ e [] rfl (hcmd _)]
    exact (congrArg (Result.andThen · State.resume) hout).trans (resume_of_pace_zero t hpace)
  simp only [State.play, List.length_cons, List.length_nil, steps, h1, h2, h3, Result.next_andThen]

theorem outside_memWrite (a : Nat) (v : Byte) (s : State) (ha : a < 2 ^ s.params.addrW) :
    s.outside (.memWrite a v) = .next (s.hostWrite a v) := if_pos (decide_eq_true ha)

theorem outside_memRead (a : Nat) (s : State) (ha : a < 2 ^ s.params.addrW) :
    s.outside (.memRead a) = .next (s.hostRead a) := if_pos (decide_eq_true ha)

theorem pace_hostWrite (a : Nat) (v : Byte) (s : State) : (s.hostWrite a v).pace = s.pace := by
  cases ho : s.ownsByte a with
  | false => rw [hostWrite_of_free a v s ho]
  | true =>
    obtain ⟨b, -, n, hs⟩ := hostWrite_of_owned a v s ho
    rw [hs]
    rfl

/-- Another agent's byte stays where the engine has written none. -/
theorem mem_hostWrite_of_silent (a : Nat) (v : Byte) (s : State) (he : s.engineBytes a = []) :
    (s.hostWrite a v).mem = s.mem.write a v := by
  cases ho : s.ownsByte a with
  | false => rw [hostWrite_of_free a v s ho]
  | true => rw [hostWrite_of_silent a v s ho he]

/-! A byte that the engine reads: `k` is what it does with the byte, and `got` the bytes it has read so far. -/

section
variable {s : State} {v old : Byte} {a : Nat} {k : Byte → State → State} {got : Hidden → List Byte}
  (h : s.Unwritten a old) (hin : a < 2 ^ s.params.addrW) (hok : s.answersError .read a = false)
  (hm : s.canMove = true)
  (hstep : ∀ t : State, t.phase = s.phase → t.hidden = s.hidden → engineStep t = t.memRead a k)
  (hk : ∀ b t, State.SameResults t (k b t) ∧ (k b t).span = t.span ∧ got (k b t).hidden = got t.hidden ++ [b])
include h hin hok hm hstep hk

/-- Another agent's write comes before the engine's read: it is seen or not. -/
theorem play_write_then_read (ho : s.ownsByte a = true) :
    ∃ t, s.play [.pace (some 0), .memWrite a v, .pace (some 1)] = .next t ∧
      got t.hidden = got s.hidden ++ [pickByte (Config.freePick s.freeIdx) [v, old]] ∧ t.mem.read a = v := by
  let p := s.paced 0 [.pace (some 1)]
  let u : State := { p with mem := s.mem.write a v, span := { s.span with hostWrites := (a, v) :: s.span.hostWrites } }
  have hout : p.outside (.memWrite a v) = .next u :=
    (outside_memWrite a v p hin).trans (congrArg _ (hostWrite_of_silent a v p ho h.engine))
  have hread := (hstep (u.paced 1 []) rfl rfl).trans
    (memRead_raced a k (u.paced 1 []) v [] (decide_eq_true hin) hok (hostBytes_of_cons a v s h.host))
  have hbefore : (u.paced 1 []).span.before.read a = old := h.before
  rw [hbefore] at hread
  obtain ⟨hres, -, hgot⟩ := hk (pickByte (Config.freePick s.freeIdx) [v, old]) _
  exact ⟨_, play_event_then_engine _ (fun _ => rfl) hout rfl rfl hm hread, hgot,
    (congrArg (Memory.read · a) hres.mem).trans (Memory.read_write_same _ _ _ h.canonical)⟩

/-- Another agent's write comes after the engine's read: it is not seen. -/
theorem play_read_then_write :
    ∃ t, s.play [.pace (some 1), .pace (some 0), .memWrite a v] = .next t ∧
      got t.hidden = got s.hidden ++ [old] ∧ t.mem.read a = v := by
  let p := s.paced 1 [.pace (some 0), .memWrite a v]
  let u := k old (p.note (.read a (some old)))
  have hread : engineStep p = .next u := by
    have hanswered := memRead_answered a k p (decide_eq_true hin) hok h.host
    rw [show p.mem.read a = old from h.now] at hanswered
    exact (hstep p rfl rfl).trans hanswered
  obtain ⟨hres, hspan, hgot⟩ := hk old (p.note (.read a (some old)))
  have hparams : u.params = s.params := (State.SameInputs.engineStep _ _ hread).params
  have hsilent : (u.paced 0 []).engineBytes a = [] :=
    engineBytes_of_read a (some old) h.engine h.begun hspan hres.events
  have hin' : a < 2 ^ (u.paced 0 []).params.addrW := hin.trans_eq (congrArg (2 ^ Params.addrW ·) hparams.symm)
  have hout := outside_memWrite a v (u.paced 0 []) hin'
  refine ⟨_, play_engine_then_event _ (fun _ => rfl) hm hread hout (pace_hostWrite a v _), ?_, ?_⟩
  · rw [(sameEngine_hostWrite a v _).hidden]
    exact hgot
  · rw [mem_hostWrite_of_silent a v _ hsilent, show (u.paced 0 []).mem = s.mem from hres.mem]
    exact Memory.read_write_same _ _ _ h.canonical

end

/-! A byte that the engine writes. -/

theorem wroteByte_keeps (s : State) : (wroteByte s).status = s.status ∧ (wroteByte s).span = s.span ∧
    (wroteByte s).freeIdx = s.freeIdx := by
  unfold wroteByte
  split_ifs <;> exact ⟨rfl, rfl, rfl⟩

theorem ownsByte_of_targetsByte (a : Nat) (s : State) (h : s.targetsByte a = true) : s.ownsByte a = true := by
  simp only [State.targetsByte, Bool.and_eq_true] at h
  simp [State.ownsByte, h.1, h.2]

/-- `u` is `s`, where nobody has written the byte, after the engine has written `o` there. -/
structure State.WroteAt (a : Nat) (o : Byte) (s u : State) : Prop where
  params : u.params = s.params
  mem : u.mem = s.mem.write a o
  engine : u.engineBytes a = [o]
  span : u.span = s.span
  target : u.targetsByte a = s.targetsByte a
  freeIdx : u.freeIdx = s.freeIdx

theorem wroteAt_wroteByte (a : Nat) (o : Byte) (s : State) (he : s.engineBytes a = [])
    (hbegun : s.span.begun ≤ s.events.length) :
    s.WroteAt a o (wroteByte { s.note (.write a o true) with mem := s.mem.write a o }) := by
  generalize ht : ({ s.note (.write a o true) with mem := s.mem.write a o } : State) = t
  obtain ⟨hstatus, hspan, hfree⟩ := wroteByte_keeps t
  have hres := State.SameResults.wroteByte t
  have hlk := lk_wroteByte t
  have hparams := (State.SameInputs.wroteByte t).params
  subst ht
  refine ⟨hparams, hres.mem, engineBytes_of_write a o he hbegun hspan hres.events, hspan, ?_, hfree⟩
  simp only [State.targetsByte, hstatus, hlk]
  rfl

section
variable {s : State} {v o old : Byte} {a : Nat} (h : s.Unwritten a old) (hp : s.phase = .write)
  (ho : o = s.hidden.bsp.out.getD s.hidden.bsp.m 0) (ha : a = s.writeAddr) (hin : a < 2 ^ s.params.addrW)
  (hok : s.answersError .write a = false)
include h hp ho ha hin hok

theorem exists_wroteAt : ∃ u, engineStep s = .next u ∧ s.WroteAt a o u := by
  subst ha ho
  exact ⟨_, (engineStep_write s hp).trans
    (memWrite_answered s.writeAddr _ wroteByte s (decide_eq_true hin) hok h.host),
    wroteAt_wroteByte _ _ s h.engine h.begun⟩

/-- Another agent's write comes before the engine's: either byte stays. -/
theorem play_write_then_engine (ht : s.targetsByte a = true) :
    ∃ t, s.play [.pace (some 0), .memWrite a v, .pace (some 1)] = .next t ∧
      t.mem.read a = pickByte (Config.freePick s.freeIdx) [o, v] := by
  let p := s.paced 0 [.pace (some 1)]
  let u : State := { p with mem := s.mem.write a v, span := { s.span with hostWrites := (a, v) :: s.span.hostWrites } }
  have hout : p.outside (.memWrite a v) = .next u :=
    (outside_memWrite a v p hin).trans
      (congrArg _ (hostWrite_of_silent a v p (ownsByte_of_targetsByte a s ht) h.engine))
  subst ha ho
  have hwrite := (engineStep_write (u.paced 1 []) hp).trans (memWrite_raced s.writeAddr _ wroteByte (u.paced 1 []) v []
    (decide_eq_true hin) hok (hostBytes_of_cons s.writeAddr v s h.host))
  refine ⟨_, play_event_then_engine _ (fun _ => rfl) hout rfl rfl
    (canMove_of_phase u (by simp [u, p, State.paced, hp]) (by simp [u, p, State.paced, hp])) hwrite, ?_⟩
  rw [(State.SameResults.wroteByte _).mem]
  exact Memory.read_write_same _ _ _ (Memory.wf_write _ _ _ h.canonical)

/-- Another agent's read comes before the engine's write: it sees the byte of acceptance. -/
theorem play_read_then_engine : ∃ t, s.play [.pace (some 0), .memRead a, .pace (some 1)] = .next t ∧
    t.readData = old.setWidth 32 ∧ t.mem.read a = o := by
  let p := s.paced 0 [.pace (some 1)]
  let u : State := { p with readData := old.setWidth 32 }
  have hnobody : p.engineBytes a ++ p.hostBytes a = [] := List.append_eq_nil_iff.2 ⟨h.engine, h.host⟩
  have hout : p.outside (.memRead a) = .next u := by
    rw [outside_memRead a p hin, hostRead_of_unwritten a p hnobody, show p.mem.read a = old from h.now]
  obtain ⟨t, hstep, ht⟩ := exists_wroteAt (s := u.paced 1 []) (o := o)
    ⟨h.canonical, h.begun, h.now, h.before, h.host, h.engine⟩ hp ho ha hin hok
  refine ⟨t, play_event_then_engine _ (fun _ => rfl) hout rfl rfl
    (canMove_of_phase u (by simp [u, p, State.paced, hp]) (by simp [u, p, State.paced, hp])) hstep,
    (State.SameInputs.engineStep _ t hstep).readData, ?_⟩
  rw [ht.mem]
  exact Memory.read_write_same _ _ _ h.canonical

/-- The engine's write comes first, and then another agent's access. -/
theorem play_engine_first (e : Event) (hcmd : ∀ x : State, x.commandWord e = none) :
    ∃ u, s.WroteAt a o u ∧ u.pace = some 0 ∧ ∀ t, u.outside e = .next t → t.pace = some 0 →
      s.play [.pace (some 1), .pace (some 0), e] = .next t := by
  obtain ⟨u, hstep, hu⟩ := exists_wroteAt (s := s.paced 1 [.pace (some 0), e])
    ⟨h.canonical, h.begun, h.now, h.before, h.host, h.engine⟩ hp ho ha hin hok
  exact ⟨u.paced 0 [], ⟨hu.params, hu.mem, hu.engine, hu.span, hu.target, hu.freeIdx⟩, rfl, fun t =>
    play_engine_then_event e hcmd (canMove_of_phase s (by simp [hp]) (by simp [hp])) hstep⟩

/-- Another agent's write comes after the engine's: either byte stays. -/
theorem play_engine_then_write (ht : s.targetsByte a = true) :
    ∃ t, s.play [.pace (some 1), .pace (some 0), .memWrite a v] = .next t ∧
      t.mem.read a = pickByte (Config.freePick s.freeIdx) [v, o] := by
  obtain ⟨u, hu, hpace, hplay⟩ := play_engine_first h hp ho ha hin hok (.memWrite a v) fun _ => rfl
  have hraced := hostWrite_raced a v u o [] (ownsByte_of_targetsByte a u (hu.target.trans ht)) hu.engine
  have hout := outside_memWrite a v u (by rw [hu.params]; exact hin)
  refine ⟨_, hplay _ hout ((pace_hostWrite a v u).trans hpace), ?_⟩
  rw [hraced, hu.freeIdx, hu.mem]
  exact Memory.read_write_same _ _ _ (Memory.wf_write _ _ _ h.canonical)

/-- Another agent's read comes after the engine's write: it sees either byte. -/
theorem play_engine_then_read (ht : s.targetsByte a = true) :
    ∃ t, s.play [.pace (some 1), .pace (some 0), .memRead a] = .next t ∧
      t.readData = (pickByte (Config.freePick s.freeIdx) [o, old]).setWidth 32 := by
  obtain ⟨u, hu, hpace, hplay⟩ := play_engine_first h hp ho ha hin hok (.memRead a) fun _ => rfl
  have hhost : u.hostBytes a = [] := by rw [State.hostBytes, hu.span]; exact h.host
  have hout := outside_memRead a u (by rw [hu.params]; exact hin)
  rw [hostRead_raced a u (hu.target.trans ht) (by simp [hu.engine]), hu.engine, hhost, hu.span, h.before, hu.freeIdx]
    at hout
  exact ⟨_, hplay _ hout hpace, rfl⟩

end

/-! One step on an access of another agent. -/

theorem step_of_memWrite (s : State) (a : Nat) (v : Byte) (rest : List Event) (ha : a < 2 ^ s.params.addrW)
    (hi : s.inbox = .memWrite a v :: rest) : step s = ((s.popInbox rest).hostWrite a v).resume := by
  rw [step_of_event s _ rest hi rfl, outside_memWrite a v (s.popInbox rest) ha, Result.next_andThen]

theorem step_of_memRead (s : State) (a : Nat) (rest : List Event) (ha : a < 2 ^ s.params.addrW)
    (hi : s.inbox = .memRead a :: rest) : step s = ((s.popInbox rest).hostRead a).resume := by
  rw [step_of_event s _ rest hi rfl, outside_memRead a (s.popInbox rest) ha, Result.next_andThen]

/-- Settles O54, race by race. -/
theorem racingHostWriteIsSeenOrNot : Obligations.RacingHostWriteIsSeenOrNot := by
  refine ⟨mem_iff_pickByte, fun s v old a h hp hown ha hin hok => ?_, fun s v old a h hp hown ha hin hok => ?_,
    fun s v o old a h hp ht ho ha hin hok => ?_, fun s a rest hi hpace ha ht hw => ?_,
    fun s a v rest hpace ha => ⟨fun hi ho => ?_, fun hi ht => ?_⟩⟩
  · have hstep : ∀ t : State, t.phase = s.phase → t.hidden = s.hidden → engineStep t = t.memRead a takeKeyByte :=
      fun t hph hh => by rw [engineStep_fetch t (hph.trans hp), fetchStep, hh, ha]
    have hm := canMove_of_phase s (by simp [hp]) (by simp [hp])
    have hk : ∀ b t, State.SameResults t (takeKeyByte b t) ∧ (takeKeyByte b t).span = t.span ∧
        (takeKeyByte b t).hidden.kse.key = t.hidden.kse.key ++ [b] := fun b t => ⟨.takeKeyByte b t, rfl, rfl⟩
    exact ⟨play_write_then_read (got := fun x => x.kse.key) h hin hok hm hstep hk hown,
      play_read_then_write (got := fun x => x.kse.key) h hin hok hm hstep hk⟩
  · have hstep : ∀ t : State, t.phase = s.phase → t.hidden = s.hidden →
        engineStep t = t.memRead a takeSourceByte :=
      fun t hph hh => by rw [engineStep_read t (hph.trans hp), readStep, hh, ha]; rfl
    have hm := canMove_of_phase s (by simp [hp]) (by simp [hp])
    have hk : ∀ b t, State.SameResults t (takeSourceByte b t) ∧ (takeSourceByte b t).span = t.span ∧
        (takeSourceByte b t).hidden.bsp.inp = t.hidden.bsp.inp ++ [b] := fun b t => ⟨.takeSourceByte b t, rfl, rfl⟩
    exact ⟨play_write_then_read (got := fun x => x.bsp.inp) h hin hok hm hstep hk hown,
      play_read_then_write (got := fun x => x.bsp.inp) h hin hok hm hstep hk⟩
  · exact ⟨play_write_then_engine h hp ho ha hin hok ht, play_engine_then_write h hp ho ha hin hok ht,
      play_read_then_engine h hp ho ha hin hok, play_engine_then_read h hp ho ha hin hok ht⟩
  · rw [step_of_memRead s a rest ha hi, hostRead_raced a (s.popInbox rest) ht hw]
    exact resume_of_pace_zero _ hpace
  · rw [step_of_memWrite s a v rest ha hi, hostWrite_of_free a v (s.popInbox rest) ho]
    exact resume_of_pace_zero _ hpace
  · rw [step_of_memRead s a rest ha hi, hostRead_of_free a (s.popInbox rest) ht]
    exact resume_of_pace_zero _ hpace

end Sys2Proof.Machine
end

section
/-! PROOF. The decoder's table on all 2^32 words (spec/30_encoding.md R94 to R96): the fields of a word as numbers, and
what the decoder answers on each range of them. -/

namespace Sys2Proof.Machine

/-! The fields of a word (R91) as numbers. -/

theorem toNat_opField (w : Word) : (opField w).toNat = w.toNat % 256 := by
  simp [opField]

theorem toNat_rsvField (w : Word) : (rsvField w).toNat = w.toNat / 256 := by
  rw [rsvField, BitVec.extractLsb_toNat, Nat.shiftRight_eq_div_pow]
  exact Nat.mod_eq_of_lt (Nat.div_lt_of_lt_mul w.isLt)

theorem rsvField_eq_zero_iff (w : Word) : rsvField w = 0 ↔ w.toNat < 256 := by
  rw [← BitVec.toNat_inj, toNat_rsvField]
  simp

/-! What the decoder answers (R96). -/

theorem decode_of_rsv (w : Word) (h : 256 ≤ w.toNat) : decode w = .error .rsvNotZero :=
  if_pos fun hrsv => h.not_gt ((rsvField_eq_zero_iff w).1 hrsv)

theorem decode_of_toNat (w : Word) (i : Instr) (h : w.toNat = (encode i).toNat) : decode w = .ok i := by
  rw [BitVec.eq_of_toNat_eq h, decode_encode]

/-- With RSV = 0, a word outside the three ranges of opcodes is refused for its opcode. -/
theorem decode_of_reserved (w : Word)
    (h : w.toNat = 0 ∨ (0x04 ≤ w.toNat ∧ w.toNat ≤ 0x0F) ∨ (0x18 ≤ w.toNat ∧ w.toNat ≤ 0xFF)) :
    decode w = .error (.reservedOpcode (BitVec.ofNat 8 w.toNat)) := by
  have hlt : w.toNat < 256 := by omega
  have hop : opField w = BitVec.ofNat 8 w.toNat := BitVec.eq_of_toNat_eq (by simp [toNat_opField])
  have hnum : (opField w).toNat = w.toNat := by rw [toNat_opField, Nat.mod_eq_of_lt hlt]
  have hrsv : ¬ rsvField w ≠ 0 := not_not.2 ((rsvField_eq_zero_iff w).2 hlt)
  have hexpand : ¬ opField w = 0x01#8 := by rw [← BitVec.toNat_inj, hnum, BitVec.toNat_ofNat]; omega
  have hblock : ¬ (opField w = 0x02#8 ∨ opField w = 0x03#8) := by
    rw [← BitVec.toNat_inj, ← BitVec.toNat_inj, hnum, BitVec.toNat_ofNat, BitVec.toNat_ofNat]; omega
  have hbuffer : ¬ (0x10#8 ≤ opField w ∧ opField w ≤ 0x17#8) := by
    rw [BitVec.le_def, BitVec.le_def, hnum, BitVec.toNat_ofNat, BitVec.toNat_ofNat]; omega
  rw [decode, if_neg hrsv, if_neg hexpand, if_neg hblock, if_neg hbuffer, hop]

/-! The obligations. -/

/-- Settles O1: the decoder accepts only a command's own word, and answers that command on it. -/
theorem decodesExactlyTheEncodedWord : Obligations.DecodesExactlyTheEncodedWord := fun w i =>
  ⟨eq_encode_of_decode w i, fun h => h ▸ decode_encode i⟩

/-- Settles O2: a legal word is its command's by its number, and every other word fails the decoder's tests. -/
theorem decoderIsTotalAsTabled : Obligations.DecoderIsTotalAsTabled := fun w =>
  ⟨decode_of_rsv w, decode_of_toNat w .expand, decode_of_toNat w .encblk, decode_of_toNat w .decblk,
    decode_of_toNat w .enc, decode_of_toNat w .dec, decode_of_toNat w .enci, decode_of_toNat w .deci,
    decode_of_toNat w .encs, decode_of_toNat w .decs, decode_of_toNat w .encis, decode_of_toNat w .decis,
    decode_of_reserved w⟩

/-- Settles O3: each word is its command's encoding. -/
theorem sampleWordsDecode : Obligations.SampleWordsDecode :=
  ⟨decode_encode .expand, decode_encode .decblk, decode_encode .enc, decode_encode .deci, decode_encode .encs,
    decode_encode .decis⟩

end Sys2Proof.Machine
end

section
/-! PROOF. Word arithmetic and rotations (spec/41_word_arith.md R110 to R115): the model's operations are those of
`BitVec 32`, and a rotation moves bit i to bit i + n modulo 32. -/

namespace Sys2Proof.Machine

/-! Sum and difference are the library's, and the difference takes the sum back. -/

theorem add_eq_add (a b : Word) : add a b = a + b := rfl

theorem sub_eq_sub (a b : Word) : sub a b = a - b := rfl

/-- The 2^32 of R111 may be added before N(b) is taken off, for N(b) is below it. -/
theorem toNat_sub (a b : Word) : (sub a b).toNat = (2 ^ 32 + a.toNat - b.toNat) % 2 ^ 32 := by
  rw [sub_eq_sub, BitVec.toNat_sub, Nat.sub_add_comm b.isLt.le]

theorem sub_of_add (a b : Word) : sub (add a b) b = a := by
  rw [add_eq_add, sub_eq_sub, BitVec.add_sub_cancel]

/-- Settles O43: the model's operations are those of `BitVec 32`. -/
theorem wordArithmeticWraps : Obligations.WordArithmeticWraps := fun a b =>
  ⟨BitVec.toNat_add a b, toNat_sub a b, BitVec.toNat_mul a b, fun _ => BitVec.getLsbD_xor, sub_of_add a b⟩

/-! The rotations by the cases of their amount. -/

theorem rotl_of_mod_eq_zero (x : Word) (n : Nat) (h : n % 32 = 0) : rotl x n = x := if_pos h

theorem rotr_of_mod_eq_zero (x : Word) (n : Nat) (h : n % 32 = 0) : rotr x n = x := if_pos h

theorem rotl_of_mod_ne_zero (x : Word) (n : Nat) (h : n % 32 ≠ 0) :
    rotl x n = x <<< (n % 32) ||| x >>> (32 - n % 32) := if_neg h

theorem rotr_of_mod_ne_zero (x : Word) (n : Nat) (h : n % 32 ≠ 0) :
    rotr x n = x >>> (n % 32) ||| x <<< (32 - n % 32) := if_neg h

/-- Two shifts of a word in opposite directions, joined, as a number: only the left one can pass 2^32. -/
theorem toNat_shiftLeft_or_ushiftRight (x : Word) (s t : Nat) :
    (x <<< s ||| x >>> t).toNat = (x.toNat <<< s ||| x.toNat >>> t) % 2 ^ 32 := by
  have hright : x.toNat >>> t % 2 ^ 32 = x.toNat >>> t :=
    Nat.mod_eq_of_lt ((Nat.shiftRight_le _ _).trans_lt x.isLt)
  rw [BitVec.toNat_or, BitVec.toNat_shiftLeft, BitVec.toNat_ushiftRight, Nat.or_mod_two_pow, hright]

theorem toNat_rotl (x : Word) (n : Nat) (h : n % 32 ≠ 0) :
    (rotl x n).toNat = (x.toNat <<< (n % 32) ||| x.toNat >>> (32 - n % 32)) % 2 ^ 32 := by
  rw [rotl_of_mod_ne_zero x n h, toNat_shiftLeft_or_ushiftRight]

theorem toNat_rotr (x : Word) (n : Nat) (h : n % 32 ≠ 0) :
    (rotr x n).toNat = (x.toNat >>> (n % 32) ||| x.toNat <<< (32 - n % 32)) % 2 ^ 32 := by
  rw [rotr_of_mod_ne_zero x n h, BitVec.or_comm, toNat_shiftLeft_or_ushiftRight, Nat.lor_comm]

/-! Rotations compose. -/

/-- A rotation to the right is one to the left by what is missing to 32 (R115). -/
theorem rotr_eq_rotl (x : Word) (n : Nat) : rotr x n = rotl x ((32 - n % 32) % 32) := by
  by_cases h : n % 32 = 0
  · rw [rotr_of_mod_eq_zero x n h, rotl_of_mod_eq_zero x _ (by omega)]
  · have hamount : (32 - n % 32) % 32 % 32 = 32 - n % 32 := by omega
    have hback : 32 - (32 - n % 32) = n % 32 := by omega
    rw [rotr_of_mod_ne_zero x n h, rotl_of_mod_ne_zero x _ (by omega), hamount, hback, BitVec.or_comm]

/-- Bit i of x rotated left by n is bit i - n of x, modulo 32. -/
theorem getLsbD_rotl (x : Word) (n i : Nat) (hi : i < 32) :
    (rotl x n).getLsbD i = x.getLsbD ((i + (32 - n % 32)) % 32) := by
  by_cases h : n % 32 = 0
  · rw [rotl_of_mod_eq_zero x n h, h, Nat.sub_zero, Nat.add_mod_right, Nat.mod_eq_of_lt hi]
  · rw [rotl_of_mod_ne_zero x n h, BitVec.getLsbD_or, BitVec.getLsbD_shiftLeft, BitVec.getLsbD_ushiftRight]
    by_cases hs : i < n % 32
    · have hsrc : (i + (32 - n % 32)) % 32 = 32 - n % 32 + i := by omega
      simp [hs, hsrc]
    · have hsrc : (i + (32 - n % 32)) % 32 = i - n % 32 := by omega
      have hout : x.getLsbD (32 - n % 32 + i) = false := BitVec.getLsbD_of_ge x _ (by omega)
      simp [hi, hs, hsrc, hout]

theorem rotl_rotl (x : Word) (m n : Nat) : rotl (rotl x m) n = rotl x (m + n) := by
  apply BitVec.eq_of_getLsbD_eq
  intro i hi
  rw [getLsbD_rotl _ n i hi, getLsbD_rotl x m _ (Nat.mod_lt _ (by decide)), getLsbD_rotl x (m + n) i hi]
  congr 1
  omega

theorem rotr_rotl_cancel (x : Word) (n : Nat) : rotr (rotl x n) n = x := by
  rw [rotr_eq_rotl, rotl_rotl]
  exact rotl_of_mod_eq_zero x _ (by omega)

/-- Settles O44: each rotation by its cases, and rotr by the rotation to the left that it is. -/
theorem rotationsMoveTheBitPattern : Obligations.RotationsMoveTheBitPattern := fun x n =>
  ⟨toNat_rotl x n, rotl_of_mod_eq_zero x n, toNat_rotr x n, rotr_of_mod_eq_zero x n, rotr_rotl_cancel x n,
    rotr_eq_rotl x n⟩

end Sys2Proof.Machine
end

section
/-! PROOF. The key schedule as a function (spec/42_key_schedule.md R132 to R134): KeyInit and the mixing step. -/

namespace Sys2Proof.Machine

/-! KeyInit. -/

/-- Word i of the ramp is i times Q past its first word. -/
theorem toNat_getD_keyRamp (n i : Nat) (w : Word) (h : i < n) :
    ((keyRamp n w).getD i 0).toNat = (w.toNat + i * Config.magicQ.toNat) % 2 ^ 32 := by
  induction n generalizing i w with
  | zero => exact absurd h (Nat.not_lt_zero i)
  | succ n ih =>
    cases i with
    | zero =>
      rw [Nat.zero_mul]
      exact (Nat.mod_eq_of_lt w.isLt).symm
    | succ i =>
      have hnext : (add w Config.magicQ).toNat = (w.toNat + Config.magicQ.toNat) % 2 ^ 32 :=
        BitVec.toNat_add w Config.magicQ
      rw [keyRamp, List.getD_cons_succ, ih i _ (Nat.lt_of_succ_lt_succ h), hnext, Nat.mod_add_mod, Nat.succ_mul,
        Nat.add_assoc, Nat.add_comm (i * _)]

/-- Settles O47: KeyInit is the ramp that begins with P. -/
theorem keyInitIsTheRampOfPAndQ : Obligations.KeyInitIsTheRampOfPAndQ := fun r =>
  ⟨length_keyInit r, fun i hi => toNat_getD_keyRamp (2 * r + 4) i Config.magicP hi⟩

/-! Mixing. -/

theorem getD_set_self (xs : List Word) (i : Nat) (w : Word) (h : i < xs.length) : (xs.set i w).getD i 0 = w := by
  rw [List.getD_eq_getElem?_getD, List.getElem?_set_self h, Option.getD_some]

theorem getD_set_ne (xs : List Word) (i k : Nat) (w : Word) (h : k ≠ i) : (xs.set i w).getD k 0 = xs.getD k 0 := by
  rw [List.getD_eq_getElem?_getD, List.getElem?_set_ne h.symm, List.getD_eq_getElem?_getD]

/-- Only the amount modulo 32 counts (R114). -/
theorem rotl_mod (x : Word) (n : Nat) : rotl x (n % 32) = rotl x n := by
  simp only [rotl, Nat.mod_mod]

/-- A course of mixing steps is `mixTimes` at each of its steps. -/
theorem eq_mixTimes_of_course (t c m : Nat) (x : Nat → Mix) (hstep : ∀ n, n < m → x (n + 1) = mixStep t c (x n)) :
    x m = mixTimes t c m (x 0) := by
  induction m with
  | zero => rfl
  | succ m ih => rw [hstep m (Nat.lt_succ_self m), ih fun n hn => hstep n (Nat.lt_succ_of_lt hn), mixTimes_succ]

/-- Settles O48: what one step writes, and that any course of the steps is the one that KeyMix makes. -/
theorem mixingStepWritesOneWordOfEach : Obligations.MixingStepWritesOneWordOfEach := by
  refine ⟨fun t c x hi hj => ?_, fun table l r x hstart hstep => ?_, fun _ _ => rfl⟩
  · exact ⟨rfl, rotl_mod _ _, getD_set_self _ _ _ hi, getD_set_self _ _ _ hj, fun k hk => getD_set_ne _ _ k _ hk,
      fun k hk => getD_set_ne _ _ k _ hk, rfl, rfl⟩
  · rw [eq_mixTimes_of_course _ _ _ x hstep, hstart]
    rfl

end Sys2Proof.Machine
end

section
/-! PROOF. A bus error while EXPAND fetches its key (spec/42_key_schedule.md R131, spec/60_exceptions.md R210). -/

namespace Sys2Proof.Machine

theorem run_fetch_error (f a : Nat) (s : State) (hp : s.phase = .fetch)
    (ha : s.hidden.lk.keyaddr.toNat + s.hidden.kse.key.length = a) (hin : a < 2 ^ s.params.addrW)
    (hbad : s.answersError .read a = true) :
    run (1 + f) s = run f ((s.note (.read a none)).raiseError .bus (BitVec.ofNat 32 a)) := by
  subst ha
  rw [Nat.add_comm]
  exact run_next f s _ (canMove_of_phase s (by simp [hp]) (by simp [hp]))
    ((engineStep_fetch s hp).trans (memRead_error _ takeKeyByte s (decide_eq_true hin) hbad))

/-- An EXPAND accepted in `s` when it has fetched m bytes of its key, m below KEYLEN. -/
def State.midFetch (m : Nat) (s : State) : State :=
  (startExpand (s.accept (encode .expand))).keyFetched s.keyaddr.toNat (s.secret.take m)

theorem length_take_secret (m : Nat) (s : State) (hm : m < s.keylen.toNat) : (s.secret.take m).length = m := by
  rw [State.secret, Memory.take_readBytes _ _ _ _ hm.le, Memory.length_readBytes]

theorem phase_midFetch (m : Nat) (s : State) (hm : m < s.keylen.toNat) : (s.midFetch m).phase = .fetch :=
  if_pos (by rw [length_take_secret m s hm]; exact (Nat.zero_add m).trans_lt hm)

/-- The next byte that EXPAND fetches is byte m. -/
theorem fetchAddr_midFetch (m : Nat) (s : State) (hm : m < s.keylen.toNat) :
    (s.midFetch m).hidden.lk.keyaddr.toNat + (s.midFetch m).hidden.kse.key.length = s.keyaddr.toNat + m :=
  congrArg (s.keyaddr.toNat + ·) (length_take_secret m s hm)

/-- An EXPAND from acceptance to its m-th key byte: one step for the checks and one for each byte before it. -/
theorem run_to_midFetch (m f : Nat) (s : State) (h : s.KeyFits) (hm : m < s.keylen.toNat)
    (hok : s.answersAll .read s.keyaddr.toNat m) :
    run (1 + (m + f)) (s.accept (encode .expand)) = run f (s.midFetch m) := by
  rw [run_of_passed .expand s _ (expandChecks_of_fits s h), State.midFetch, State.secret,
    Memory.take_readBytes _ _ _ _ hm.le]
  exact run_fetches m f (startExpand (s.accept (encode .expand))) rfl h.keylen.1 ((Nat.zero_add m).trans_le hm.le)
    h.range rfl hok

/-- Settles O34: the course up to the failing read, and the error that ends it. -/
theorem busErrorWhileFetchingTheKey : Obligations.BusErrorWhileFetchingTheKey := by
  intro s m hbusy hpace hfits hm hok hbad
  have hin : s.keyaddr.toNat + m < 2 ^ s.params.addrW := (Nat.add_lt_add_left hm _).trans_le hfits.range
  have hbound : s.keylen.toNat + 8 ≤ (s.accept (encode .expand)).workBound := by
    simp only [State.workBound, State.accept_hidden, State.latches]
    omega
  rw [exec_of_idle .expand s hbusy]
  refine resume_of_run _ _ (1 + (m + 1)) hpace (by omega) rfl fun f => ?_
  rw [Nat.add_assoc, Nat.add_assoc, run_to_midFetch m (1 + f) s hfits hm hok]
  exact run_fetch_error f _ _ (phase_midFetch m s hm) (fetchAddr_midFetch m s hm) hin hbad

end Sys2Proof.Machine
end

section
/-! PROOF. The round transform as a function (spec/43_round_transform.md R150 to R153): its rounds in the operations of
`BitVec 32`, and that each part of RC6Dec undoes its part of RC6Enc and the other way round. -/

namespace Sys2Proof.Machine

/-! The word operations of a round, and how each is taken back. -/

theorem mul_eq_mul (a b : Word) : mul a b = a * b := rfl

theorem rotl_eq_rotateLeft (x : Word) (n : Nat) : rotl x n = x.rotateLeft n := by
  by_cases h : n % 32 = 0
  · have hout : x >>> 32 = 0#32 := BitVec.ushiftRight_eq_zero le_rfl
    rw [rotl_of_mod_eq_zero x n h, BitVec.rotateLeft, BitVec.rotateLeftAux, h, BitVec.shiftLeft_zero, Nat.sub_zero,
      hout, BitVec.or_zero]
  · exact rotl_of_mod_ne_zero x n h

theorem quad_eq (x : Word) : quad x = (x * (2 * x + 1)).rotateLeft 5 := by
  rw [quad, rotl_eq_rotateLeft, mul_eq_mul, mul_eq_mul, add_eq_add, BitVec.mul_comm x 2]

theorem add_of_sub (a b : Word) : add (sub a b) b = a := by
  rw [add_eq_add, sub_eq_sub, BitVec.sub_add_cancel]

theorem xor_of_xor (a b : Word) : xor (xor a b) b = a := by
  rw [xor, xor, BitVec.xor_assoc, BitVec.xor_self, BitVec.xor_zero]

theorem rotl_rotr_cancel (x : Word) (n : Nat) : rotl (rotr x n) n = x := by
  rw [rotr_eq_rotl, rotl_rotl]
  exact rotl_of_mod_eq_zero x _ (by omega)

/-! Each part of the transform is taken back by its counterpart. -/

theorem decFinal_encWhiten (table : List Word) (x : Block) : decFinal table (encWhiten table x) = x := by
  simp only [decFinal, encWhiten, sub_of_add]

theorem encWhiten_decFinal (table : List Word) (x : Block) : encWhiten table (decFinal table x) = x := by
  simp only [decFinal, encWhiten, add_of_sub]

theorem decWhiten_encFinal (table : List Word) (r : Nat) (x : Block) :
    decWhiten table r (encFinal table r x) = x := by
  simp only [decWhiten, encFinal, sub_of_add]

theorem encFinal_decWhiten (table : List Word) (r : Nat) (x : Block) :
    encFinal table r (decWhiten table r x) = x := by
  simp only [decWhiten, encFinal, add_of_sub]

/-- A round leaves B and D as they are but for their place, so its inverse finds the same t1 and u1. -/
theorem decRound_encRound (table : List Word) (i : Nat) (x : Block) :
    decRound table i (encRound table i x) = x := by
  simp only [decRound, encRound, unrotate, sub_of_add, rotr_rotl_cancel, xor_of_xor]

theorem encRound_decRound (table : List Word) (i : Nat) (x : Block) :
    encRound table i (decRound table i x) = x := by
  simp only [decRound, encRound, unrotate, xor_of_xor, rotl_rotr_cancel, add_of_sub]

/-- The last of some rounds by itself. -/
theorem encRounds_succ (table : List Word) (n i : Nat) (x : Block) :
    encRounds table (n + 1) i x = encRound table (i + n) (encRounds table n i x) := by
  induction n generalizing i x with
  | zero => rfl
  | succ n ih => rw [encRounds, ih, encRounds, Nat.add_right_comm, Nat.add_assoc]

theorem decRounds_encRounds (table : List Word) (r : Nat) (x : Block) :
    decRounds table r (encRounds table r 1 x) = x := by
  induction r with
  | zero => rfl
  | succ r ih => rw [encRounds_succ, decRounds, Nat.add_comm 1 r, decRound_encRound, ih]

theorem encRounds_decRounds (table : List Word) (r : Nat) (x : Block) :
    encRounds table r 1 (decRounds table r x) = x := by
  induction r generalizing x with
  | zero => rfl
  | succ r ih => rw [encRounds_succ, decRounds, ih, Nat.add_comm 1 r, encRound_decRound]

/-- R153, the first law. -/
theorem rc6Dec_rc6Enc (table : List Word) (r : Nat) (x : Block) : rc6Dec table r (rc6Enc table r x) = x := by
  rw [rc6Dec, rc6Enc, decWhiten_encFinal, decRounds_encRounds, decFinal_encWhiten]

/-- R153, the second law. -/
theorem rc6Enc_rc6Dec (table : List Word) (r : Nat) (x : Block) : rc6Enc table r (rc6Dec table r x) = x := by
  rw [rc6Dec, rc6Enc, encWhiten_decFinal, encRounds_decRounds, encFinal_decWhiten]

/-- The transforms of the two directions undo each other. -/
theorem transform_not_transform (d : Bool) (table : List Word) (r : Nat) (x : Block) :
    transform (!d) table r (transform d table r x) = x := by
  cases d with
  | false => exact rc6Dec_rc6Enc table r x
  | true => exact rc6Enc_rc6Dec table r x

/-! The rounds of R151 in the operations of 32-bit words. -/

theorem encRound_eq (table : List Word) (i : Nat) (x : Block) :
    encRound table i x =
      ⟨x.b, (x.c ^^^ quad x.d).rotateLeft ((quad x.b).toNat % 32) + table.getD (2 * i + 1) 0,
       x.d, (x.a ^^^ quad x.b).rotateLeft ((quad x.d).toNat % 32) + table.getD (2 * i) 0⟩ := by
  simp only [encRound, rotl_eq_rotateLeft, add_eq_add, xor, roundKey]

/-- A course of rounds from round 1 on is `encRounds` at each of its rounds. -/
theorem eq_encRounds_of_course (table : List Word) (r : Nat) (y : Nat → Block)
    (hround : ∀ i, i < r → y (i + 1) = encRound table (i + 1) (y i)) : y r = encRounds table r 1 (y 0) := by
  induction r with
  | zero => rfl
  | succ r ih =>
    rw [hround r (Nat.lt_succ_self r), ih fun i hi => hround i (Nat.lt_succ_of_lt hi), encRounds_succ,
      Nat.add_comm 1 r]

/-- Settles O49: any course of rounds is the one that RC6Enc makes, and RC6Dec takes it back part by part. -/
theorem decryptionInvertsEncryption : Obligations.DecryptionInvertsEncryption := by
  refine ⟨quad_eq, fun table r x y hstart hround => ?_,
    fun table r x => ⟨rc6Dec_rc6Enc table r x, rc6Enc_rc6Dec table r x⟩⟩
  have hcourse : y r = encRounds table r 1 (encWhiten table x) := by
    rw [eq_encRounds_of_course table r y fun i hi => (hround i hi).trans (encRound_eq table (i + 1) (y i)).symm, hstart]
    rfl
  rw [rc6Enc, ← hcourse]
  rfl

end Sys2Proof.Machine
end

section
/-! PROOF. ENCBLK and DECBLK from acceptance to completion (spec/43_round_transform.md R154, R155). -/

namespace Sys2Proof.Machine

/-- The check of a block command is that of KEYVALID (R207, R215). -/
theorem checksOf_blockCommand (d : Bool) : checksOf (blockCommand d) = blockChecks := by cases d <;> rfl

theorem startOf_blockCommand (d : Bool) (s : State) :
    startOf (blockCommand d) s = { s with phase := .whiten } := by cases d <;> rfl

/-- A block command accepted in `s` when its check has passed. -/
def State.blockStarted (d : Bool) (s : State) : State :=
  { s.accept (encode (blockCommand d)) with phase := .whiten }

theorem run_to_blockStarted (d : Bool) (s : State) (f : Nat) (hkey : s.status.keyvalid = true) :
    run (1 + f) (s.accept (encode (blockCommand d))) = run f (s.blockStarted d) := by
  have hpass : checksOf (blockCommand d) (s.accept (encode (blockCommand d))) = none := by
    rw [checksOf_blockCommand]
    exact if_pos hkey
  rw [run_of_passed _ s f hpass, startOf_blockCommand]
  rfl

theorem decrypts_blockStarted (d : Bool) (s : State) : (s.blockStarted d).hidden.lk.decrypts = d :=
  decrypts_blockCommand d s

theorem isBuffer_blockStarted (d : Bool) (s : State) : (s.blockStarted d).hidden.lk.isBuffer = false :=
  isBuffer_blockCommand d s

theorem r_blockStarted (d : Bool) (s : State) : (s.blockStarted d).r = s.r := rfl

/-- Its block is the latched DIN (R93). -/
theorem blockOperand_blockStarted (d : Bool) (s : State) : (s.blockStarted d).blockOperand = s.din := by
  rw [State.blockOperand, isBuffer_blockStarted]
  rfl

/-- The delivery of a block command's result, which is its completion. -/
theorem run_deliver_block (f : Nat) (s : State) (hp : s.phase = .deliver) (hbuf : s.hidden.lk.isBuffer = false) :
    run (1 + f) s = run f (s.deliverDout s.rteResult) := by
  have hdeliver : deliverStep s = s.deliverDout s.rteResult := by simp [deliverStep, hbuf]
  rw [Nat.add_comm, run_next f s _ (canMove_of_phase s (by simp [hp]) (by simp [hp])) (engineStep_deliver s hp),
    hdeliver]

/-- A block command with a table: the check, the transform of DIN in r + 1 steps, and the delivery. -/
theorem exec_blockCommand_of_key (d : Bool) (s : State) (hbusy : s.status.busy = false) (hpace : s.pace = none)
    (hkey : s.status.keyvalid = true) :
    exec (blockCommand d) s = .next { s.ended with dout := transform d s.table s.r s.din } := by
  obtain ⟨x, hx, hrun⟩ := run_transform (s.blockStarted d) rfl
  rw [decrypts_blockStarted, blockOperand_blockStarted, r_blockStarted] at hx
  rw [r_blockStarted] at hrun
  have hend : ((s.blockStarted d).rounded x).deliverDout (transform d s.table s.r s.din) =
      { s.ended with dout := transform d s.table s.r s.din } := rfl
  have hbound : s.r + 8 ≤ (s.accept (encode (blockCommand d))).workBound := by
    have hr : (s.accept (encode (blockCommand d))).r = s.r := rfl
    rw [State.workBound, hr]
    omega
  rw [exec_of_idle _ s hbusy, ← hend]
  refine resume_of_run _ _ (1 + (s.r + 1 + 1)) hpace (by omega) rfl fun f => ?_
  rw [Nat.add_assoc, run_to_blockStarted d s _ hkey, Nat.add_assoc, hrun,
    run_deliver_block f ((s.blockStarted d).rounded x) rfl (isBuffer_blockStarted d s), hx]
  rfl

/-- A block command without a table (R207). -/
theorem exec_blockCommand_of_no_key (d : Bool) (s : State) (hbusy : s.status.busy = false) (hruns : s.engineRuns)
    (hkey : s.status.keyvalid = false) : exec (blockCommand d) s = .next (s.endedWith .noKey 0) := by
  refine exec_of_failed _ s _ _ hbusy hruns ?_
  rw [checksOf_blockCommand]
  exact if_neg (Bool.eq_false_iff.1 hkey)

theorem engineRuns_of_unpaced {s : State} (h : s.pace = none) : s.engineRuns := by
  rw [State.engineRuns, h]
  exact nofun

/-- Settles O27, by the two cases of KEYVALID. -/
theorem encblkEncryptsDinIntoDout : Obligations.EncblkEncryptsDinIntoDout := fun s hbusy hpace =>
  ⟨exec_blockCommand_of_key false s hbusy hpace,
    exec_blockCommand_of_no_key false s hbusy (engineRuns_of_unpaced hpace)⟩

/-- Settles O28, by the two cases of KEYVALID; ENCBLK leaves the table, RLATCH and KEYVALID that DECBLK takes. -/
theorem decblkDecryptsDinIntoDout : Obligations.DecblkDecryptsDinIntoDout := by
  refine fun s hbusy hpace => ⟨fun hkey => ⟨exec_blockCommand_of_key true s hbusy hpace hkey, fun t u ht hu => ?_⟩,
    exec_blockCommand_of_no_key true s hbusy (engineRuns_of_unpaced hpace)⟩
  have hdec := exec_blockCommand_of_key true { t with din := t.dout }
  obtain rfl := Host.Outcome.next.inj ((exec_blockCommand_of_key false s hbusy hpace hkey).symm.trans ht)
  obtain rfl := Host.Outcome.next.inj ((hdec rfl hpace hkey).symm.trans hu)
  exact transform_not_transform false s.table s.r s.din

end Sys2Proof.Machine
end

section
/-! PROOF. A buffer command and then its inverse on what it wrote (spec/44_block_processor.md R184). -/

namespace Sys2Proof.Machine

/-! Memory. -/

/-- Writing back the bytes of a range restores a memory that has changed there only. -/
theorem Memory.writeBytes_readBytes (m m' : Memory) (a n : Nat) (h : m.wf = true) (h' : m'.wf = true)
    (hout : ∀ y, y < a ∨ a + n ≤ y → m'.read y = m.read y) : m'.writeBytes a (m.readBytes a n) = m := by
  refine Memory.ext _ _ (Memory.wf_writeBytes _ _ _ h') h fun y => ?_
  by_cases hy : y < a ∨ a + n ≤ y
  · rw [Memory.read_writeBytes_other _ _ _ _ (by rwa [Memory.length_readBytes]), hout y hy]
  · obtain ⟨k, rfl⟩ := Nat.exists_eq_add_of_le (Nat.le_of_not_lt fun hlt => hy (.inl hlt))
    have hk : k < (m.readBytes a n).length := by rw [Memory.length_readBytes]; omega
    rw [Memory.read_writeBytes_same _ _ _ _ h' hk, Memory.getElem_readBytes]

/-! The bytes of a buffer command on the result of its inverse. -/

theorem resultBlock_of_inverse {s t : State} (d : Bool) (k : Nat) (htable : t.table = s.table) (hr : t.r = s.r)
    (h : t.sourceBlock k = s.resultBlock d k) : t.resultBlock (!d) k = s.sourceBlock k := by
  rw [State.resultBlock, htable, hr, h, State.resultBlock, blockOfBytes_bytesOfBlock, transform_not_transform,
    bytesOfBlock_blockOfBytes _ (length_sourceBlock s k)]

/-- The inverse transform of result bytes gives the source bytes they come from (R153, R170). -/
theorem resultBytes_of_inverse {s t : State} (d : Bool) (n : Nat) (htable : t.table = s.table) (hr : t.r = s.r)
    (h : t.mem.readBytes t.src.toNat (Config.blockBytes * n) = s.resultBytes d n) :
    t.resultBytes (!d) n = s.mem.readBytes s.src.toNat (Config.blockBytes * n) := by
  induction n with
  | zero => rfl
  | succ n ih =>
    rw [Nat.mul_succ, Memory.readBytes_append, resultBytes_succ] at h
    obtain ⟨hfirst, hlast⟩ := List.append_inj h (by simp)
    rw [resultBytes_succ, ih hfirst, resultBlock_of_inverse d n htable hr hlast, Nat.mul_succ, Memory.readBytes_append]
    rfl

/-! What ENC, DEC, ENCI and DECI leave. -/

theorem blockBytes_mul_bufferBlocks {x : Modes} {s : State} (h : s.BufferFits x) :
    Config.blockBytes * s.bufferBlocks = s.len.toNat := Nat.mul_div_cancel' (Nat.dvd_of_mod_eq_zero h.whole)

/-- A command that does not stream writes its result bytes. -/
theorem mem_processed (d i : Bool) (s : State) : (s.processed ⟨d, i, false⟩).mem =
    s.mem.writeBytes (Modes.out ⟨d, i, false⟩ s) (s.resultBytes d s.bufferBlocks) := if_pos (Bool.or_true i)

/-- They are then the bytes of its target range. -/
theorem readBytes_processed {d i : Bool} {s : State} (hwf : s.mem.wf = true) (hfit : s.BufferFits ⟨d, i, false⟩) :
    (s.processed ⟨d, i, false⟩).mem.readBytes (Modes.out ⟨d, i, false⟩ s) s.len.toNat =
      s.resultBytes d s.bufferBlocks := by
  rw [mem_processed, ← blockBytes_mul_bufferBlocks hfit, ← length_resultBytes d s,
    Memory.readBytes_writeBytes _ _ _ hwf]

theorem wf_processed (d i : Bool) (s : State) (hwf : s.mem.wf = true) :
    (s.processed ⟨d, i, false⟩).mem.wf = true := by
  rw [mem_processed]
  exact Memory.wf_writeBytes _ _ _ hwf

theorem read_processed_other {d i : Bool} {s : State} (hfit : s.BufferFits ⟨d, i, false⟩) (y : Nat)
    (hy : y < Modes.out ⟨d, i, false⟩ s ∨ Modes.out ⟨d, i, false⟩ s + s.len.toNat ≤ y) :
    (s.processed ⟨d, i, false⟩).mem.read y = s.mem.read y := by
  rw [mem_processed, Memory.read_writeBytes_other]
  rwa [length_resultBytes, blockBytes_mul_bufferBlocks hfit]

/-- The source range in `t` holds the result bytes of direction `d` that `s` gives, and a command in `t` works on it
with the same table, RLATCH and LEN. -/
structure State.TakesResult (d : Bool) (s t : State) : Prop where
  table : t.table = s.table
  rlatch : t.rlatch = s.rlatch
  len : t.len = s.len
  source : t.mem.readBytes t.src.toNat s.len.toNat = s.resultBytes d s.bufferBlocks

/-- The result bytes of the inverse direction are then the source bytes in `s`. -/
theorem State.TakesResult.resultBytes_inverse {d i : Bool} {s t : State} (h : State.TakesResult d s t)
    (hfit : s.BufferFits ⟨d, i, false⟩) :
    t.resultBytes (!d) t.bufferBlocks = s.mem.readBytes s.src.toNat s.len.toNat := by
  have hblocks : t.bufferBlocks = s.bufferBlocks := by rw [State.bufferBlocks, h.len, State.bufferBlocks]
  have hr : t.r = s.r := by rw [State.r, h.rlatch, State.r]
  have hsource := h.source
  rw [← blockBytes_mul_bufferBlocks hfit] at hsource ⊢
  rw [hblocks, resultBytes_of_inverse d _ h.table hr hsource]

/-! The obligations. -/

/-- An in-place command leaves a state that is ready for its inverse. -/
theorem State.Ready.inverse_inPlace {d : Bool} {s : State} (h : s.Ready ⟨d, true, false⟩) :
    (s.processed ⟨d, true, false⟩).Ready ⟨!d, true, false⟩ :=
  { whole := h.whole, source := h.source, target := h.target, apart := nofun, idle := rfl, unpaced := h.unpaced
    key := h.key, reads := h.reads, writes := h.writes, sink := nofun }

/-- Settles O41: the second command writes the bytes of SRC before both, and nothing else has changed. -/
theorem inPlaceRoundTripRestoresMemory : Obligations.InPlaceRoundTripRestoresMemory := by
  intro s t u d hwf hs ht hu
  have hfit := hs.toBufferFits
  obtain rfl := Host.Outcome.next.inj ((exec_bufferCommand_of_ready false true d s hs).symm.trans ht)
  obtain rfl := Host.Outcome.next.inj ((exec_bufferCommand_of_ready false true (!d) _ hs.inverse_inPlace).symm.trans hu)
  have htakes : State.TakesResult d s (s.processed ⟨d, true, false⟩) := ⟨rfl, rfl, rfl, readBytes_processed hwf hfit⟩
  rw [mem_processed, htakes.resultBytes_inverse hfit]
  exact Memory.writeBytes_readBytes _ _ _ _ hwf (wf_processed d true s hwf) (read_processed_other hfit)

/-- Settles O42: what the first copy leaves at Y is the source of the second, whose result is then X's bytes. -/
theorem copyRoundTripRestoresTheBuffer : Obligations.CopyRoundTripRestoresTheBuffer := by
  intro s t u z d hwf hs ht hready hu
  have hfit := hs.toBufferFits
  obtain rfl := Host.Outcome.next.inj ((exec_bufferCommand_of_ready false false (!d) _ hready).symm.trans hu)
  obtain rfl := Host.Outcome.next.inj ((exec_bufferCommand_of_ready false false d s hs).symm.trans ht)
  have htakes : State.TakesResult d s { s.processed ⟨d, false, false⟩ with src := s.dst, dst := z } :=
    ⟨rfl, rfl, rfl, readBytes_processed hwf hfit⟩
  rw [← htakes.resultBytes_inverse hfit]
  exact readBytes_processed (wf_processed d false s hwf) hready.toBufferFits

end Sys2Proof.Machine
end

section
/-! PROOF. Buffer commands that reach no block: those without a table, and those of an empty buffer
(spec/44_block_processor.md R180, spec/60_exceptions.md R207). -/

namespace Sys2Proof.Machine

/-- Operands of one source range fit, and for a copy those of two ranges that share no byte (R67, R209). -/
theorem bufferFits_of_ranges (m i d : Bool) (s : State) (hwhole : s.len.toNat % Config.blockBytes = 0)
    (hsrc : s.src.toNat + s.len.toNat ≤ 2 ^ s.params.addrW)
    (hcopy : (m || i) = false → s.dst.toNat + s.len.toNat ≤ 2 ^ s.params.addrW ∧
      (s.len.toNat = 0 ∨ s.dst.toNat + s.len.toNat ≤ s.src.toNat ∨ s.src.toNat + s.len.toNat ≤ s.dst.toNat)) :
    s.BufferFits ⟨d, i, m⟩ where
  whole := hwhole
  source := hsrc
  target hw := by
    cases i with
    | true => exact hsrc
    | false => exact (hcopy (by simpa [Modes.writes] using hw)).1
  apart hw hi hlen := by
    have hm : (m || i) = false := by simpa [Modes.writes, show i = false from hi] using hw
    have hdisjoint := (hcopy hm).2
    omega

/-- KEYVALID is the last check of a buffer command (R215): where all pass, only it fails without a table. -/
theorem checksOf_of_no_key (m i d : Bool) (s : State) (x : Status) (hx : x.keyvalid = false)
    (h : checksOf (bufferCommand m i d) s = none) :
    checksOf (bufferCommand m i d) { s with status := x } = some (.noKey, 0) := by
  rw [checksOf_bufferCommand_eq] at h ⊢
  cases hkind : m || i <;> simp only [hkind, if_true, Bool.false_eq_true, if_false] at h ⊢
  · unfold copyChecks at h ⊢
    split_ifs at h
    simp [*]
  · unfold sourceChecks at h ⊢
    split_ifs at h
    simp [*]

/-- A buffer command whose operands fit, without a table (R207). -/
theorem exec_bufferCommand_of_no_key (m i d : Bool) (s : State) (hfit : s.BufferFits ⟨d, i, m⟩)
    (hbusy : s.status.busy = false) (hruns : s.engineRuns) (hkey : s.status.keyvalid = false) :
    exec (bufferCommand m i d) s = .next (s.endedWith .noKey 0) :=
  exec_of_failed _ s _ _ hbusy hruns <| checksOf_of_no_key m i d _ s.status.accepted hkey <|
    checksOf_bufferCommand m i d { s with status := { s.status with keyvalid := true } }
      ⟨hfit.whole, hfit.source, hfit.target, hfit.apart⟩ rfl

/-- A buffer command of no blocks, with a table: its checks, and then the completion. -/
theorem exec_bufferCommand_of_empty (m i d : Bool) (s : State) (hfit : s.BufferFits ⟨d, i, m⟩)
    (hbusy : s.status.busy = false) (hpace : s.pace = none) (hkey : s.status.keyvalid = true) (hlen : s.len = 0) :
    exec (bufferCommand m i d) s = .next s.ended := by
  have hblocks : ((s.accept (encode (bufferCommand m i d))).toBlock 0).phase = .finish :=
    if_neg (by simp [State.latches, Latches.blocks, hlen])
  have hend : ((s.accept (encode (bufferCommand m i d))).toBlock 0).complete = s.ended := rfl
  have hbound := workBound_accept (encode (bufferCommand m i d)) s 0 (Nat.zero_le _)
  rw [exec_of_idle _ s hbusy, ← hend]
  refine resume_of_run _ _ (1 + 1) hpace (by omega) rfl fun f => ?_
  rw [Nat.add_assoc, run_of_passed _ s _ (checksOf_bufferCommand m i d s hfit hkey), startOf_bufferCommand,
    run_finish _ f hblocks]

/-- The six buffer commands of one range are those that stream or work in place (R91). -/
theorem exists_sourceCommand : ∀ i ∈ [Instr.enci, .deci, .encs, .decs, .encis, .decis],
    ∃ m p d, i = bufferCommand m p d ∧ (m || p) = true := by decide

theorem exists_copyCommand : ∀ i ∈ [Instr.enc, .dec], ∃ d, i = bufferCommand false false d := by decide

theorem copyCommand_mem : ∀ m p d, (m || p) = false → bufferCommand m p d ∈ [Instr.enc, .dec] := by decide

/-- Settles O25: KEYVALID is the check that is left. -/
theorem noTableIsRejected : Obligations.NoTableIsRejected := by
  intro s hbusy hruns hkey
  refine ⟨exec_blockCommand_of_no_key false s hbusy hruns hkey, exec_blockCommand_of_no_key true s hbusy hruns hkey,
    fun hlen hsrc i hi => ?_, fun hlen hsrc hdst hapart i hi => ?_⟩
  · obtain ⟨m, p, d, rfl, hone⟩ := exists_sourceCommand i hi
    have hfit := bufferFits_of_ranges m p d s hlen hsrc fun htwo => absurd (hone.symm.trans htwo) (by decide)
    exact exec_bufferCommand_of_no_key m p d s hfit hbusy hruns hkey
  · obtain ⟨d, rfl⟩ := exists_copyCommand i hi
    have hfit := bufferFits_of_ranges false false d s hlen hsrc fun _ => ⟨hdst, hapart⟩
    exact exec_bufferCommand_of_no_key false false d s hfit hbusy hruns hkey

/-- Settles O33: an empty range fits wherever it starts inside the memory space, as every register value does with
32 address bits or more. -/
theorem emptyBufferCompletesWithNoAccess : Obligations.EmptyBufferCompletesWithNoAccess := by
  intro s hbusy hpace hlen i hi hranges
  obtain ⟨m, p, d, rfl⟩ := exists_bufferCommand i hi
  have hzero : s.len.toNat = 0 := by rw [hlen]; rfl
  have hwide (a : Word) (hw : 32 ≤ s.params.addrW) : a.toNat ≤ 2 ^ s.params.addrW :=
    a.isLt.le.trans (Nat.pow_le_pow_right (by decide) hw)
  have hsrc : s.src.toNat ≤ 2 ^ s.params.addrW := hranges.elim (hwide s.src) And.left
  have hdst (hcopy : (m || p) = false) : s.dst.toNat ≤ 2 ^ s.params.addrW :=
    hranges.elim (hwide s.dst) fun h => h.2 (copyCommand_mem m p d hcopy)
  have hfit := bufferFits_of_ranges m p d s (by rw [hzero]; rfl) (by omega) fun hcopy =>
    ⟨by have := hdst hcopy; omega, .inl hzero⟩
  exact ⟨fun hkey => exec_bufferCommand_of_empty m p d s hfit hbusy hpace hkey hlen,
    exec_bufferCommand_of_no_key m p d s hfit hbusy (engineRuns_of_unpaced hpace)⟩

end Sys2Proof.Machine
end

section
/-! PROOF. The bytes that a buffer command writes and the chunks that it emits are the results of its blocks
(spec/44_block_processor.md R179, R182). -/

namespace Sys2Proof.Machine

/-- A command that writes memory leaves its result bytes in its target range. -/
theorem readBytes_target_processed {x : Modes} {s : State} (hwf : s.mem.wf = true) (hfit : s.BufferFits x)
    (hw : x.writes = true) :
    (s.processed x).mem.readBytes (x.out s) s.len.toNat = s.resultBytes x.decrypt s.bufferBlocks := by
  have hmem : (s.processed x).mem = s.mem.writeBytes (x.out s) (s.resultBytes x.decrypt s.bufferBlocks) := if_pos hw
  rw [hmem, ← blockBytes_mul_bufferBlocks hfit, ← length_resultBytes x.decrypt s,
    Memory.readBytes_writeBytes _ _ _ hwf]

/-- The chunks that a buffer command emits. -/
def State.chunks (x : Modes) (s : State) : List (List Byte) :=
  if x.stream then (List.range s.bufferBlocks).map (s.resultBlock x.decrypt) else []

/-- A block's events hold no chunk unless the command streams. -/
theorem blockEvents_silent {x : Modes} (hx : x.stream = false) (s : State) (k : Nat) :
    ∀ e ∈ s.blockEvents x k, ∀ chunk, e ≠ .emit chunk := by
  simpa [State.blockEvents, hx] using accessEvents_silent (s.src.toNat + Config.blockBytes * k)
    (x.out s + Config.blockBytes * k) (s.sourceBlock k) (s.resultBlock x.decrypt k) x.writes

theorem sunk_processed (x : Modes) (s : State) : (s.processed x).sunk = s.sunk ++ s.chunks x := by
  cases hx : x.stream with
  | true => exact (sunk_of_bufferEvents x hx _ rfl).trans (by rw [State.chunks, if_pos hx])
  | false =>
    have hsilent : ∀ e ∈ (List.range s.bufferBlocks).flatMap (s.blockEvents x), ∀ chunk, e ≠ .emit chunk := by
      intro e he
      obtain ⟨k, -, hk⟩ := List.mem_flatMap.1 he
      exact blockEvents_silent hx s k e hk
    rw [sunk_of_silent _ hsilent rfl, State.chunks, hx]
    exact (List.append_nil _).symm

/-- The chunks that a buffer command adds. -/
theorem drop_sunk_processed (x : Modes) (s : State) : (s.processed x).sunk.drop s.sunk.length = s.chunks x := by
  rw [sunk_processed, List.drop_left]

/-- The chunks of a stream command, one after the other, are its result bytes. -/
theorem flatten_chunks {x : Modes} (hx : x.stream = true) (s : State) :
    (s.chunks x).flatten = s.resultBytes x.decrypt s.bufferBlocks := by
  rw [State.chunks, if_pos hx, State.resultBytes, List.flatMap_def]

/-- Settles O39: the bytes of all three commands are the result bytes of the one direction. -/
theorem streamedChunksAreTheCopiedBytes : Obligations.StreamedChunksAreTheCopiedBytes := by
  intro s t u v d hwf hcopy hstream hboth ht hu hv
  obtain rfl := Host.Outcome.next.inj ((exec_bufferCommand_of_ready false false d s hcopy).symm.trans ht)
  obtain rfl := Host.Outcome.next.inj ((exec_bufferCommand_of_ready true false d s hstream).symm.trans hu)
  obtain rfl := Host.Outcome.next.inj ((exec_bufferCommand_of_ready true true d s hboth).symm.trans hv)
  have hcopied : (s.processed ⟨d, false, false⟩).mem.readBytes s.dst.toNat s.len.toNat =
      s.resultBytes d s.bufferBlocks := readBytes_target_processed hwf hcopy.toBufferFits rfl
  have hwritten : (s.processed ⟨d, true, true⟩).mem.readBytes s.src.toNat s.len.toNat =
      s.resultBytes d s.bufferBlocks := readBytes_target_processed hwf hboth.toBufferFits rfl
  simp only [drop_sunk_processed]
  rw [hcopied]
  exact ⟨sunk_processed _ s, flatten_chunks rfl s, flatten_chunks rfl s, hwritten⟩

/-! Part of a buffer. -/

/-- An address of the memory space fits its register, so the sum does not wrap (R8, R67). -/
theorem toNat_add_of_inside {p : Params} {a n : Word} (hp : p.wellFormed = true)
    (h : a.toNat + n.toNat < 2 ^ p.addrW) : (a + n).toNat = a.toNat + n.toNat := by
  simp only [Params.wellFormed, Bool.and_eq_true, decide_eq_true_eq] at hp
  rw [BitVec.toNat_add]
  exact Nat.mod_eq_of_lt (h.trans_le (Nat.pow_le_pow_right (by decide) hp.2))

/-- The buffer command's operands for `n` bytes of its source range, from `a` up. -/
def State.part (a n : Word) (s : State) : State := { s with src := a, len := n }

/-- The target range of the part lies in that of the whole. -/
theorem out_part (x : Modes) {s : State} {a n : Word} (hlow : s.src.toNat ≤ a.toNat)
    (hhigh : a.toNat + n.toNat ≤ s.src.toNat + s.len.toNat) :
    x.out s ≤ x.out (s.part a n) ∧ x.out (s.part a n) + n.toNat ≤ x.out s + s.len.toNat := by
  unfold Modes.out
  cases x.inPlace with
  | true => exact ⟨hlow, hhigh⟩
  | false => exact ⟨le_rfl, by simp only [State.part, Bool.false_eq_true, if_false]; omega⟩

/-- A command that is ready for a buffer is ready for whole blocks of it. -/
theorem State.Ready.part {x : Modes} {s : State} {a n : Word} (hs : s.Ready x)
    (hwhole : n.toNat % Config.blockBytes = 0) (hlow : s.src.toNat ≤ a.toNat)
    (hhigh : a.toNat + n.toNat ≤ s.src.toNat + s.len.toNat) : (s.part a n).Ready x := by
  obtain ⟨hfirst, hlast⟩ := out_part x hlow hhigh
  exact
    { whole := hwhole
      source := hhigh.trans hs.source
      target := fun hw => hlast.trans (hs.target hw)
      apart := fun hw hi hn => by
        have hdisjoint := hs.apart hw hi
        simp only [State.part] at hn ⊢
        omega
      idle := hs.idle
      unpaced := hs.unpaced
      key := hs.key
      reads := hs.reads.mono hlow hhigh
      writes := fun hw => (hs.writes hw).mono hfirst hlast
      sink := hs.sink }

/-- The blocks of a part are blocks of the whole (R170, R179). -/
theorem resultBlock_part (d : Bool) (s : State) (a n : Word) (j k : Nat)
    (ha : a.toNat + Config.blockBytes * j = s.src.toNat + Config.blockBytes * k) :
    (s.part a n).resultBlock d j = s.resultBlock d k := by
  have hsource : (s.part a n).sourceBlock j = s.sourceBlock k := by
    rw [State.sourceBlock, State.sourceBlock, ← ha]
    rfl
  rw [State.resultBlock, hsource]
  rfl

/-- The result bytes and the chunks of a two-block buffer are those of its halves. -/
theorem results_of_halves (x : Modes) {s u v : State} (hs : s.bufferBlocks = 2) (hu : u.bufferBlocks = 1)
    (hv : v.bufferBlocks = 1) (hfirst : u.resultBlock x.decrypt 0 = s.resultBlock x.decrypt 0)
    (hsecond : v.resultBlock x.decrypt 0 = s.resultBlock x.decrypt 1) :
    s.resultBytes x.decrypt s.bufferBlocks =
        u.resultBytes x.decrypt u.bufferBlocks ++ v.resultBytes x.decrypt v.bufferBlocks ∧
      s.chunks x = u.chunks x ++ v.chunks x := by
  rw [State.chunks, State.chunks, State.chunks, hs, hu, hv]
  refine ⟨by simp [State.resultBytes, List.range_succ, hfirst, hsecond], ?_⟩
  split_ifs
  · simp [List.range_succ, hfirst, hsecond]
  · rfl

/-- Settles O40: the three commands write and emit the results of blocks 0 and 1, of block 0, and of block 1. -/
theorem blocksAreTransformedIndependently : Obligations.BlocksAreTransformedIndependently := by
  intro s s0 s1 t t0 t1 d i st hp hwf hlen hs h0 h1 ht ht0 ht1
  have hbytes : s.len.toNat = 32 := by rw [hlen]; rfl
  have hend := hs.source
  have hsrc : (s.src + 16).toNat = s.src.toNat + 16 := toNat_add_of_inside hp (by simp; omega)
  have hready0 : (s.part s.src 16).Ready ⟨d, i, st⟩ := hs.part rfl le_rfl (by simp; omega)
  have hready1 : (s.part (s.src + 16) 16).Ready ⟨d, i, st⟩ := hs.part rfl (by omega) (by simp; omega)
  obtain rfl : s0 = s.part s.src 16 := h0
  obtain rfl : s1 = s.part (s.src + 16) 16 := h1
  obtain rfl := Host.Outcome.next.inj ((exec_bufferCommand_of_ready st i d s hs).symm.trans ht)
  obtain rfl := Host.Outcome.next.inj ((exec_bufferCommand_of_ready st i d _ hready0).symm.trans ht0)
  obtain rfl := Host.Outcome.next.inj ((exec_bufferCommand_of_ready st i d _ hready1).symm.trans ht1)
  have htwo : s.bufferBlocks = 2 := by rw [State.bufferBlocks, hbytes]; rfl
  have hone (a : Word) : (s.part a 16).bufferBlocks = 1 := by simp [State.bufferBlocks, State.part, Config.blockBytes]
  obtain ⟨hresults, hchunks⟩ := results_of_halves ⟨d, i, st⟩ htwo (hone s.src) (hone (s.src + 16))
    (resultBlock_part d s _ _ 0 0 rfl) (resultBlock_part d s _ _ 0 1 (by rw [hsrc]; rfl))
  refine ⟨fun hw => ?_, ?_⟩
  · have hwhole := readBytes_target_processed hwf hs.toBufferFits hw
    have hfirst := readBytes_target_processed (s := s.part s.src 16) hwf hready0.toBufferFits hw
    have hsecond := readBytes_target_processed (s := s.part (s.src + 16) 16) hwf hready1.toBufferFits hw
    rw [hbytes, hresults, ← hfirst, ← hsecond] at hwhole
    exact hwhole
  · exact (drop_sunk_processed _ s).trans <| hchunks.trans <|
      congrArg₂ (· ++ ·) (drop_sunk_processed _ (s.part s.src 16)).symm
        (drop_sunk_processed _ (s.part (s.src + 16) 16)).symm

end Sys2Proof.Machine
end

section
/-! PROOF. Every loop of the engine has a bound fixed at acceptance (spec/44_block_processor.md R183): a measure of the
steps that the running command still has, which each step decreases and the engine's share covers. -/

namespace Sys2Proof.Machine

/-! The measure. -/

/-- The rounds that the RTE still makes of its block (R151, R152). -/
def State.roundsLeft (s : State) : Nat :=
  if s.hidden.lk.decrypts then s.hidden.rte.i else s.r + 1 - s.hidden.rte.i

/-- At most so many steps for the blocks of a buffer command from block k on, and its completion (R170). -/
def State.stepsFrom (k : Nat) (s : State) : Nat := (s.hidden.lk.blocks - k) * (s.r + 36) + 1

/-- At most so many steps once the RTE has delivered its block: none for ENCBLK and DECBLK. -/
def State.stepsDelivered (s : State) : Nat :=
  if s.hidden.lk.isBuffer then 18 + s.stepsFrom (s.hidden.bsp.k + 1) else 0

/-- The steps of EXPAND from INIT on: INIT, the mixing steps of R133, COMMIT and the completion. -/
def State.scheduleSteps (s : State) : Nat :=
  mixSteps (keyWords s.hidden.lk.keylen.toNat) (tableWords s.hidden.lk.r) + 3

/-- At most so many steps to the end of the running command from a phase. -/
def State.stepsLeftAt (s : State) : Phase → Nat
  | .idle => 0
  | .check => s.workBound
  | .fetch => s.hidden.lk.keylen.toNat - s.hidden.kse.key.length + s.scheduleSteps
  | .init => s.scheduleSteps
  | .mix => mixSteps s.hidden.kse.l.length (tableWords s.hidden.lk.r) - s.hidden.kse.s + 2
  | .commit => 2
  | .read => Config.blockBytes - s.hidden.bsp.inp.length + (s.r + 2) + s.stepsDelivered
  | .whiten => s.r + 2 + s.stepsDelivered
  | .round => s.roundsLeft + 1 + s.stepsDelivered
  | .deliver => 1 + s.stepsDelivered
  | .write => Config.blockBytes - s.hidden.bsp.m + 2 + s.stepsFrom (s.hidden.bsp.k + 1)
  | .offer => 2 + s.stepsFrom (s.hidden.bsp.k + 1)
  | .hold => 1 + s.stepsFrom (s.hidden.bsp.k + 1)
  | .finish => 1

/-- At most so many steps to the end of the running command. -/
def State.stepsLeft (s : State) : Nat := s.stepsLeftAt s.phase

theorem stepsLeft_eq {s : State} {p : Phase} {n : Nat} (h : s.phase = p) (hn : s.stepsLeftAt p = n) :
    s.stepsLeft = n := by
  rw [State.stepsLeft, h, hn]

/-- A command that runs has a step to make. -/
theorem stepsLeft_pos {s : State} (h : s.phase ≠ .idle) : 0 < s.stepsLeft := by
  unfold State.stepsLeft
  cases hp : s.phase
  case idle => exact absurd hp h
  all_goals
    simp only [State.stepsLeftAt, State.workBound, State.scheduleSteps, State.stepsFrom]
    omega

/-- The phase, the hidden registers and RLATCH decide. -/
theorem stepsLeft_congr {s t : State} (hphase : t.phase = s.phase) (hhidden : t.hidden = s.hidden) (hr : t.r = s.r) :
    t.stepsLeft = s.stepsLeft := by
  rw [State.stepsLeft, State.stepsLeft, hphase]
  cases s.phase <;>
    simp only [State.stepsLeftAt, State.workBound, State.scheduleSteps, State.stepsDelivered, State.stepsFrom,
      State.roundsLeft, hhidden, hr]

/-! The blocks of a buffer command. -/

theorem stepsDelivered_le (s : State) : s.stepsDelivered ≤ 18 + s.stepsFrom (s.hidden.bsp.k + 1) := by
  unfold State.stepsDelivered
  split_ifs
  · exact le_rfl
  · exact Nat.zero_le _

/-- A block takes at most r + 36 steps. -/
theorem stepsFrom_of_lt {k : Nat} {s : State} (hk : k < s.hidden.lk.blocks) :
    s.stepsFrom k = s.r + 36 + s.stepsFrom (k + 1) := by
  have hsub : s.hidden.lk.blocks - k = s.hidden.lk.blocks - (k + 1) + 1 := by omega
  rw [State.stepsFrom, hsub, Nat.succ_mul, State.stepsFrom]
  omega

theorem stepsFrom_lt_workBound (k : Nat) (s : State) : s.stepsFrom k < s.workBound := by
  have hblocks : (s.hidden.lk.blocks - k) * (s.r + 36) ≤ s.hidden.lk.blocks * (s.r + 40) :=
    Nat.mul_le_mul (Nat.sub_le _ _) (by omega)
  unfold State.stepsFrom State.workBound
  omega

theorem stepsLeft_toBlock (k : Nat) (s : State) : (s.toBlock k).stepsLeft ≤ s.stepsFrom k := by
  by_cases hk : k < s.hidden.lk.blocks
  · have hread : (s.toBlock k).stepsLeft = 16 + (s.r + 2) + (s.toBlock k).stepsDelivered :=
      stepsLeft_eq (if_pos hk) rfl
    have hdelivered : (s.toBlock k).stepsDelivered ≤ 18 + s.stepsFrom (k + 1) := stepsDelivered_le (s.toBlock k)
    have hblock := stepsFrom_of_lt hk
    omega
  · exact (stepsLeft_eq (if_neg hk) rfl).trans_le (Nat.le_add_left 1 _)

theorem stepsLeft_blockDone (s : State) : s.blockDone.stepsLeft ≤ s.stepsFrom (s.hidden.bsp.k + 1) :=
  stepsLeft_toBlock _ s

/-! The transform of a block. -/

theorem phase_whitenStep (s : State) : (whitenStep s).phase = if s.r = 0 then .deliver else .round := by
  unfold whitenStep
  cases s.hidden.lk.decrypts <;> rfl

/-- The first whitening leaves all r rounds, in both directions. -/
theorem roundsLeft_whitenStep (s : State) : (whitenStep s).roundsLeft = s.r := by
  rw [State.roundsLeft, lk_whitenStep]
  unfold whitenStep
  cases s.hidden.lk.decrypts
  · exact Nat.add_sub_cancel s.r 1
  · rfl

theorem stepsDelivered_whitenStep (s : State) : (whitenStep s).stepsDelivered = s.stepsDelivered := by
  unfold whitenStep
  cases s.hidden.lk.decrypts <;> rfl

theorem stepsDelivered_roundStep (s : State) : (roundStep s).stepsDelivered = s.stepsDelivered := by
  unfold roundStep
  cases s.hidden.lk.decrypts <;> rfl

/-- A round leaves one round less, and the delivery after the last. -/
theorem roundStep_cases (s : State) :
    ((roundStep s).phase = .round ∧ (roundStep s).roundsLeft + 1 = s.roundsLeft) ∨
      (roundStep s).phase = .deliver := by
  rw [State.roundsLeft, lk_roundStep, State.roundsLeft]
  unfold roundStep
  cases s.hidden.lk.decrypts
  · by_cases hmore : s.hidden.rte.i < s.r
    · refine .inl ⟨if_pos hmore, ?_⟩
      change s.r + 1 - (if s.hidden.rte.i < s.r then s.hidden.rte.i + 1 else s.hidden.rte.i) + 1 =
        s.r + 1 - s.hidden.rte.i
      rw [if_pos hmore]
      omega
    · exact .inr (if_neg hmore)
  · by_cases hmore : 1 < s.hidden.rte.i
    · refine .inl ⟨if_pos hmore, ?_⟩
      change (if 1 < s.hidden.rte.i then s.hidden.rte.i - 1 else s.hidden.rte.i) + 1 = s.hidden.rte.i
      rw [if_pos hmore]
      omega
    · exact .inr (if_neg hmore)

/-- A block in its rounds has one to make, and at most r. -/
theorem roundsLeft_bounds {s : State} (h : s.Positioned) (hp : s.phase = .round) :
    1 ≤ s.roundsLeft ∧ s.roundsLeft ≤ s.r := by
  obtain ⟨-, hlow, hhigh⟩ := (positioned_round hp).1 h
  unfold State.roundsLeft
  split_ifs <;> omega

/-! Each step of the engine decreases it. -/

namespace State.stepsLeft

theorem startOf_lt {s : State} (hp : s.phase = .check) (i : Instr) (hcmd : decode s.hidden.lk.cmd = .ok i) :
    (startOf i s).stepsLeft < s.stepsLeft := by
  have hnow : s.stepsLeft = s.workBound := stepsLeft_eq hp rfl
  rw [hnow]
  obtain rfl | ⟨d, rfl⟩ | ⟨m, p, d, rfl⟩ := instr_kinds i
  · have hfetch : (startOf .expand s).stepsLeft = s.hidden.lk.keylen.toNat + s.scheduleSteps := rfl
    rw [hfetch, scheduleSteps, workBound]
    omega
  · have hdelivered : s.stepsDelivered = 0 := if_neg (Bool.eq_false_iff.1 (isBuffer_of_blockCommand _ d hcmd))
    have hwhiten : (startOf (blockCommand d) s).stepsLeft = s.r + 2 + s.stepsDelivered := by
      rw [startOf_blockCommand]
      rfl
    rw [hwhiten, hdelivered, workBound]
    omega
  · rw [startOf_bufferCommand]
    exact (stepsLeft_toBlock 0 s).trans_lt (stepsFrom_lt_workBound 0 s)

theorem takeKeyByte_lt {s : State} (h : s.Positioned) (hp : s.phase = .fetch) (b : Byte) :
    (takeKeyByte b s).stepsLeft < s.stepsLeft := by
  obtain ⟨-, hlt⟩ := (positioned_fetch hp).1 h
  have hnow : s.stepsLeft = s.hidden.lk.keylen.toNat - s.hidden.kse.key.length + s.scheduleSteps := stepsLeft_eq hp rfl
  by_cases hmore : s.hidden.kse.key.length + 1 < s.hidden.lk.keylen.toNat
  · have hfetch : (takeKeyByte b s).stepsLeft =
        s.hidden.lk.keylen.toNat - (s.hidden.kse.key ++ [b]).length + s.scheduleSteps := stepsLeft_eq (if_pos hmore) rfl
    rw [List.length_append, List.length_singleton] at hfetch
    omega
  · have hinit : (takeKeyByte b s).stepsLeft = s.scheduleSteps := stepsLeft_eq (if_neg hmore) rfl
    omega

theorem initStep_lt {s : State} (h : s.Positioned) (hp : s.phase = .init) : (initStep s).stepsLeft < s.stepsLeft := by
  obtain ⟨-, hlen⟩ := (positioned_init hp).1 h
  have hnow : s.stepsLeft = s.scheduleSteps := stepsLeft_eq hp rfl
  have hmix : (initStep s).stepsLeft =
      mixSteps (keyPack s.hidden.kse.key).length (tableWords s.hidden.lk.r) - 0 + 2 := rfl
  rw [hnow, hmix, length_keyPack, hlen, scheduleSteps]
  omega

theorem mixPhaseStep_lt {s : State} (h : s.Positioned) (hp : s.phase = .mix) :
    (mixPhaseStep s).stepsLeft < s.stepsLeft := by
  obtain ⟨-, -, -, hlt⟩ := (positioned_mix hp).1 h
  have hnow : s.stepsLeft = mixSteps s.hidden.kse.l.length (tableWords s.hidden.lk.r) - s.hidden.kse.s + 2 :=
    stepsLeft_eq hp rfl
  by_cases hmore : s.hidden.kse.s + 1 < mixSteps s.hidden.kse.l.length (tableWords s.hidden.lk.r)
  · have hl : (mixPhaseStep s).hidden.kse.l.length = s.hidden.kse.l.length :=
      length_l_mixStep (tableWords s.hidden.lk.r) s.hidden.kse.l.length s.mixing
    have hmix : (mixPhaseStep s).stepsLeft = mixSteps (mixPhaseStep s).hidden.kse.l.length
        (tableWords s.hidden.lk.r) - (s.hidden.kse.s + 1) + 2 := stepsLeft_eq (if_pos hmore) rfl
    rw [hl] at hmix
    omega
  · have hcommit : (mixPhaseStep s).stepsLeft = 2 := stepsLeft_eq (if_neg hmore) rfl
    omega

theorem takeSourceByte_lt {s : State} (h : s.Positioned) (hp : s.phase = .read) (b : Byte) :
    (takeSourceByte b s).stepsLeft < s.stepsLeft := by
  obtain ⟨-, hlt⟩ := (positioned_read hp).1 h
  have hnow : s.stepsLeft = Config.blockBytes - s.hidden.bsp.inp.length + (s.r + 2) + s.stepsDelivered :=
    stepsLeft_eq hp rfl
  by_cases hmore : s.hidden.bsp.inp.length + 1 < Config.blockBytes
  · have hread : (takeSourceByte b s).stepsLeft =
        Config.blockBytes - (s.hidden.bsp.inp ++ [b]).length + (s.r + 2) + s.stepsDelivered :=
      stepsLeft_eq (if_pos hmore) rfl
    rw [List.length_append, List.length_singleton] at hread
    omega
  · have hwhiten : (takeSourceByte b s).stepsLeft = s.r + 2 + s.stepsDelivered := stepsLeft_eq (if_neg hmore) rfl
    omega

theorem whitenStep_lt {s : State} (hp : s.phase = .whiten) : (whitenStep s).stepsLeft < s.stepsLeft := by
  have hnow : s.stepsLeft = s.r + 2 + s.stepsDelivered := stepsLeft_eq hp rfl
  have hphase := phase_whitenStep s
  have hdelivered := stepsDelivered_whitenStep s
  split_ifs at hphase
  · have hdeliver : (whitenStep s).stepsLeft = 1 + (whitenStep s).stepsDelivered := stepsLeft_eq hphase rfl
    omega
  · have hround : (whitenStep s).stepsLeft =
        (whitenStep s).roundsLeft + 1 + (whitenStep s).stepsDelivered := stepsLeft_eq hphase rfl
    have hrounds := roundsLeft_whitenStep s
    omega

theorem roundStep_lt {s : State} (h : s.Positioned) (hp : s.phase = .round) :
    (roundStep s).stepsLeft < s.stepsLeft := by
  have hnow : s.stepsLeft = s.roundsLeft + 1 + s.stepsDelivered := stepsLeft_eq hp rfl
  have hdelivered := stepsDelivered_roundStep s
  obtain ⟨hphase, hrounds⟩ | hphase := roundStep_cases s
  · have hround : (roundStep s).stepsLeft =
        (roundStep s).roundsLeft + 1 + (roundStep s).stepsDelivered := stepsLeft_eq hphase rfl
    omega
  · have hdeliver : (roundStep s).stepsLeft = 1 + (roundStep s).stepsDelivered := stepsLeft_eq hphase rfl
    have hpos := (roundsLeft_bounds h hp).1
    omega

theorem deliverStep_lt {s : State} (hp : s.phase = .deliver) : (deliverStep s).stepsLeft < s.stepsLeft := by
  have hnow : s.stepsLeft = 1 + s.stepsDelivered := stepsLeft_eq hp rfl
  unfold deliverStep
  split_ifs with hbuf
  · have hdelivered : s.stepsDelivered = 18 + s.stepsFrom (s.hidden.bsp.k + 1) := if_pos hbuf
    by_cases hw : s.hidden.lk.writesMem = true
    · have hwrite : (s.deliverBytes (bytesOfBlock s.rteResult)).stepsLeft =
          16 + 2 + s.stepsFrom (s.hidden.bsp.k + 1) := stepsLeft_eq (if_pos hw) rfl
      omega
    · have hoffer : (s.deliverBytes (bytesOfBlock s.rteResult)).stepsLeft =
          2 + s.stepsFrom (s.hidden.bsp.k + 1) := stepsLeft_eq (if_neg hw) rfl
      omega
  · have hdone : (s.deliverDout s.rteResult).stepsLeft = 0 := rfl
    omega

theorem wroteByte_lt {s : State} (h : s.Positioned) (hp : s.phase = .write) :
    (wroteByte s).stepsLeft < s.stepsLeft := by
  obtain ⟨-, -, -, hm⟩ := (positioned_write hp).1 h
  have hnow : s.stepsLeft = Config.blockBytes - s.hidden.bsp.m + 2 + s.stepsFrom (s.hidden.bsp.k + 1) :=
    stepsLeft_eq hp rfl
  unfold wroteByte
  split_ifs with hmore
  · have hwrite : (s.setBsp { s.hidden.bsp with m := s.hidden.bsp.m + 1 }).stepsLeft =
        Config.blockBytes - (s.hidden.bsp.m + 1) + 2 + s.stepsFrom (s.hidden.bsp.k + 1) :=
      stepsLeft_eq (p := .write) hp rfl
    omega
  · have hoffer : State.stepsLeft { s with phase := .offer } = 2 + s.stepsFrom (s.hidden.bsp.k + 1) := rfl
    omega
  · have hdone := stepsLeft_blockDone s
    omega

/-- A chunk is on offer here, and an engine that can move has a sink that takes it (R75). -/
theorem holdStep_lt {s : State} (h : s.Inv) (hp : s.phase = .hold) (hm : s.canMove = true) :
    (holdStep s).stepsLeft < s.stepsLeft := by
  have hnow : s.stepsLeft = 1 + s.stepsFrom (s.hidden.bsp.k + 1) := stepsLeft_eq hp rfl
  have hready : s.sinkReady = true := by simpa only [canMove, hp] using hm
  have hchunk : s.sinkOut = some s.hidden.bsp.out := h.sink.trans (if_pos hp)
  have htaken : (holdStep s).stepsLeft = (s.note (.emit s.hidden.bsp.out)).blockDone.stepsLeft := by
    simp only [holdStep, hchunk, hready, if_true]
    exact stepsLeft_congr rfl rfl rfl
  have hdone : (s.note (.emit s.hidden.bsp.out)).blockDone.stepsLeft ≤ s.stepsFrom (s.hidden.bsp.k + 1) :=
    stepsLeft_blockDone (s.note (.emit s.hidden.bsp.out))
  omega

/-- An error response ends the command; else it goes on with the byte (R210). -/
theorem memRead_lt {s t : State} (hpos : 0 < s.stepsLeft) (a : Nat) (k : Byte → State → State)
    (hk : ∀ (b : Byte) (n : Nat) (e : PortEvent),
      (k b ((s.setFree n).note e)).stepsLeft < ((s.setFree n).note e).stepsLeft)
    (ht : s.memRead a k = .next t) : t.stepsLeft < s.stepsLeft := by
  obtain ⟨-, ⟨-, rfl⟩ | ⟨-, b, n, rfl⟩⟩ := memRead_cases _ _ _ _ ht
  · exact hpos
  · exact (hk b n _).trans_eq (stepsLeft_congr rfl rfl rfl)

theorem memWrite_lt {s t : State} (hpos : 0 < s.stepsLeft) (a : Nat) (v : Byte) (k : State → State)
    (hk : ∀ (mem : Memory) (n : Nat) (e : PortEvent), (k { (s.setFree n).note e with mem := mem }).stepsLeft <
      State.stepsLeft { (s.setFree n).note e with mem := mem })
    (ht : s.memWrite a v k = .next t) : t.stepsLeft < s.stepsLeft := by
  obtain ⟨-, ⟨-, rfl⟩ | ⟨-, b, n, rfl⟩⟩ := memWrite_cases _ _ _ _ _ ht
  · exact hpos
  · exact (hk _ n _).trans_eq (stepsLeft_congr rfl rfl rfl)

theorem engineStep_lt {s t : State} (h : s.Inv) (hm : s.canMove = true) (ht : engineStep s = .next t) :
    t.stepsLeft < s.stepsLeft := by
  have hidle : s.phase ≠ .idle := fun hp => by simp [canMove, hp] at hm
  have hpos := stepsLeft_pos hidle
  have hplace := h.position
  obtain ⟨hp, -⟩ | ⟨hp, (⟨c, i, rfl, -⟩ | ⟨i, hcmd, -, rfl⟩)⟩ | ⟨hp, ht⟩ | ⟨hp, rfl⟩ | ⟨hp, rfl⟩ | ⟨hp, rfl⟩ |
    ⟨hp, ht⟩ | ⟨hp, rfl⟩ | ⟨hp, rfl⟩ | ⟨hp, rfl⟩ | ⟨hp, ht⟩ | ⟨hp, rfl⟩ | ⟨hp, rfl⟩ | ⟨-, rfl⟩ :=
    engineStep_cases s t ht
  · exact absurd hp hidle
  · exact hpos
  · exact startOf_lt hp i hcmd
  · exact memRead_lt hpos _ _ (fun b n e => takeKeyByte_lt (hplace.answered e n) hp b) ht
  · exact initStep_lt hplace hp
  · exact mixPhaseStep_lt hplace hp
  · rw [stepsLeft_eq hp rfl]
    exact Nat.lt_succ_self 1
  · exact memRead_lt hpos _ _ (fun b n e => takeSourceByte_lt (hplace.answered e n) hp b) ht
  · exact whitenStep_lt hp
  · exact roundStep_lt hplace hp
  · exact deliverStep_lt hp
  · exact memWrite_lt hpos _ _ _ (fun _ _ _ => wroteByte_lt (hplace.congr rfl rfl rfl rfl rfl rfl rfl) hp) ht
  · have hnow : s.stepsLeft = 2 + s.stepsFrom (s.hidden.bsp.k + 1) := stepsLeft_eq hp rfl
    have hhold : (offerStep s).stepsLeft = 1 + s.stepsFrom (s.hidden.bsp.k + 1) := rfl
    omega
  · exact holdStep_lt h hp hm
  · exact hpos

end State.stepsLeft

/-! The engine's share covers it. -/

theorem block_lt_workBound {s : State} (hk : s.hidden.bsp.k < s.hidden.lk.blocks) :
    s.r + 36 + s.stepsFrom (s.hidden.bsp.k + 1) < s.workBound :=
  stepsFrom_of_lt hk ▸ stepsFrom_lt_workBound s.hidden.bsp.k s

/-- The transform and the delivery of a block, and what follows. -/
theorem transform_le_workBound {s : State} (h : s.Blocking ∨ s.InBlock) :
    s.r + 2 + s.stepsDelivered ≤ s.workBound := by
  cases hbuf : s.hidden.lk.isBuffer with
  | true =>
    have hblock := block_lt_workBound (blockInside_of_blocking_or s h hbuf).block
    have hdelivered := stepsDelivered_le s
    omega
  | false =>
    rw [State.stepsDelivered, hbuf, State.workBound]
    simp only [Bool.false_eq_true, if_false]
    omega

theorem stepsLeft_le_workBound {s : State} (h : s.Positioned) : s.stepsLeft ≤ s.workBound := by
  have hschedule : s.hidden.lk.keylen.toNat + s.scheduleSteps ≤ s.workBound := by
    rw [State.scheduleSteps, State.workBound]
    omega
  cases hp : s.phase <;> rw [stepsLeft_eq hp rfl] <;> simp only [State.stepsLeftAt]
  case idle => exact Nat.zero_le _
  case check => exact le_rfl
  case fetch | init => omega
  case mix =>
    obtain ⟨-, -, ⟨key, rest, -, -, hwords, hlen, -⟩, -⟩ := (positioned_mix hp).1 h
    rw [State.scheduleSteps, ← hlen, ← hwords] at hschedule
    omega
  case commit | finish =>
    rw [State.scheduleSteps] at hschedule
    omega
  case read =>
    have hblock := block_lt_workBound ((positioned_read hp).1 h).1.block
    have hdelivered := stepsDelivered_le s
    have hsize : Config.blockBytes = 16 := rfl
    omega
  case whiten => exact transform_le_workBound (((positioned_whiten hp).1 h).imp_right And.left)
  case round =>
    have htransform := transform_le_workBound ((positioned_round hp).1 h).1
    have hrounds := (roundsLeft_bounds h hp).2
    omega
  case deliver =>
    have htransform := transform_le_workBound ((positioned_deliver hp).1 h)
    omega
  case write =>
    have hblock := block_lt_workBound ((positioned_write hp).1 h).1.block
    have hsize : Config.blockBytes = 16 := rfl
    omega
  case offer =>
    have hblock := block_lt_workBound ((positioned_sink (.inl hp)).1 h).1.block
    omega
  case hold =>
    have hblock := block_lt_workBound ((positioned_sink (.inr hp)).1 h).1.block
    omega

/-- An engine that can make all the steps it has left goes on until it cannot move. -/
theorem canMove_of_run (n : Nat) {s t : State} (h : s.Inv) (hn : s.stepsLeft ≤ n) (ht : run n s = .next t) :
    t.canMove = false := by
  induction n generalizing s with
  | zero =>
    obtain rfl := Host.Outcome.next.inj ht
    have hidle : s.phase = .idle := by
      by_contra hp
      exact absurd (stepsLeft_pos hp) (by omega)
    simp only [State.canMove, hidle]
  | succ n ih =>
    cases hm : s.canMove with
    | true =>
      rw [run_succ n s hm] at ht
      obtain ⟨u, hu, hrest⟩ := Result.andThen_eq_next _ _ _ ht
      exact ih (h.engineStep hu) (by have := State.stepsLeft.engineStep_lt h hm hu; omega) hrest
    | false =>
      rw [run_of_not_canMove _ _ hm] at ht
      exact Host.Outcome.next.inj ht ▸ hm

/-- An engine that cannot move has no command, or waits for the sink (R75). -/
theorem idle_or_waits_of_not_canMove {s : State} (h : s.canMove = false) :
    s.phase = .idle ∨ (s.phase = .hold ∧ s.sinkReady = false) := by
  by_cases hidle : s.phase = .idle
  · exact .inl hidle
  · have hhold : s.phase = .hold := by
      by_contra hp
      rw [canMove_of_phase s hidle hp] at h
      cases h
    exact .inr ⟨hhold, by simpa only [State.canMove, hhold] using h⟩

/-- Settles O59: the share is as many steps as the running command can have left. -/
theorem everyCommandEndsOrWaitsForTheSink : Obligations.EveryCommandEndsOrWaitsForTheSink := by
  intro s t h hpace ht
  have hrun : s.resume = run s.workBound s := by rw [State.resume, hpace]
  exact idle_or_waits_of_not_canMove (canMove_of_run _ h (stepsLeft_le_workBound h.position) (hrun ▸ ht))

end Sys2Proof.Machine
end

section
/-! PROOF. What a CMD write does to STATUS and to the rest (spec/60_exceptions.md R200, R201, R211), and the idle block
(R227, R243). -/

namespace Sys2Proof.Machine

/-- Settles O55: nothing comes, and an idle engine makes no use of its share. -/
theorem idleBlockStaysAsItIs : Obligations.IdleBlockStaysAsItIs := fun s hidle hnone =>
  (step_of_nothing s hnone).trans (resume_of_idle s hidle)

/-- Settles O7: the command is accepted, and the engine is given no step. -/
theorem acceptanceChangesOnlyThis : Obligations.AcceptanceChangesOnlyThis := fun i s hbusy hpace =>
  (exec_of_idle i s hbusy).trans (resume_of_pace_zero (s.accept (encode i)) hpace)

/-- Settles O5: the word is issued, and its acceptance is its whole course. -/
theorem illegalWordEndsWithBadcmd : Obligations.IllegalWordEndsWithBadcmd := by
  intro s w rest e hrst hinbox hbusy hdecode
  rw [step_of_command s _ rest w hinbox (commandWord_of_cmd_write (s.popInbox rest) w hrst)]
  exact issue_of_illegal w (s.popInbox rest) e hbusy hdecode

/-! What clears CMDLOST (R27, R201). -/

/-- Of the register writes only one to STATUS reaches STATUS. -/
theorem status_writeReg (s : State) (v : Word) (x : Reg) :
    (s.writeReg v x).status = if x = .status then s.status.written v else s.status := by
  cases x <;> rfl

theorem status_portWrite (s : State) (addr : Nat) (lanes : BitVec 4) (v : Word) :
    (s.portWrite addr lanes v).status = s.status ∨
      (reached s.params addr lanes = some .status ∧ (s.portWrite addr lanes v).status = s.status.written v) := by
  cases hrst : s.rst with
  | true => exact .inl (by simp [State.portWrite, hrst])
  | false =>
    cases hreg : reached s.params addr lanes with
    | none => exact .inl (by rw [portWrite_of_unreached s addr lanes v hreg])
    | some x =>
      rw [portWrite_of_reached s addr lanes v x hrst hreg, status_writeReg]
      by_cases hx : x = .status
      · exact .inr ⟨congrArg some hx, if_pos hx⟩
      · exact .inl (if_neg hx)

theorem status_hostWrite (a : Nat) (v : Byte) (s : State) : (s.hostWrite a v).status = s.status := by
  cases ho : s.ownsByte a with
  | false => rw [hostWrite_of_free a v s ho]
  | true =>
    obtain ⟨b, -, n, hs⟩ := hostWrite_of_owned a v s ho
    rw [hs]
    rfl

theorem status_hostRead (a : Nat) (s : State) : (s.hostRead a).status = s.status := by
  obtain ⟨b, n, hs, -⟩ := hostRead_cases a s
  rw [hs]
  rfl

/-- Everything an outside event other than a CMD write can do to STATUS. -/
theorem status_of_outside (e : Event) (s t : State) (h : s.outside e = .next t) :
    t.status = s.status ∨
      (∃ addr lanes v, e = .regWrite addr lanes v ∧ reached s.params addr lanes = some .status ∧
        t.status = s.status.written v) ∨
      e = .rst true := by
  cases e with
  | regWrite addr lanes v =>
    cases h
    exact (status_portWrite s addr lanes v).imp_right fun hst => .inl ⟨addr, lanes, v, rfl, hst⟩
  | regRead addr lanes => cases h; exact .inl (by rw [portRead_eq s addr lanes])
  | memWrite addr v =>
    simp only [State.outside] at h
    split_ifs at h
    cases h; exact .inl (status_hostWrite addr v s)
  | memRead addr =>
    simp only [State.outside] at h
    split_ifs at h
    cases h; exact .inl (status_hostRead addr s)
  | sinkReady level => cases h; exact .inl rfl
  | busErrors regions => cases h; exact .inl rfl
  | pace n => cases h; exact .inl rfl
  | rst level =>
    cases level with
    | true => exact .inr (.inr rfl)
    | false => cases h; exact .inl rfl

theorem cmdlost_writeCmd (w : Word) (s : State) (h : s.status.cmdlost = true) :
    (s.writeCmd w).status.cmdlost = true := by
  obtain ⟨-, hw⟩ | ⟨-, -, hw⟩ | ⟨-, -, hw⟩ := writeCmd_cases w s <;> rw [hw]
  · rfl
  · exact h
  · exact h

/-- The engine's share leaves CMDLOST alone. -/
theorem cmdlost_of_resume (s t : State) (h : s.resume = .next t) : t.status.cmdlost = s.status.cmdlost := by
  obtain ⟨n, hn, -⟩ := resume_eq_run s
  exact (State.SameInputs.run n s t (hn ▸ h)).cmdlost

/-- A step keeps CMDLOST = 1, but for the STATUS write that clears it and the reset. -/
theorem cmdlost_of_step (s t : State) (h : s.status.cmdlost = true) (ht : step s = .next t) :
    t.status.cmdlost = true ∨
      (∃ addr lanes v rest, s.inbox = .regWrite addr lanes v :: rest ∧
        reached s.params addr lanes = some .status ∧ v.getLsbD 4 = true) ∨
      ∃ rest, s.inbox = .rst true :: rest := by
  cases hinbox : s.inbox with
  | nil => exact .inl ((cmdlost_of_resume s t (step_of_nothing s hinbox ▸ ht)).trans h)
  | cons e rest =>
    cases hword : (s.popInbox rest).commandWord e with
    | some w =>
      rw [step_of_command s e rest w hinbox hword] at ht
      exact .inl ((cmdlost_of_resume _ t ht).trans (cmdlost_writeCmd w (s.popInbox rest) h))
    | none =>
      rw [step_of_event s e rest hinbox hword] at ht
      obtain ⟨u, hu, hresume⟩ := Result.andThen_eq_next _ _ _ ht
      rw [cmdlost_of_resume u t hresume]
      obtain hsame | ⟨addr, lanes, v, rfl, hreg, hwritten⟩ | rfl := status_of_outside e _ u hu
      · exact .inl ((congrArg Status.cmdlost hsame).trans h)
      · cases hv : v.getLsbD 4 with
        | true => exact .inr (.inl ⟨addr, lanes, v, rest, rfl, hreg, hv⟩)
        | false => exact .inl (by rw [hwritten, Status.written_cmdlost, State.popInbox_status, h, hv]; rfl)
      · exact .inr (.inr ⟨rest, rfl⟩)

/-- Settles O6: CMDLOST is on the host's side, which a run of the engine commutes with. -/
theorem commandWhileBusyIsDropped : Obligations.CommandWhileBusyIsDropped := by
  refine ⟨fun i s hbusy => ?_, issue_of_busy, run_mapHostSide fun y => { y with cmdlost := true }, cmdlost_of_step⟩
  exact (exec_eq_issue i s).trans (issue_of_busy _ s hbusy)

end Sys2Proof.Machine
end

section
/-! PROOF. The interrupt line follows DONE while IE = 1 (spec/60_exceptions.md R217). -/

namespace Sys2Proof.Machine

theorem irq_of_done {s : State} (h : s.status.done = true) : s.irq = s.ie := by
  rw [State.irq, h, Bool.and_true]

theorem irq_of_not_done {s : State} (h : s.status.done = false) : s.irq = false := by
  rw [State.irq, h, Bool.and_false]

/-- Settles O20: every end of a command sets DONE, and acceptance, the STATUS write and rst clear it. -/
theorem interruptLineIsEnableAndDone : Obligations.InterruptLineIsEnableAndDone := by
  intro s
  refine ⟨rfl, irq_of_done rfl, fun code info => irq_of_done rfl, fun w => irq_of_not_done rfl, irq_of_not_done rfl,
    fun hrst v => ⟨?_, fun hv => ?_⟩⟩
  · rw [wr_eq_writeReg s _ v hrst (by decide) (by decide)]
    rfl
  · have hwrite : s.wr 0x00C v = { s with status := s.status.written v } :=
      wr_eq_writeReg s _ v hrst (by decide) (by decide)
    exact irq_of_not_done (by rw [hwrite, Status.written_done, hv, Bool.not_true, Bool.and_false])

end Sys2Proof.Machine
end

section
/-! PROOF. The checks of the operands that fail before the range checks and after them (spec/60_exceptions.md R203 to
R206, R209, R215), and where E_OVERLAP cannot come from. -/

namespace Sys2Proof.Machine

/-! EXPAND's first three checks. -/

theorem expandChecks_of_empty (w : Word) (s : State) (h : s.keylen = 0) :
    expandChecks (s.accept w) = some (.invalidKey, 0) := by
  simp [expandChecks, State.latches, h]

theorem expandChecks_of_long (w : Word) (s : State) (hlen : s.keylen ≠ 0)
    (hmax : s.params.keyMaxBytes < s.keylen.toNat) :
    expandChecks (s.accept w) = some (.keyTooLong, s.keylen) := by
  unfold expandChecks
  exact (if_neg hlen).trans (if_pos hmax)

theorem expandChecks_of_rounds (w : Word) (s : State) (hlen : s.keylen ≠ 0)
    (hmax : s.keylen.toNat ≤ s.params.keyMaxBytes) (hrounds : s.rounds = 0 ∨ s.params.rMax < s.rounds.toNat) :
    expandChecks (s.accept w) = some (.rounds, s.rounds) := by
  unfold expandChecks
  exact (if_neg hlen).trans <| (if_neg hmax.not_gt).trans (if_pos hrounds)

/-- Settles O21: the check is the first to fail, and EXPAND ends there. -/
theorem expandRejectsBadKeyLengthAndRounds : Obligations.ExpandRejectsBadKeyLengthAndRounds := by
  intro s hbusy hruns
  refine ⟨fun hlen => ?_, fun hlen hmax => ?_, fun hlen hmax hrounds => ?_⟩
  · exact exec_of_failed .expand s _ _ hbusy hruns (expandChecks_of_empty _ s hlen)
  · exact exec_of_failed .expand s _ _ hbusy hruns (expandChecks_of_long _ s hlen hmax)
  · exact exec_of_failed .expand s _ _ hbusy hruns (expandChecks_of_rounds _ s hlen hmax hrounds)

/-! The buffer commands. -/

/-- Both kinds of buffer checks look at the length first. -/
theorem checksOf_of_length (m i d : Bool) (w : Word) (s : State) (hlen : wholeBlocks s.len = false) :
    checksOf (bufferCommand m i d) (s.accept w) = some (.invalidLength, s.len) := by
  rw [checksOf_bufferCommand_eq]
  split_ifs
  · simp [sourceChecks, State.latches, hlen]
  · simp [copyChecks, State.latches, hlen]

/-- Settles O22: the length is the first check of every buffer command. -/
theorem badLengthIsRejectedByEveryBufferCommand : Obligations.BadLengthIsRejectedByEveryBufferCommand := by
  intro s hbusy hruns hlen i hi
  obtain ⟨m, p, d, rfl⟩ := exists_bufferCommand i hi
  exact exec_of_failed _ s _ _ hbusy hruns (checksOf_of_length m p d _ s (decide_eq_false hlen))

theorem rangesOverlap_iff (a b n : Word) :
    rangesOverlap a b n = true ↔
      (0 < n.toNat ∧ a.toNat < b.toNat + n.toNat) ∧ b.toNat < a.toNat + n.toNat := by
  simp only [rangesOverlap, Bool.and_eq_true, decide_eq_true_eq]

theorem copyChecks_of_overlap (w : Word) (s : State) (hlen : wholeBlocks s.len = true)
    (hsrc : rangeLegal s.params s.src s.len = true) (hdst : rangeLegal s.params s.dst s.len = true)
    (hoverlap : rangesOverlap s.src s.dst s.len = true) : copyChecks (s.accept w) = some (.overlap, s.dst) := by
  simp [copyChecks, State.latches, hlen, hsrc, hdst, hoverlap]

theorem sourceChecks_ne_overlap (s : State) (code : ErrCode) (info : Word) (h : sourceChecks s = some (code, info)) :
    code ≠ .overlap := by
  unfold sourceChecks at h
  split_ifs at h <;> cases h <;> decide

/-- The CHECK phase of a command with the source checks only raises no E_OVERLAP. -/
theorem errcode_checkStep_ne_overlap {s : State} {i : Instr} (hcmd : decode s.hidden.lk.cmd = .ok i)
    (hsource : checksOf i = sourceChecks) (h : s.status.errcode ≠ .overlap) :
    (checkStep s).status.errcode ≠ .overlap := by
  cases hc : checksOf i s with
  | some e =>
    obtain ⟨code, info⟩ := e
    rw [checkStep_of_failed s i code info hcmd hc]
    exact sourceChecks_ne_overlap s code info (hsource ▸ hc)
  | none =>
    rw [checkStep_of_passed s i hcmd hc]
    cases i <;> exact h

theorem errcode_of_memRead {s t : State} (a : Nat) (k : Byte → State → State)
    (hk : ∀ b u, (k b u).status = u.status) (h : s.memRead a k = .next t) :
    t.status.errcode = s.status.errcode ∨ t.status.errcode = .bus := by
  obtain ⟨-, ⟨-, rfl⟩ | ⟨-, b, n, rfl⟩⟩ := memRead_cases _ _ _ _ h
  · exact .inr rfl
  · exact .inl (by rw [hk]; rfl)

theorem errcode_of_memWrite {s t : State} (a : Nat) (v : Byte) (k : State → State)
    (hk : ∀ u, (k u).status = u.status) (h : s.memWrite a v k = .next t) :
    t.status.errcode = s.status.errcode ∨ t.status.errcode = .bus := by
  obtain ⟨-, ⟨-, rfl⟩ | ⟨-, b, n, rfl⟩⟩ := memWrite_cases _ _ _ _ _ h
  · exact .inr rfl
  · exact .inl (by rw [hk]; rfl)

theorem status_whitenStep (s : State) : (whitenStep s).status = s.status := by
  unfold whitenStep
  cases s.hidden.lk.decrypts <;> rfl

theorem status_roundStep (s : State) : (roundStep s).status = s.status := by
  unfold roundStep
  cases s.hidden.lk.decrypts <;> rfl

theorem status_holdStep (s : State) : (holdStep s).status = s.status := by
  unfold holdStep
  split
  · split_ifs <;> rfl
  · rfl

/-- Past the checks the only error is E_BUS (R210), and a success has no code (R213). -/
theorem errcode_of_engineStep {s t : State} (hcheck : s.phase ≠ .check) (h : engineStep s = .next t) :
    (t.status.errcode = s.status.errcode ∨ t.status.errcode = .bus) ∨ t.status.errcode = .noError := by
  obtain ⟨-, rfl⟩ | ⟨hp, -⟩ | ⟨-, h⟩ | ⟨-, rfl⟩ | ⟨-, rfl⟩ | ⟨-, rfl⟩ | ⟨-, h⟩ | ⟨-, rfl⟩ | ⟨-, rfl⟩ | ⟨-, rfl⟩ |
    ⟨-, h⟩ | ⟨-, rfl⟩ | ⟨-, rfl⟩ | ⟨-, rfl⟩ := engineStep_cases s t h
  · exact .inl (.inl rfl)
  · exact absurd hp hcheck
  · exact .inl (errcode_of_memRead _ takeKeyByte (fun _ _ => rfl) h)
  · exact .inl (.inl rfl)
  · exact .inl (.inl rfl)
  · exact .inl (.inl rfl)
  · exact .inl (errcode_of_memRead _ takeSourceByte (fun _ _ => rfl) h)
  · exact .inl (.inl (congrArg Status.errcode (status_whitenStep s)))
  · exact .inl (.inl (congrArg Status.errcode (status_roundStep s)))
  · unfold deliverStep
    cases s.hidden.lk.isBuffer
    · exact .inr rfl
    · exact .inl (.inl rfl)
  · exact .inl (errcode_of_memWrite _ _ wroteByte (fun u => (wroteByte_keeps u).1) h)
  · exact .inl (.inl rfl)
  · exact .inl (.inl (congrArg Status.errcode (status_holdStep s)))
  · exact .inr rfl

/-- The command `i` runs, or none, and ERRCODE is not E_OVERLAP. -/
structure State.NoOverlap (i : Instr) (s : State) : Prop where
  cmd : s.phase ≠ .idle → decode s.hidden.lk.cmd = .ok i
  code : s.status.errcode ≠ .overlap

/-- A command with the source checks only keeps clear of E_OVERLAP in every engine step. -/
theorem State.NoOverlap.engineStep {i : Instr} (hsource : checksOf i = sourceChecks) {s t : State}
    (h : s.NoOverlap i) (ht : engineStep s = .next t) : t.NoOverlap i := by
  by_cases hidle : s.phase = .idle
  · have hst : t = s := by simpa [Machine.engineStep, hidle] using ht.symm
    exact hst ▸ h
  refine ⟨fun hp => by rw [(State.StepFrame.engineStep ht).latches hp]; exact h.cmd hidle, ?_⟩
  by_cases hcheck : s.phase = .check
  · obtain rfl := Host.Outcome.next.inj ((engineStep_check s hcheck).symm.trans ht)
    exact errcode_checkStep_ne_overlap (h.cmd hidle) hsource h.code
  · obtain (heq | heq) | heq := errcode_of_engineStep hcheck ht <;> rw [heq]
    · exact h.code
    · decide
    · decide

/-- Settles O24: for a copy the overlap is the check that is left, and no other buffer command makes it. -/
theorem overlappingCopyIsRejected : Obligations.OverlappingCopyIsRejected := by
  refine ⟨fun s hbusy hruns hlen hsrc hdst hpos hlow hhigh i hi => ?_, fun s t hbusy i hi ht => ?_⟩
  · obtain ⟨d, rfl⟩ := exists_copyCommand i hi
    refine exec_of_failed _ s _ _ hbusy hruns ?_
    rw [checksOf_bufferCommand_eq]
    exact copyChecks_of_overlap _ s (decide_eq_true hlen) ((rangeLegal_iff _ _ _).2 hsrc)
      ((rangeLegal_iff _ _ _).2 hdst) ((rangesOverlap_iff _ _ _).2 ⟨⟨hpos, hlow⟩, hhigh⟩)
  · obtain ⟨m, p, d, rfl, hone⟩ := exists_sourceCommand i hi
    have hsource : checksOf (bufferCommand m p d) = sourceChecks :=
      (checksOf_bufferCommand_eq m p d).trans (if_pos hone)
    have hstart : (s.accept (encode (bufferCommand m p d))).NoOverlap (bufferCommand m p d) :=
      ⟨fun _ => decode_encode _, by simp⟩
    rw [exec_of_idle _ s hbusy] at ht
    exact (resume_keeps _ (fun _ _ hu hv => hu.engineStep hsource hv) _ t hstart ht).code

end Sys2Proof.Machine
end

section
/-! PROOF. The reset input (spec/70_reset_and_hazards.md R240, R241): what the aperture reads once rst has risen, the steps
on a change of rst, and the invariant at reset. -/

namespace Sys2Proof.Machine

/-- Below the table window the parameters do not decide which register stands at an offset (R23). -/
theorem regAt_below_window (p q : Params) (off : Nat) (h : off < 0x400) : regAt p off = regAt q off := by
  simp only [regAt, if_neg h.not_ge]

/-- Right after reset the table window reads 0, however many words it has. -/
theorem readReg_reset_window (p : Params) (off : Nat) (h : 0x400 ≤ off) :
    State.reset.readReg (regAt p off) = 0 := by
  unfold regAt
  split_ifs <;> rfl

/-- A register reads its reset value once rst has risen, but for PARAM, which the parameters fix. -/
theorem readReg_driveRst (s : State) (x : Reg) (hparam : x ≠ .param) :
    (s.driveRst true).readReg x = State.reset.readReg x := by
  cases x
  case param => exact absurd rfl hparam
  all_goals rfl

theorem rd_driveRst (s : State) (off : Nat) (hoff : off < 4096) (hal : off % 4 = 0) (hne : off ≠ 0x004) :
    (s.driveRst true).rd off = State.reset.rd off := by
  have hparam : regAt (s.driveRst true).params off ≠ .param := fun h =>
    hne (offset_of_regAt _ off .param hal (by decide) h)
  rw [rd_eq_readReg _ _ hoff hal, rd_eq_readReg _ _ hoff hal, readReg_driveRst s _ hparam]
  obtain hlow | hwindow := Nat.lt_or_ge off 0x400
  · rw [regAt_below_window _ State.reset.params off hlow]
  · rw [readReg_reset_window _ off hwindow, readReg_reset_window _ off hwindow]

/-- A change of rst that leaves no command running is the whole step. -/
theorem step_of_rst (s : State) (level : Bool) (rest : List Event) (hi : s.inbox = .rst level :: rest)
    (hidle : ((s.popInbox rest).driveRst level).phase = .idle) :
    step s = .next ((s.popInbox rest).driveRst level) :=
  (step_of_event s _ rest hi rfl).trans (resume_of_idle _ hidle)

/-- While rst is asserted the registers take no write. -/
theorem portWrite_of_rst (s : State) (addr : Nat) (lanes : BitVec 4) (v : Word) (hr : s.rst = true) :
    s.portWrite addr lanes v = s := if_pos hr

/-- Settles O19: rst going up leaves the engine idle, so that the reset is the whole step; so is a write that the
asserted rst keeps out, and the release. -/
theorem rstAbandonsTheRunningCommand : Obligations.RstAbandonsTheRunningCommand := by
  refine ⟨fun s rest hi => ?_, fun s addr lanes v rest hr hidle hi => ?_,
    fun s rest hidle hi => step_of_rst s false rest hi hidle⟩
  · exact ⟨(s.popInbox rest).driveRst true, step_of_rst s true rest hi rfl, rfl, rfl, rfl, rfl, rfl, rfl, rfl, rfl, rfl,
      rfl, rfl, rd_driveRst _⟩
  · have hcmd : s.rst = false → reached s.params addr lanes ≠ some .cmd := fun h => by rw [hr] at h; cases h
    obtain ⟨-, hwrite, -⟩ := operandRegistersHoldWhatIsWritten
    obtain ⟨-, hstep⟩ := hwrite s addr lanes v rest hi hcmd
    exact (hstep hidle).trans (congrArg _ (portWrite_of_rst (s.popInbox rest) addr lanes v hr))

/-- Settles O56: no command runs, no table is valid and no error is recorded, and rst is released. -/
theorem resetMeetsTheInvariant : Obligations.ResetMeetsTheInvariant where
  params := by decide
  memory := rfl
  inside := fun _ hc => nomatch hc
  storage := List.length_replicate
  busy := by decide
  running := by decide
  error := by decide
  info _ := rfl
  sink := rfl
  quiet _ := rfl
  context hk := nomatch hk
  position := positioned_idle rfl
  reset hr := nomatch hr

end Sys2Proof.Machine
end

section
/-! PROOF. From acceptance on STATUS shows BUSY = 1 or DONE = 1 (spec/70_reset_and_hazards.md R248): the engine clears
BUSY only where it sets DONE (R212, R213). -/

namespace Sys2Proof.Machine

/-- BUSY = 1 or DONE = 1. -/
def State.BusyOrDone (s : State) : Prop := s.status.busy = true ∨ s.status.done = true

namespace State.BusyOrDone

theorem of_done {s : State} (h : s.status.done = true) : s.BusyOrDone := .inr h

/-- It looks at BUSY and DONE only. -/
theorem congr {s t : State} (h : s.BusyOrDone) (hbusy : t.status.busy = s.status.busy)
    (hdone : t.status.done = s.status.done) : t.BusyOrDone := by
  unfold State.BusyOrDone
  rw [hbusy, hdone]
  exact h

theorem of_status {s t : State} (h : s.BusyOrDone) (hstatus : t.status = s.status) : t.BusyOrDone :=
  h.congr (congrArg Status.busy hstatus) (congrArg Status.done hstatus)

theorem startOf {s : State} (h : s.BusyOrDone) (i : Instr) : (startOf i s).BusyOrDone := by
  cases i <;> exact h

/-- A read that is answered leaves STATUS alone, and an error response ends the command (R210, R212). -/
theorem memRead {s t : State} (h : s.BusyOrDone) (a : Nat) (k : Byte → State → State)
    (hk : ∀ b u, (k b u).status = u.status) (ht : s.memRead a k = .next t) : t.BusyOrDone := by
  obtain ⟨-, ⟨-, rfl⟩ | ⟨-, b, n, rfl⟩⟩ := memRead_cases _ _ _ _ ht
  · exact of_done rfl
  · exact h.of_status (hk b _)

theorem memWrite {s t : State} (h : s.BusyOrDone) (a : Nat) (v : Byte) (k : State → State)
    (hk : ∀ u, (k u).status = u.status) (ht : s.memWrite a v k = .next t) : t.BusyOrDone := by
  obtain ⟨-, ⟨-, rfl⟩ | ⟨-, b, n, rfl⟩⟩ := memWrite_cases _ _ _ _ _ ht
  · exact of_done rfl
  · exact h.of_status (hk _)

/-- The result of a block command comes with its completion (R154, R155). -/
theorem deliverStep {s : State} (h : s.BusyOrDone) : (deliverStep s).BusyOrDone := by
  unfold Machine.deliverStep
  cases s.hidden.lk.isBuffer
  · exact of_done rfl
  · exact h

theorem engineStep {s t : State} (h : s.BusyOrDone) (ht : engineStep s = .next t) : t.BusyOrDone := by
  obtain ⟨-, rfl⟩ | ⟨-, (⟨c, i, rfl, -⟩ | ⟨i, -, -, rfl⟩)⟩ | ⟨-, ht⟩ | ⟨-, rfl⟩ | ⟨-, rfl⟩ | ⟨-, rfl⟩ |
    ⟨-, ht⟩ | ⟨-, rfl⟩ | ⟨-, rfl⟩ | ⟨-, rfl⟩ | ⟨-, ht⟩ | ⟨-, rfl⟩ | ⟨-, rfl⟩ | ⟨-, rfl⟩ := engineStep_cases s t ht
  · exact h
  · exact of_done rfl
  · exact h.startOf i
  · exact h.memRead _ takeKeyByte (fun _ _ => rfl) ht
  · exact h.congr rfl rfl
  · exact h.congr rfl rfl
  · exact h.congr rfl rfl
  · exact h.memRead _ takeSourceByte (fun _ _ => rfl) ht
  · exact h.of_status (status_whitenStep s)
  · exact h.of_status (status_roundStep s)
  · exact h.deliverStep
  · exact h.memWrite _ _ wroteByte (fun u => (wroteByte_keeps u).1) ht
  · exact h.congr rfl rfl
  · exact h.of_status (status_holdStep s)
  · exact of_done rfl

end State.BusyOrDone

/-- Settles O60: acceptance sets BUSY, and every engine step keeps BUSY = 1 or DONE = 1. -/
theorem acceptedCommandShowsBusyOrDone : Obligations.AcceptedCommandShowsBusyOrDone := by
  intro i s t _ hbusy ht
  have haccepted : (s.accept (encode i)).BusyOrDone := .inl rfl
  rw [exec_of_idle i s hbusy] at ht
  exact resume_keeps State.BusyOrDone (fun _ _ h hu => h.engineStep hu) _ t haccepted ht

end Sys2Proof.Machine
end
